-- ==== Sys2Proof/Word.lean ====
section
/-! DEFINITION. The words of this block: bytes, the 16-bit command word, and pin levels (00_scope.md R11, R12). -/

namespace Sys2Proof

/-- A byte: an unsigned 8-bit value, bit 7 the most significant (R12). -/
abbrev Byte := BitVec 8

/-- The 16-bit command word `CW` (R80). -/
abbrev Word := BitVec 16

/-- A pin level (R11). -/
inductive Level where
  | low
  | high
  deriving DecidableEq, Repr, Inhabited

/-- `not low = high`, `not high = low` (R11). -/
def Level.inv : Level → Level
  | .low => .high
  | .high => .low

end Sys2Proof
end

