-- ==== Sys2Proof/Syntax.lean ====
section
/-! DEFINITION. The operations of the block's public contract, one constructor per row of spec/opcode_table.json
(30_encoding.md R84). The operand of a constructor is the reading R82 gives `ARG` in that row. -/

namespace Sys2Proof

/-- One operation, started by one command word (R80, R84). Operands that are not in the command word stand in the
operand registers (R29, R83). -/
inductive Instr where
  /-- CONFIGURE, `ARG` read as `mode8` (R120). -/
  | configure (mode8 : Byte)
  /-- CONFIGURE_BIT_ORDER, `ARG` read as `order8` (R121). -/
  | configureBitOrder (order8 : Byte)
  /-- START (R122). -/
  | start
  /-- SELECT (R123). -/
  | select
  /-- DESELECT (R124). -/
  | deselect
  /-- WRITE, `ARG` read as `flags` (R141). -/
  | write (selectBefore deselectAfter : Bool)
  /-- READ, `ARG` read as `flags` (R142). -/
  | read (selectBefore deselectAfter : Bool)
  /-- TRANSFER, `ARG` read as `flags` (R145). -/
  | transfer (selectBefore deselectAfter : Bool)
  /-- BUILD_FRAME (R160). -/
  | buildFrame
  /-- PARSE_RESPONSE_FRAME (R162). -/
  | parseResponseFrame
  /-- STATUS_READ (R166). -/
  | statusRead
  /-- WAIT_READY (R170). -/
  | waitReady
  /-- DATA_READ (R167). -/
  | dataRead
  /-- READ_ACK (R168). -/
  | readAck
  /-- SEND_COMMAND, `ARG` read as `opcode8` (R190). -/
  | sendCommand (opcode8 : Byte)
  /-- INITIALIZE (R194). -/
  | initializeOp
  /-- GET_FIRMWARE_VERSION (R195). -/
  | getFirmwareVersion
  /-- USE_SAM_CONFIGURATION (R196). -/
  | useSamConfiguration
  /-- READ_PASSIVE_TARGET, `ARG` read as `baud8` (R197). -/
  | readPassiveTarget (baud8 : Byte)
  deriving DecidableEq, Repr

end Sys2Proof
end

