-- ==== Sys2Proof/WellFormed.lean ====
section
/-! DEFINITION. Which command words are legal: the operation table of 30_encoding.md R84 as rows of a match and a mask,
and the three ways a word is reserved (R85). An `Instr` cannot be ill-formed: its operand types are exactly the
readings of `ARG` (R82), so the checks stand on the words. -/

namespace Sys2Proof

/-- How a row reads `ARG` (R82). -/
inductive ArgReading where
  | mode8
  | order8
  | flags
  | opcode8
  | baud8
  | zero
  deriving DecidableEq, Repr

/-- One row of the operation table (R84). -/
structure Row where
  mnemonic : String
  opc : Byte
  reading : ArgReading
  deriving DecidableEq, Repr

/-- The bits of `ARG` that a legal word leaves zero under a reading (R82: `flags` bits 7:2, `zero` all bits). -/
def ArgReading.reservedBits : ArgReading → Byte
  | .zero => 0xFF
  | .flags => 0xFC
  | .mode8 | .order8 | .opcode8 | .baud8 => 0x00

/-- The row's `match` (R84). -/
def Row.pattern (r : Row) : Word := r.opc ++ (0x00 : Byte)

/-- The row's `mask` (R84). -/
def Row.mask (r : Row) : Word := (0xFF : Byte) ++ r.reading.reservedBits

/-- The word matches the row. -/
def Row.accepts (r : Row) (w : Word) : Bool := w &&& r.mask == r.pattern

/-- The rows of unit T (R84). -/
def tableT : List Row :=
  [⟨"CONFIGURE", 0x01, .mode8⟩, ⟨"CONFIGURE_BIT_ORDER", 0x02, .order8⟩, ⟨"START", 0x03, .zero⟩,
   ⟨"SELECT", 0x04, .zero⟩, ⟨"DESELECT", 0x05, .zero⟩, ⟨"WRITE", 0x08, .flags⟩, ⟨"READ", 0x09, .flags⟩,
   ⟨"TRANSFER", 0x0A, .flags⟩]

/-- The rows of unit P (R84). -/
def tableP : List Row :=
  [⟨"BUILD_FRAME", 0x10, .zero⟩, ⟨"PARSE_RESPONSE_FRAME", 0x11, .zero⟩, ⟨"STATUS_READ", 0x12, .zero⟩,
   ⟨"WAIT_READY", 0x13, .zero⟩, ⟨"DATA_READ", 0x14, .zero⟩, ⟨"READ_ACK", 0x15, .zero⟩,
   ⟨"SEND_COMMAND", 0x18, .opcode8⟩, ⟨"INITIALIZE", 0x19, .zero⟩, ⟨"GET_FIRMWARE_VERSION", 0x1A, .zero⟩,
   ⟨"USE_SAM_CONFIGURATION", 0x1B, .zero⟩, ⟨"READ_PASSIVE_TARGET", 0x1C, .baud8⟩]

/-- The operation table (R84). -/
def opTable : List Row := tableT ++ tableP

/-- A command word is legal when a row of the table accepts it; every other word is reserved (R85). -/
def Word.legal (w : Word) : Bool := opTable.any (·.accepts w)

/-- The mnemonic of an operation (R84). -/
def Instr.mnemonic : Instr → String
  | .configure _ => "CONFIGURE"
  | .configureBitOrder _ => "CONFIGURE_BIT_ORDER"
  | .start => "START"
  | .select => "SELECT"
  | .deselect => "DESELECT"
  | .write _ _ => "WRITE"
  | .read _ _ => "READ"
  | .transfer _ _ => "TRANSFER"
  | .buildFrame => "BUILD_FRAME"
  | .parseResponseFrame => "PARSE_RESPONSE_FRAME"
  | .statusRead => "STATUS_READ"
  | .waitReady => "WAIT_READY"
  | .dataRead => "DATA_READ"
  | .readAck => "READ_ACK"
  | .sendCommand _ => "SEND_COMMAND"
  | .initializeOp => "INITIALIZE"
  | .getFirmwareVersion => "GET_FIRMWARE_VERSION"
  | .useSamConfiguration => "USE_SAM_CONFIGURATION"
  | .readPassiveTarget _ => "READ_PASSIVE_TARGET"

end Sys2Proof
end

