-- ==== Sys2Proof/Decode.lean ====
section
/-! DEFINITION. Format CW16 (30_encoding.md R81): `OPC` in bits 15:8, `ARG` in bits 7:0. The decoder is total on
16-bit words and rejects a reserved word by the name of the rule it breaks (R85); the encoder is written from the
same table (R84). -/

namespace Sys2Proof

/-- Why a command word is reserved (R85). -/
inductive Reserved where
  /-- `OPC` is no row's operation code. -/
  | opcode (opc : Byte)
  /-- A `zero` row with `ARG` other than 0x00. -/
  | nonzeroArg (arg : Byte)
  /-- A `flags` row with a bit of `ARG[7:2]` set. -/
  | flagBits (arg : Byte)
  deriving DecidableEq, Repr

/-- `OPC`, bits 15:8 of the command word (R81). -/
def opcOf (w : Word) : Byte := w.extractLsb' 8 8

/-- `ARG`, bits 7:0 of the command word (R81). -/
def argOf (w : Word) : Byte := w.extractLsb' 0 8

/-- A command word from its two fields (R81). -/
def wordOf (opc arg : Byte) : Word := opc ++ arg

/-- The `zero` reading: `ARG` must be 0x00 (R82(f), R85). -/
def readZero (arg : Byte) (i : Instr) : Except Reserved Instr :=
  if arg = 0x00 then .ok i else .error (.nonzeroArg arg)

/-- The `flags` reading: bit 1 is `select_before`, bit 0 is `deselect_after`, bits 7:2 are zero (R82(c), R85). -/
def readFlags (arg : Byte) (mk : Bool → Bool → Instr) : Except Reserved Instr :=
  if arg &&& 0xFC = 0x00 then .ok (mk (arg.getLsbD 1) (arg.getLsbD 0)) else .error (.flagBits arg)

/-- The decoder: `OPC` selects the row of R84, and the row reads `ARG` (R82). -/
def decode (w : Word) : Except Reserved Instr :=
  let arg := argOf w
  match (opcOf w).toNat with
  | 0x01 => .ok (.configure arg)
  | 0x02 => .ok (.configureBitOrder arg)
  | 0x03 => readZero arg .start
  | 0x04 => readZero arg .select
  | 0x05 => readZero arg .deselect
  | 0x08 => readFlags arg .write
  | 0x09 => readFlags arg .read
  | 0x0A => readFlags arg .transfer
  | 0x10 => readZero arg .buildFrame
  | 0x11 => readZero arg .parseResponseFrame
  | 0x12 => readZero arg .statusRead
  | 0x13 => readZero arg .waitReady
  | 0x14 => readZero arg .dataRead
  | 0x15 => readZero arg .readAck
  | 0x18 => .ok (.sendCommand arg)
  | 0x19 => readZero arg .initializeOp
  | 0x1A => readZero arg .getFirmwareVersion
  | 0x1B => readZero arg .useSamConfiguration
  | 0x1C => .ok (.readPassiveTarget arg)
  | _ => .error (.opcode (opcOf w))

/-- `ARG` of the two flags (R82(c)). -/
def flagsArg (selectBefore deselectAfter : Bool) : Byte :=
  (if selectBefore then 0x02 else 0x00) ||| (if deselectAfter then 0x01 else 0x00)

/-- The encoder: the command word of an operation (R84). -/
def encode : Instr → Word
  | .configure m => wordOf 0x01 m
  | .configureBitOrder o => wordOf 0x02 o
  | .start => wordOf 0x03 0x00
  | .select => wordOf 0x04 0x00
  | .deselect => wordOf 0x05 0x00
  | .write s d => wordOf 0x08 (flagsArg s d)
  | .read s d => wordOf 0x09 (flagsArg s d)
  | .transfer s d => wordOf 0x0A (flagsArg s d)
  | .buildFrame => wordOf 0x10 0x00
  | .parseResponseFrame => wordOf 0x11 0x00
  | .statusRead => wordOf 0x12 0x00
  | .waitReady => wordOf 0x13 0x00
  | .dataRead => wordOf 0x14 0x00
  | .readAck => wordOf 0x15 0x00
  | .sendCommand o => wordOf 0x18 o
  | .initializeOp => wordOf 0x19 0x00
  | .getFirmwareVersion => wordOf 0x1A 0x00
  | .useSamConfiguration => wordOf 0x1B 0x00
  | .readPassiveTarget b => wordOf 0x1C b

/-- The instruction the decoder reads from a table row's bits. The command word is ONE 16-bit word with no operand
words after it, so its bits are numbered as the table numbers them and nothing has to be laid out in bytes. -/
def decodeTableWord (nbits w : Nat) : Option Instr :=
  if nbits ≤ 16 ∧ w < 2 ^ 16 then (decode (BitVec.ofNat 16 w)).toOption else none

end Sys2Proof
end

