-- ==== Sys2Proof/Config.lean ====
section
/-! DEFINITION. The implementation parameters (00_scope.md R8, R9; 30_encoding.md R88) and the free values of the
environment. A parameter is an argument of the model: it stands in the field `cfg` of `State`, no step changes it,
and every statement holds for every value of it. A free value is an opaque constant: nothing can be proved of it. -/

namespace Sys2Proof

/-- Which bit index selects the MOSI bit of a TRANSFER cell: `XFER_WRITE_INDEX` (R9, 41_transport_data.md R146). -/
inductive WriteIndex where
  | bit
  | byte
  deriving DecidableEq, Repr

/-- The parameters of R8 and R9. -/
structure Config where
  /-- `MOSI_INIT`, the level of MOSI after START (R122, D7: OPEN). -/
  mosiInit : Level
  /-- `XFER_WRITE_INDEX` (R146, D12). -/
  xferWriteIndex : WriteIndex
  /-- `FRAME_OVERHEAD` (R108, D17). -/
  frameOverhead : Nat
  /-- `T_CMD_DEFAULT` in milliseconds (R195, D25). -/
  tCmdDefault : Nat
  /-- `BUFMAX - 263`: the spec asks for `BUFMAX` at least 263 (R9, R60, D32: OPEN). -/
  bufMaxExtra : Nat
  /-- `RD_ECHO`, the first byte of a data read when the peripheral behaves (R99, D24). -/
  rdEcho : Byte
  /-- `DW`, the data-write marker. -/
  dw : Byte
  /-- `SR`, the status-read marker. -/
  sr : Byte
  /-- `DR`, the data-read marker (the byte sent). -/
  dr : Byte
  /-- `READY`, the fixed "ready" value. -/
  ready : Byte
  /-- `H2D`, the host-to-device marker. -/
  h2d : Byte
  /-- `D2H`, the device-to-host marker. -/
  d2h : Byte
  /-- `OPC_GFV`, the firmware-version opcode. -/
  opcGfv : Byte
  /-- `OPC_SAM`, the configuration opcode. -/
  opcSam : Byte
  /-- `OPC_ILPT`, the passive-target opcode. -/
  opcIlpt : Byte
  /-- `SAM_PARAMS`, the fixed configuration parameters. -/
  samParams : List Byte
  /-- `SAM_CAP`, the response capacity of the configuration command. -/
  samCap : Nat
  /-- `ILPT_MAXTG`, the first parameter of the passive-target command. -/
  ilptMaxTg : Byte
  deriving DecidableEq, Repr

/-- FREE VALUE: the level the peripheral answers at the n-th draw, where the environment has fixed none
(20_memory.md R58: "Each `PinIn(MISO)` is a free draw"). No body: nothing can be proved of it. Log 2. -/
opaque Config.freeMiso : Nat → Level

/-- FREE VALUE: the time in milliseconds the n-th primitive takes beyond its lower bound, where the environment has
fixed none (00_scope.md R14: "there is no upper bound"). No body. Log 3. -/
opaque Config.freeLag : Nat → Nat

end Sys2Proof
end

