-- ==== Sys2Proof/Machine/Constants.lean ====
section
/-! DEFINITION. The protocol constants whose value the source gives (30_encoding.md R87) and the defaults of the
parameters (R88, R9). -/

namespace Sys2Proof.Machine

/-- `PREAMBLE` (R87). -/
def preamble : Byte := 0x00
/-- `START_CODE`, two bytes (R87). -/
def startCode : List Byte := [0x00, 0xFF]
/-- The second byte of the start code, the one an inbound frame must show (R91). -/
def startCode2 : Byte := 0xFF
/-- `POSTAMBLE` (R87). -/
def postamble : Byte := 0x00
/-- `ACK`, seven bytes (R87, R97). -/
def ackBytes : List Byte := [0x01, 0x00, 0x00, 0xFF, 0x00, 0xFF, 0x00]
/-- The protocol clock mode (R87). -/
def protocolMode : Byte := 0x00
/-- The protocol bit order, LeastSignificantFirst as `order8` numbers it (R87, R82(b)). -/
def protocolOrder : Byte := 0x01
/-- `T_INIT_SETTLE` in milliseconds (R87). -/
def tInitSettle : Nat := 1000
/-- `T_WAKE` in milliseconds (R87). -/
def tWake : Nat := 2
/-- `T_POLL` in milliseconds (R87). -/
def tPoll : Nat := 10
/-- `GFV_CAP` (R87). -/
def gfvCap : Nat := 4
/-- `ILPT_CAP` (R87). -/
def ilptCap : Nat := 17
/-- `UID_MAX` (R87). -/
def uidMax : Nat := 7
/-- The response header length (R87). -/
def headerLen : Nat := 2

/-- The defaults of R88 and R9. PRESUMED for the markers, opcodes, `SAM_PARAMS`, `SAM_CAP`, `ILPT_MAXTG` and
`T_CMD_DEFAULT` (the spec takes them from general knowledge; log 4); DESIGN CHOICE for `MOSI_INIT` and `BUFMAX`,
which the spec leaves OPEN (log 5). -/
def defaultConfig : Config where
  mosiInit := .low
  xferWriteIndex := .bit
  frameOverhead := 8
  tCmdDefault := 1000
  bufMaxExtra := 0
  rdEcho := 0x01
  dw := 0x01
  sr := 0x02
  dr := 0x03
  ready := 0x01
  h2d := 0xD4
  d2h := 0xD5
  opcGfv := 0x02
  opcSam := 0x14
  opcIlpt := 0x4A
  samParams := [0x01, 0x14, 0x01]
  samCap := 0
  ilptMaxTg := 0x01

end Sys2Proof.Machine
end

