-- ==== Sys2Proof/Machine/State.lean ====
section
/-! DEFINITION. The machine's state as plain data (10_state.md), its observable (00_scope.md R16), the environment, the
reasons a run stops, and the state after reset (10_state.md R36). -/

namespace Sys2Proof.Machine

/-- The four pins (20_memory.md R50, R51). -/
inductive Pin where
  | sck
  | mosi
  | miso
  | csn
  deriving DecidableEq, Repr

/-- The events of the wire trace (R16). -/
inductive Event where
  /-- `CfgOut(p, v)`: pin p becomes an output with initial level v. -/
  | cfgOut (p : Pin) (v : Level)
  /-- `CfgIn(p)`: pin p becomes an input. -/
  | cfgIn (p : Pin)
  /-- `Out(p, v)`: the level of p is set to v. -/
  | out (p : Pin) (v : Level)
  /-- `In(v)`: MISO was read as v. -/
  | sampled (v : Level)
  /-- `Wait(d)`: a blocking wait of at least d milliseconds. -/
  | wait (d : Nat)
  deriving DecidableEq, Repr

/-- `ORDER`: 0 is `msbFirst`, 1 is `lsbFirst` (R23). -/
inductive BitOrder where
  | msbFirst
  | lsbFirst
  deriving DecidableEq, Repr

/-- `FSM`, the command sequencer (R27, R193). -/
inductive Fsm where
  | idle
  | frameSent
  | awaitingAck
  | ackVerified
  | awaitingResponse
  | responseParsed
  | success
  | noResponse
  | protocolError
  deriving DecidableEq, Repr

/-- `PH`, the phase inside a bit cell (R28). -/
inductive Phase where
  | drive
  | lead
  | trail
  deriving DecidableEq, Repr

/-- `(I, J, PH)`, the position inside a WRITE, READ or TRANSFER (R28). -/
structure Position where
  byteIdx : Nat
  cellIdx : Nat
  phase : Phase
  deriving DecidableEq, Repr

/-- `OUTCOME`: 0 `Ok`, 1 `NoResponse`, 2 `Fatal` (R30). -/
inductive Verdict where
  | ok
  | noResponse
  | fatal
  deriving DecidableEq, Repr

/-- The fatal errors of the block, with the info three of them carry (60_exceptions.md R220). They are outcomes of an
operation, not stops of the model: `State.takeError` gives the state after one. -/
inductive Error where
  | invalidMode (arg : Byte)
  | invalidOrder (arg : Byte)
  | ackMismatch
  | frameStartBad
  | truncatedPreamble
  | missingStartCode
  | lengthChecksumMismatch
  | payloadChecksumMismatch
  | wrongCommandResponse
  | truncatedFrame
  | payloadTooLong (len : Nat)
  | deviceNotDetected
  | moreThanOneCard
  | uidTooLong
  | malformedTargetResponse
  deriving DecidableEq, Repr

/-- The operand registers beside `ARG` (R29). -/
structure Operands where
  /-- `LEN` -/
  len : Nat
  /-- `CAP` -/
  cap : Nat
  /-- `TMO` -/
  tmo : Nat
  /-- `XMAX`, which no rule reads (R164). -/
  xmax : Nat
  /-- `TXBUF` -/
  txbuf : List Byte
  deriving DecidableEq, Repr

/-- The result registers (R30), and the info an error carries (R220, R236; log 14). -/
structure Results where
  outcome : Verdict
  err : Byte
  errInfo : Option Nat
  rxbuf : List Byte
  flag : Bool
  deriving DecidableEq, Repr

/-- What the host presents to start one operation: a command word and the operand registers with it (R80). -/
structure Command where
  cw : Word
  opr : Operands
  deriving DecidableEq, Repr

/-- The environment: what the peripheral answers and how time passes (00_scope.md R6, R14; logs 2, 3). `miso` and
`lag` hold the draws fixed in advance, by number; a draw past their end is a free value. -/
structure World where
  miso : List Level
  misoIx : Nat
  lag : List Nat
  lagIx : Nat
  now : Nat
  deriving DecidableEq, Repr

/-- The complete state of the block (10_state.md R20), its observable history (R16, R193), the environment, the
commands the host will still issue, and the parameters. -/
structure State where
  /-- `MODE` (R21) -/
  mode : BitVec 2
  /-- `MODE_V` (R21) -/
  modeV : Bool
  /-- `ORDER` (R23) -/
  order : BitOrder
  /-- `ORDER_V` (R23) -/
  orderV : Bool
  /-- `STARTED` (R24) -/
  started : Bool
  /-- `SCK_Q` (R25) -/
  sckQ : Level
  /-- `MOSI_Q` (R25) -/
  mosiQ : Level
  /-- `CSN_Q` (R25) -/
  csnQ : Level
  /-- `FSM` (R27) -/
  fsm : Fsm
  /-- `(I, J, PH)`, none between operations (R28, R36) -/
  pos : Option Position
  /-- `ARG` (R29) -/
  arg : Byte
  /-- the other operand registers (R29) -/
  opr : Operands
  /-- the result registers (R30) -/
  res : Results
  /-- the working buffer, empty between operations (R31; log 11) -/
  wbuf : List Byte
  /-- the wire trace so far (R16; log 10) -/
  trace : List Event
  /-- the values `FSM` has passed through so far (R193; log 10) -/
  fsmLog : List Fsm
  /-- the environment (R6) -/
  world : World
  /-- the commands the host will still issue (R6, R65; log 1) -/
  script : List Command
  /-- the parameters (R8, R9; log 4) -/
  cfg : Config
  deriving DecidableEq, Repr

/-- The machine faults: there is none. The block has no trap and no fault of its own, and pin I/O does not fail
(00_scope.md R10, 41_transport_data.md R150), so no operation and no step raises a fault; a fatal error of R220 is
an outcome and a next state. Safe: there is nothing here that stops a run. -/
inductive Fault where
  deriving DecidableEq, Repr

/-- The refusals (60_exceptions.md R222): the states and command words to which the spec gives no meaning. -/
inductive Refusal where
  /-- `exec`, for an instruction that has no meaning yet. Safe: the run stops. No arm uses it now. -/
  | notModelled (mnemonic : String)
  /-- `step`, for a reserved command word (R85). Safe: the run stops. -/
  | invalidCommand (why : Reserved)
  /-- START with `MODE_V = 0`, a data operation with `ORDER_V = 0` or `MODE_V = 0` (R36, R122, R127). Safe. -/
  | notConfigured
  /-- Every pin-touching operation with `STARTED = 0` (R127). Safe. -/
  | notStarted
  /-- CONFIGURE, CONFIGURE_BIT_ORDER and INITIALIZE through them, with `STARTED = 1` and `CSN_Q = low` (R126). Safe. -/
  | configDuringTransaction
  /-- A byte sequence operand or a read length above `BUFMAX` (R60). Safe. -/
  | tooLong
  /-- DATA_READ of no byte (R167). Safe. -/
  | invalidLength
  /-- TRANSFER of more than 8 bytes, by itself or inside DATA_READ, when `XFER_WRITE_INDEX = byte` (R146). Safe. -/
  | writeIndexBeyondByte
  deriving DecidableEq, Repr

/-- The machine right after reset (10_state.md R36, 70_reset_and_hazards.md R260). The registers for which R36 says
"no value" hold values the model names (log 6); the environment has fixed nothing and the host has issued nothing
(logs 1, 2, 3); the parameters hold their defaults (logs 4, 5). -/
def State.reset : State where
  mode := 0
  modeV := false
  order := .msbFirst
  orderV := false
  started := false
  sckQ := .low
  mosiQ := .low
  csnQ := .low
  fsm := .idle
  pos := none
  arg := 0x00
  opr := { len := 0, cap := 0, tmo := 0, xmax := 0, txbuf := [] }
  res := { outcome := .ok, err := 0x00, errInfo := none, rxbuf := [], flag := false }
  wbuf := []
  trace := []
  fsmLog := []
  world := { miso := [], misoIx := 0, lag := [], lagIx := 0, now := 0 }
  script := []
  cfg := defaultConfig

end Sys2Proof.Machine
end

