-- ==== Sys2Proof/Machine/Flags.lean ====
section
/-! DEFINITION. The values an operation leaves in the result registers (10_state.md R30, R32), the error codes
(60_exceptions.md R220), and the two checksums (30_encoding.md R94, R95). The block has no condition codes (R32). -/

namespace Sys2Proof.Machine

/-- `OUTCOME` as the host reads it, 2 bits (R30). -/
def Verdict.code : Verdict → BitVec 2
  | .ok => 0
  | .noResponse => 1
  | .fatal => 2

/-- The code of an error, the value of `ERR` (R220). -/
def Error.code : Error → Byte
  | .invalidMode _ => 0x01
  | .invalidOrder _ => 0x02
  | .ackMismatch => 0x10
  | .frameStartBad => 0x11
  | .truncatedPreamble => 0x12
  | .missingStartCode => 0x13
  | .lengthChecksumMismatch => 0x14
  | .payloadChecksumMismatch => 0x15
  | .wrongCommandResponse => 0x16
  | .truncatedFrame => 0x17
  | .payloadTooLong _ => 0x18
  | .deviceNotDetected => 0x20
  | .moreThanOneCard => 0x21
  | .uidTooLong => 0x22
  | .malformedTargetResponse => 0x23

/-- The info an error carries besides its code: the rejected value or the length (R220). -/
def Error.info : Error → Option Nat
  | .invalidMode v => some v.toNat
  | .invalidOrder v => some v.toNat
  | .payloadTooLong n => some n
  | _ => none

/-- `Ok(())`: no byte sequence, no Boolean (R30, R83). -/
def Results.ofUnit : Results := { outcome := .ok, err := 0x00, errInfo := none, rxbuf := [], flag := false }

/-- `Ok` of a byte sequence (R30, R83). -/
def Results.ofBytes (bs : List Byte) : Results :=
  { outcome := .ok, err := 0x00, errInfo := none, rxbuf := bs, flag := false }

/-- `Ok` of a Boolean (R30, R83). -/
def Results.ofFlag (b : Bool) : Results :=
  { outcome := .ok, err := 0x00, errInfo := none, rxbuf := [], flag := b }

/-- `Ok(Some(uid))`, `FLAG = 1` and the UID in `RXBUF`, or `Ok(None)`, `FLAG = 0` (R83, R197). -/
def Results.ofTarget : Option (List Byte) → Results
  | some uid => { outcome := .ok, err := 0x00, errInfo := none, rxbuf := uid, flag := true }
  | none => { outcome := .ok, err := 0x00, errInfo := none, rxbuf := [], flag := false }

/-- `Ok(data)` or the benign `NoResponse` (R15, R83, R190). -/
def Results.ofResponse : Option (List Byte) → Results
  | some data => Results.ofBytes data
  | none => { outcome := .noResponse, err := 0x00, errInfo := none, rxbuf := [], flag := false }

/-- `Fatal(e)`: `OUTCOME <- Fatal`, `ERR <- code(E)`, `RXBUF <- empty`, `FLAG <- 0` (R236). -/
def Results.ofError (e : Error) : Results :=
  { outcome := .fatal, err := e.code, errInfo := e.info, rxbuf := [], flag := false }

/-- The sum of the bytes modulo 256 (R95, R96). -/
def byteSum (bs : List Byte) : Byte := bs.foldr (· + ·) 0

/-- `LCS = (0x100 - L) mod 256` (R94). -/
def lengthChecksum (len : Byte) : Byte := BitVec.ofNat 8 (0x100 - len.toNat)

/-- `DCS = (0x100 - (sum(p) mod 256)) mod 256` (R95). -/
def payloadChecksum (p : List Byte) : Byte := BitVec.ofNat 8 (0x100 - (byteSum p).toNat)

end Sys2Proof.Machine
end

