-- ==== Sys2Proof/Machine/Operands.lean ====
section
/-! DEFINITION. The readings of `ARG` (30_encoding.md R82), the values that are functions of `MODE` and `ORDER`
(10_state.md R22, 20_memory.md R52), the bit against level mapping (00_scope.md R11), and the bounds of the byte
buffers (20_memory.md R60). -/

namespace Sys2Proof.Machine

/-- `level(b)`: high for 1, low for 0 (R11, R140). -/
def levelOf : Bool → Level
  | true => .high
  | false => .low

/-- `bit(v)`: 1 for high, 0 for low (R11, R140). -/
def bitOf : Level → Bool
  | .high => true
  | .low => false

/-- `idle_level = high if MODE[1] = 1 else low` (R22). -/
def idleLevel (mode : BitVec 2) : Level := levelOf (mode.getLsbD 1)

/-- `active_level = not idle_level` (R22). -/
def activeLevel (mode : BitVec 2) : Level := (idleLevel mode).inv

/-- `sample_on_leading_edge = (MODE[0] = 0)` (R22). -/
def sampleOnLeadingEdge (mode : BitVec 2) : Bool := !mode.getLsbD 0

/-- `pos(ORDER, j)`: the bit position the j-th cell of a byte carries (R52). -/
def bitPos : BitOrder → Nat → Nat
  | .msbFirst, j => 7 - j
  | .lsbFirst, j => j

/-- `mode8`: 0 to 3 are the clock modes, 4 to 255 are out of range (R82(a), R107). -/
def readMode8 (arg : Byte) : Option (BitVec 2) :=
  if arg.toNat > 3 then none else some (arg.extractLsb' 0 2)

/-- `order8`: 0 MostSignificantFirst, 1 LeastSignificantFirst, 2 to 255 out of range (R82(b), R107). -/
def readOrder8 (arg : Byte) : Option BitOrder :=
  if arg.toNat > 1 then none else some (if arg.getLsbD 0 then .lsbFirst else .msbFirst)

/-- `BUFMAX`, at least 263 (R9, R60, D32). -/
def bufMax (c : Config) : Nat := 263 + c.bufMaxExtra

/-- `widx(I, J)`: the cell whose position selects the MOSI bit of a TRANSFER (R145, R146). -/
def writeIndex (w : WriteIndex) (i j : Nat) : Nat :=
  match w with
  | .bit => j
  | .byte => i

/-- What a data operation reads once, before its first event, and uses for all its cells (R66). -/
structure Setup where
  idle : Level
  onLead : Bool
  order : BitOrder
  deriving DecidableEq, Repr

/-- The configuration as a data operation reads it (R66). -/
def State.setup (s : State) : Setup where
  idle := idleLevel s.mode
  onLead := sampleOnLeadingEdge s.mode
  order := s.order

/-- The operand registers as the host writes them when it issues a command (R29): `ARG` from the command word, the
others with it. The command leaves the host's script. -/
def State.present (c : Command) (rest : List Command) (s : State) : State :=
  { s with arg := argOf c.cw, opr := c.opr, script := rest }

end Sys2Proof.Machine
end

