-- ==== Sys2Proof/Machine/Ops.lean ====
section
/-! DEFINITION. The pseudocode primitives over the state (00_scope.md R13), how an operation runs and ends (R15,
60_exceptions.md R236), the refusals that guard an operation (R222), the bit cells and the loops over them
(41_transport_data.md R140 to R145), and the operations of unit T as other operations call them in place
(43_pn532_commands.md, head note). -/

namespace Sys2Proof.Machine

/-! ### The environment's draws -/

/-- The level the peripheral answers at draw `n` (20_memory.md R58; log 2). -/
def World.misoAt (w : World) (n : Nat) : Level := (w.miso[n]?).getD (Config.freeMiso n)

/-- The time primitive number `n` takes beyond its lower bound (R14; log 3). -/
def World.lagAt (w : World) (n : Nat) : Nat := (w.lag[n]?).getD (Config.freeLag n)

/-- `d` milliseconds pass, and a free amount more (R14). -/
def State.elapse (d : Nat) (s : State) : State :=
  { s with world := { s.world with now := s.world.now + (d + s.world.lagAt s.world.lagIx), lagIx := s.world.lagIx + 1 } }

/-- One draw of MISO has been taken (R58). -/
def State.countDraw (s : State) : State := { s with world := { s.world with misoIx := s.world.misoIx + 1 } }

/-! ### Primitives (R13) -/

/-- An event joins the wire trace (R16). -/
def State.emit (e : Event) (s : State) : State := { s with trace := s.trace ++ [e] }

/-- The output latch of a pin takes a level (10_state.md R25); MISO is an input and has no latch (R26). -/
def State.setLatch (p : Pin) (v : Level) (s : State) : State :=
  match p with
  | .sck => { s with sckQ := v }
  | .mosi => { s with mosiQ := v }
  | .csn => { s with csnQ := v }
  | .miso => s

/-- `PinCfgOut(p, v)` (R13). -/
def State.pinCfgOut (p : Pin) (v : Level) (s : State) : State := ((s.setLatch p v).emit (.cfgOut p v)).elapse 0

/-- `PinCfgIn(p)` (R13). -/
def State.pinCfgIn (p : Pin) (s : State) : State := (s.emit (.cfgIn p)).elapse 0

/-- `PinOut(p, v)` (R13). -/
def State.pinOut (p : Pin) (v : Level) (s : State) : State := ((s.setLatch p v).emit (.out p v)).elapse 0

/-- `PinIn(MISO)`: a level drawn from the peripheral (R13, R58). -/
def State.pinIn (s : State) : Level × State :=
  let v := s.world.misoAt s.world.misoIx
  (v, (s.countDraw.emit (.sampled v)).elapse 0)

/-- `Delay(d)`: at least `d` milliseconds (R13, R14). -/
def State.delay (d : Nat) (s : State) : State := (s.emit (.wait d)).elapse d

/-- `Now()` (R13, R14). -/
def State.readClock (s : State) : Nat × State :=
  let t := s.elapse 0
  (t.world.now, t)

/-- `x[FSM] <- f`; a change is logged (R193). -/
def State.setFsm (f : Fsm) (s : State) : State :=
  if s.fsm = f then s else { s with fsm := f, fsmLog := s.fsmLog ++ [f] }

/-- The working buffer takes a byte sequence (10_state.md R31). -/
def State.hold (bs : List Byte) (s : State) : State := { s with wbuf := bs }

/-- Bit `k` of byte `i` of the working buffer becomes 1 (R31, R143). -/
def State.setBufBit (i k : Nat) (s : State) : State :=
  { s with wbuf := s.wbuf.modify i (fun b => b ||| BitVec.twoPow 8 k) }

/-- The sequencer position (10_state.md R28). -/
def State.atPhase (i j : Nat) (ph : Phase) (s : State) : State := { s with pos := some ⟨i, j, ph⟩ }

/-- The data phase is over: there is no position (R28, R36). -/
def State.leaveCells (s : State) : State := { s with pos := none }

/-! ### How an operation runs and ends -/

/-- What a piece of an operation comes to: a value, a `raise`, or a `refuse` (R13). -/
inductive Res (α : Type) where
  | ok (v : α) (s : State)
  | raised (e : Error) (s : State)
  | refused (r : Refusal)

/-- The statement after: a `raise` or a `refuse` ends the caller too (60_exceptions.md R236, 43_pn532_commands.md
R200). -/
def Res.bind {α β : Type} (m : Res α) (k : α → State → Res β) : Res β :=
  match m with
  | .ok v s => k v s
  | .raised e s => .raised e s
  | .refused r => .refused r

/-- What a caller does to the state on the way of a `raise` (43_pn532_commands.md R190: `x[FSM] <- ProtocolError`). -/
def Res.onRaise {α : Type} (f : State → State) (m : Res α) : Res α :=
  match m with
  | .ok v s => .ok v s
  | .raised e s => .raised e (f s)
  | .refused r => .refused r

/-- The end of an operation, by `return` or by `raise`: the result registers are written, the transient registers are
empty again, `FSM` is `Idle` (10_state.md R30, R31, R33; R193). It takes a free amount of time (00_scope.md R14): its
own, and that of every register write since the last primitive that touched a pin, waited or read the clock (log 3). -/
def State.endOp (r : Results) (s : State) : State :=
  ({ s.setFsm .idle with res := r, wbuf := [], pos := none } : State).elapse 0

/-- TAKING AN ERROR: `raise E(info)` reaches the host. `OUTCOME <- Fatal`, `ERR <- code(E)`, `RXBUF <- empty`,
`FLAG <- 0`, `FSM <- Idle`; nothing is saved, no mode changes, no pin is touched (60_exceptions.md R236, R237). There
is no return from it: the block accepts the next command word (R240). -/
def State.takeError (e : Error) (s : State) : State := s.endOp (.ofError e)

/-- The outcome of an operation as a step of the machine (R15). -/
def Res.conclude {α : Type} (m : Res α) (results : α → Results) : Host.Outcome State Fault Refusal :=
  match m with
  | .ok v s => .next (s.endOp (results v))
  | .raised e s => .next (s.takeError e)
  | .refused r => .refused r

/-! ### Refusals (R222) -/

/-- `refuse NotStarted` while `STARTED = 0` (40_transport_control.md R127). -/
def needStarted {α : Type} (s : State) (k : Res α) : Res α := if s.started then k else .refused .notStarted

/-- `refuse NotConfigured` while `ORDER_V = 0` (R127), or while `MODE_V = 0` (10_state.md R36: any operation that
reads `MODE`; log 8). -/
def needConfigured {α : Type} (s : State) (k : Res α) : Res α :=
  if s.orderV && s.modeV then k else .refused .notConfigured

/-- `refuse TooLong` above `BUFMAX` (20_memory.md R60). -/
def needFits {α : Type} (n : Nat) (s : State) (k : Res α) : Res α :=
  if n ≤ bufMax s.cfg then k else .refused .tooLong

/-- `refuse ConfigDuringTransaction` while `STARTED = 1` and `CSN_Q = low` (R126). -/
def needNoTransaction {α : Type} (s : State) (k : Res α) : Res α :=
  if s.started && s.csnQ == .low then .refused .configDuringTransaction else k

/-- A TRANSFER of more than 8 bytes is refused under `XFER_WRITE_INDEX = byte` (41_transport_data.md R146; log 12). -/
def needWriteIndex {α : Type} (n : Nat) (s : State) (k : Res α) : Res α :=
  if s.cfg.xferWriteIndex = .byte ∧ n > 8 then .refused .writeIndexBeyondByte else k

/-! ### Bit cells (R140) -/

/-- `PinOut(MOSI, level(b))`, the MOSI update of a cell (R140, R62). -/
def driveBit (i j : Nat) (b : Bool) (s : State) : State := (s.pinOut .mosi (levelOf b)).atPhase i j .drive

/-- `PinOut(SCK, active)`, the leading edge (R140). -/
def leadEdge (u : Setup) (i j : Nat) (s : State) : State := (s.pinOut .sck u.idle.inv).atPhase i j .lead

/-- `PinOut(SCK, idle)`, the trailing edge (R140). -/
def trailEdge (u : Setup) (i j : Nat) (s : State) : State := (s.pinOut .sck u.idle).atPhase i j .trail

/-- The two edges of a cell with its one sample, after the leading edge or after the trailing edge (R140, R62). -/
def sampledPulse (u : Setup) (i j : Nat) (s : State) : Level × State :=
  if u.onLead then
    let r := (leadEdge u i j s).pinIn
    (r.1, trailEdge u i j r.2)
  else (trailEdge u i j (leadEdge u i j s)).pinIn

/-- `WriteCell(b)` (R140). -/
def writeCell (u : Setup) (i j : Nat) (b : Bool) (s : State) : State :=
  trailEdge u i j (leadEdge u i j (driveBit i j b s))

/-- `ReadCell()` (R140). -/
def readCell (u : Setup) (i j : Nat) (s : State) : Level × State := sampledPulse u i j s

/-- `XferCell(b)` (R140). -/
def xferCell (u : Setup) (i j : Nat) (b : Bool) (s : State) : Level × State := sampledPulse u i j (driveBit i j b s)

/-- `if v = 1: R[I][pos(ORDER, J)] <- 1` (R142, R145). -/
def storeSample (u : Setup) (i j : Nat) (r : Level × State) : State :=
  if bitOf r.1 then r.2.setBufBit i (bitPos u.order j) else r.2

/-! ### Loops over cells and bytes (R141, R142, R145) -/

/-- `for J in 0 .. 7` (R57). -/
def forCells (f : Nat → State → State) (s : State) : State := (List.range 8).foldl (fun t j => f j t) s

/-- The 8 cells of byte `i` of a WRITE (R141). -/
def writeByte (u : Setup) (i : Nat) (b : Byte) (s : State) : State :=
  forCells (fun j t => writeCell u i j (b.getLsbD (bitPos u.order j)) t) s

/-- The 8 cells of byte `i` of a READ (R142). -/
def readByte (u : Setup) (i : Nat) (s : State) : State :=
  forCells (fun j t => storeSample u i j (readCell u i j t)) s

/-- The 8 cells of byte `i` of a TRANSFER (R145, R146). -/
def xferByte (u : Setup) (w : WriteIndex) (i : Nat) (b : Byte) (s : State) : State :=
  forCells (fun j t => storeSample u i j (xferCell u i j (b.getLsbD (bitPos u.order (writeIndex w i j))) t)) s

/-- `for I in i ..` of a WRITE (R141, R55). -/
def writeFrom (u : Setup) (i : Nat) (bs : List Byte) (s : State) : State :=
  match bs with
  | [] => s
  | b :: rest => writeFrom u (i + 1) rest (writeByte u i b s)

/-- `for I in i ..` of a READ of `n` more bytes (R142, R55). -/
def readFrom (u : Setup) (i n : Nat) (s : State) : State :=
  match n with
  | 0 => s
  | n + 1 => readFrom u (i + 1) n (readByte u i s)

/-- `for I in i ..` of a TRANSFER (R145, R55). -/
def xferFrom (u : Setup) (w : WriteIndex) (i : Nat) (bs : List Byte) (s : State) : State :=
  match bs with
  | [] => s
  | b :: rest => xferFrom u w (i + 1) rest (xferByte u w i b s)

/-- The chip-select event of a flag (R147, 20_memory.md R63). -/
def chipSelectIf (flag : Bool) (v : Level) (s : State) : State := if flag then s.pinOut .csn v else s

/-- The events of a WRITE, its refusals passed (R141). -/
def writeEvents (bs : List Byte) (selectBefore deselectAfter : Bool) (s : State) : State :=
  chipSelectIf deselectAfter .high (writeFrom s.setup 0 bs (chipSelectIf selectBefore .low s)).leaveCells

/-- The events of a READ up to its last cell, its refusals passed (R142). -/
def readEvents (n : Nat) (selectBefore : Bool) (s : State) : State :=
  (readFrom s.setup 0 n ((chipSelectIf selectBefore .low s).hold (List.replicate n 0x00))).leaveCells

/-- The events of a TRANSFER up to its last cell, its refusals passed (R145). -/
def xferEvents (bs : List Byte) (selectBefore : Bool) (s : State) : State :=
  (xferFrom s.setup s.cfg.xferWriteIndex 0 bs
    ((chipSelectIf selectBefore .low s).hold (List.replicate bs.length 0x00))).leaveCells

/-! ### The operations of unit T, executed in place -/

/-- `configure(mode8)` (40_transport_control.md R120). -/
def configureOp (mode8 : Byte) (s : State) : Res Unit :=
  needNoTransaction s <|
    match readMode8 mode8 with
    | none => .raised (.invalidMode mode8) s
    | some m => .ok () { s with mode := m, modeV := true }

/-- `configure_bit_order(order8)` (R121). -/
def configureBitOrderOp (order8 : Byte) (s : State) : Res Unit :=
  needNoTransaction s <|
    match readOrder8 order8 with
    | none => .raised (.invalidOrder order8) s
    | some o => .ok () { s with order := o, orderV := true }

/-- The four pins are provisioned, in the order of R122. -/
def provisionPins (s : State) : State :=
  (((s.pinCfgOut .sck (idleLevel s.mode)).pinCfgOut .mosi s.cfg.mosiInit).pinCfgIn .miso).pinCfgOut .csn .high

/-- `start()` (R122). -/
def startOp (s : State) : Res Unit :=
  if s.modeV then .ok () { provisionPins s with started := true } else .refused .notConfigured

/-- `select()` (R123). The redundant set-level call is made (R125; log 9). -/
def selectOp (s : State) : Res Unit := needStarted s <| .ok () (s.pinOut .csn .low)

/-- `deselect()` (R124, R125). -/
def deselectOp (s : State) : Res Unit := needStarted s <| .ok () (s.pinOut .csn .high)

/-- `Delay(d)` as a statement of an operation (R13). -/
def delayOp (d : Nat) (s : State) : Res Unit := .ok () (s.delay d)

/-- `write(bytes, select_before, deselect_after)` (41_transport_data.md R141). -/
def writeOp (bs : List Byte) (selectBefore deselectAfter : Bool) (s : State) : Res Unit :=
  needStarted s <| needConfigured s <| needFits bs.length s <| .ok () (writeEvents bs selectBefore deselectAfter s)

/-- `read(length, select_before, deselect_after)` (R142). -/
def readOp (n : Nat) (selectBefore deselectAfter : Bool) (s : State) : Res (List Byte) :=
  needStarted s <| needConfigured s <| needFits n s <|
    let t := readEvents n selectBefore s
    .ok t.wbuf (chipSelectIf deselectAfter .high t)

/-- `transfer(bytes, select_before, deselect_after)` (R145, R146). -/
def transferOp (bs : List Byte) (selectBefore deselectAfter : Bool) (s : State) : Res (List Byte) :=
  needStarted s <| needConfigured s <| needFits bs.length s <| needWriteIndex bs.length s <|
    let t := xferEvents bs selectBefore s
    .ok t.wbuf (chipSelectIf deselectAfter .high t)

end Sys2Proof.Machine
end

