-- ==== Sys2Proof/Machine/Framer.lean ====
section
/-! DEFINITION. Unit P's primitives: the frame builder, the frame parser, the two SPI transactions, the ACK detector
and the ready wait (42_framer_primitives.md), as other operations call them in place and as operations of their own. -/

namespace Sys2Proof.Machine

/-! ### Frames -/

/-- The outbound frame of a payload (30_encoding.md R89, R160). -/
def frameOf (c : Config) (p : List Byte) : List Byte :=
  let len : Byte := BitVec.ofNat 8 p.length
  [c.dw, preamble] ++ startCode ++ [len, lengthChecksum len] ++ p ++ [payloadChecksum p, postamble]

/-- Parser steps 3 to 5, on the bytes after the start code: the length and its checksum, the payload and its
checksum, the payload (R162). Bytes after the checksum byte are not looked at (R164). -/
def parseBody : List Byte → Except Error (List Byte)
  | len :: lcs :: body =>
    if len + lcs ≠ 0 then .error .lengthChecksumMismatch
    else if body.length < len.toNat + 1 then .error .truncatedFrame
    else if byteSum (body.take (len.toNat + 1)) ≠ 0 then .error .payloadChecksumMismatch
    else .ok (body.take len.toNat)
  | _ => .error .truncatedFrame

/-- Parser step 2, on the bytes after the echo: the run of zeros, then the start code (R162). -/
def parsePreamble : List Byte → Except Error (List Byte)
  | [] => .error .truncatedPreamble
  | b :: rest =>
    if b = 0x00 then parsePreamble rest
    else if b = startCode2 then parseBody rest
    else .error .missingStartCode

/-- `parse_response_frame(raw, expected_max_length)`; the second operand has no role in any step (R162, R164). -/
def parseFrame (c : Config) (raw : List Byte) (_expectedMaxLength : Nat) : Except Error (List Byte) :=
  match raw with
  | [] => .error .frameStartBad
  | echo :: rest => if echo = c.rdEcho then parsePreamble rest else .error .frameStartBad

/-- `build_frame(payload)` (R160, R161). -/
def buildFrameOp (p : List Byte) (s : State) : Res (List Byte) :=
  needFits p.length s <|
    if p.length < 1 ∨ p.length > 255 then .raised (.payloadTooLong p.length) s else .ok (frameOf s.cfg p) s

/-- `parse_response_frame` (R162). -/
def parseResponseFrameOp (raw : List Byte) (xmax : Nat) (s : State) : Res (List Byte) :=
  needFits raw.length s <|
    match parseFrame s.cfg raw xmax with
    | .ok p => .ok p s
    | .error e => .raised e s

/-! ### The two SPI transactions -/

/-- The one shape of unit P's reads: select, `Delay(T_WAKE)`, transfer, deselect (R166, R167, D15, D16). -/
def wireExchange (bs : List Byte) (s : State) : Res (List Byte) :=
  (selectOp s).bind fun _ s =>
    (delayOp tWake s).bind fun _ s =>
      (transferOp bs false false s).bind fun r s =>
        (deselectOp s).bind fun _ s => .ok r s

/-- `status_read()` (R166). -/
def statusReadOp (s : State) : Res (List Byte) := wireExchange [s.cfg.sr, 0x00] s

/-- `data_read(n)` (R167). -/
def dataReadOp (n : Nat) (s : State) : Res (List Byte) :=
  if n < 1 then .refused .invalidLength else wireExchange (s.cfg.dr :: List.replicate (n - 1) 0x00) s

/-- `read_ack()`: all seven bytes are read, then compared (R168, R169). -/
def readAckOp (s : State) : Res Unit :=
  (dataReadOp ackBytes.length s).bind fun r s => if r = ackBytes then .ok () s else .raised .ackMismatch s

/-! ### The ready wait -/

/-- The loop of `wait_ready`: poll, test the second byte, test the clock, wait (R170). `fuel` bounds the polls; R172
shows that `floor(timeout / 10) + 2` of them are never used up without the clock test ending the loop (log 13). -/
def waitLoop (t0 timeout fuel : Nat) (s : State) : Res Bool :=
  match fuel with
  | 0 => .ok false s
  | fuel + 1 =>
    (statusReadOp s).bind fun r s =>
      if r.getD 1 0x00 = s.cfg.ready then .ok true s
      else
        let now := s.readClock
        if now.1 - t0 > timeout then .ok false now.2
        else waitLoop t0 timeout fuel (now.2.delay tPoll)

/-- The most status reads a WAIT_READY can do (R172). -/
def maxPolls (timeout : Nat) : Nat := timeout / 10 + 2

/-- `wait_ready(timeout)` (R170). -/
def waitReadyOp (timeout : Nat) (s : State) : Res Bool :=
  needStarted s <| needConfigured s <|
    let start := s.readClock
    waitLoop start.1 timeout (maxPolls timeout) start.2

/-! ### The meanings -/

/-- BUILD_FRAME of `TXBUF` (R160). -/
def execBuildFrame (s : State) : Host.Outcome State Fault Refusal := (buildFrameOp s.opr.txbuf s).conclude .ofBytes

/-- PARSE_RESPONSE_FRAME of `TXBUF` (R162). -/
def execParseResponseFrame (s : State) : Host.Outcome State Fault Refusal :=
  (parseResponseFrameOp s.opr.txbuf s.opr.xmax s).conclude .ofBytes

/-- STATUS_READ (R166). -/
def execStatusRead (s : State) : Host.Outcome State Fault Refusal := (statusReadOp s).conclude .ofBytes

/-- WAIT_READY with `TMO` (R170). -/
def execWaitReady (s : State) : Host.Outcome State Fault Refusal := (waitReadyOp s.opr.tmo s).conclude .ofFlag

/-- DATA_READ of `LEN` bytes (R167). -/
def execDataRead (s : State) : Host.Outcome State Fault Refusal := (dataReadOp s.opr.len s).conclude .ofBytes

/-- READ_ACK (R168). -/
def execReadAck (s : State) : Host.Outcome State Fault Refusal := (readAckOp s).conclude fun _ => .ofUnit

end Sys2Proof.Machine
end

