-- ==== Sys2Proof/Machine/Command.lean ====
section
/-! DEFINITION. The command sequencer SEND_COMMAND and the composites built on it: INITIALIZE, GET_FIRMWARE_VERSION,
USE_SAM_CONFIGURATION, READ_PASSIVE_TARGET (43_pn532_commands.md). -/

namespace Sys2Proof.Machine

/-- `[H2D, opcode] ++ parameters` (30_encoding.md R100). -/
def commandPayload (c : Config) (opcode : Byte) (params : List Byte) : List Byte := [c.h2d, opcode] ++ params

/-- The raw bytes clocked in for a response (R108). -/
def rawLength (c : Config) (cap : Nat) : Nat := cap + headerLen + c.frameOverhead

/-- Steps 7 and 8: the two header bytes are checked and the bytes after them returned (R190, R192, R101, R102). -/
def responseData (c : Config) (opcode : Byte) (p : List Byte) : Except Error (List Byte) :=
  match p with
  | marker :: answered :: data =>
    if marker = c.d2h ∧ answered = opcode + 1 then .ok data else .error .wrongCommandResponse
  | _ => .error .wrongCommandResponse

/-- `FSM` passes through `f` and is `Idle` again when the outcome is returned (R193). -/
def State.settleFsm (f : Fsm) (s : State) : State := (s.setFsm f).setFsm .idle

/-- A `raise` inside SEND_COMMAND passes through `ProtocolError` (R190, R193, R236). -/
def Res.protocolChecked {α : Type} (m : Res α) : Res α := m.onRaise (State.settleFsm .protocolError)

/-- Step 2: select, `Delay(T_WAKE)`, write the whole frame, deselect (R190, R191(b)). The frame stands in the working
buffer meanwhile (10_state.md R31). -/
def sendFrame (f : List Byte) (s : State) : Res Unit :=
  (selectOp (s.hold f)).bind fun _ s =>
    (delayOp tWake s).bind fun _ s =>
      (writeOp f false false s).bind fun _ s => deselectOp s

/-- Steps 6 to 8 (R190). -/
def receiveResponse (opcode : Byte) (cap : Nat) (s : State) : Res (Option (List Byte)) :=
  (dataReadOp (rawLength s.cfg cap) s).bind fun raw s =>
    (parseResponseFrameOp raw (cap + headerLen) s).protocolChecked.bind fun p s =>
      let s := s.setFsm .responseParsed
      match responseData s.cfg opcode p with
      | .ok data => .ok (some data) (s.settleFsm .success)
      | .error e => (Res.raised e s).protocolChecked

/-- Steps 5 to 8 (R190): the second wait, then the response. -/
def awaitResponse (opcode : Byte) (cap timeout : Nat) (s : State) : Res (Option (List Byte)) :=
  (waitReadyOp timeout (s.setFsm .awaitingResponse)).bind fun ready s =>
    if ready then receiveResponse opcode cap s else .ok none (s.settleFsm .noResponse)

/-- Steps 3 to 8 (R190): the first wait, the ACK, then the rest. -/
def awaitAck (opcode : Byte) (cap timeout : Nat) (s : State) : Res (Option (List Byte)) :=
  (waitReadyOp timeout (s.setFsm .awaitingAck)).bind fun ready s =>
    if ready then
      (readAckOp s).protocolChecked.bind fun _ s => awaitResponse opcode cap timeout (s.setFsm .ackVerified)
    else .ok none (s.settleFsm .noResponse)

/-- `send_command(opcode, parameters, response_capacity, timeout)`; `none` is `NoResponse` (R190). The refusals of
the pins and the configuration come first (R127, R222; log 7). -/
def sendCommandOp (opcode : Byte) (params : List Byte) (cap timeout : Nat) (s : State) : Res (Option (List Byte)) :=
  needStarted s <| needConfigured s <|
    (buildFrameOp (commandPayload s.cfg opcode params) s).protocolChecked.bind fun f s =>
      (sendFrame f s).bind fun _ s => awaitAck opcode cap timeout (s.setFsm .frameSent)

/-- `get_firmware_version()` (R195): no response, or an empty one, is `DeviceNotDetected`. -/
def getFirmwareVersionOp (s : State) : Res (List Byte) :=
  (sendCommandOp s.cfg.opcGfv [] gfvCap s.cfg.tCmdDefault s).bind fun r s =>
    match r with
    | none => .raised .deviceNotDetected s
    | some data => if data.length = 0 then .raised .deviceNotDetected s else .ok data s

/-- `use_sam_configuration()` (R196): `Ok(())` whether the response is data or absent (D30). -/
def useSamConfigurationOp (s : State) : Res Unit :=
  (sendCommandOp s.cfg.opcSam s.cfg.samParams s.cfg.samCap s.cfg.tCmdDefault s).bind fun _ s => .ok () s

/-- The UID of a passive-target response, or the first check that fails (R197, R106, R231). -/
def targetUid (d : List Byte) : Except Error (List Byte) :=
  if d.length < 1 then .error .malformedTargetResponse
  else if d.getD 0 0x00 ≠ 1 then .error .moreThanOneCard
  else if d.length < 6 then .error .malformedTargetResponse
  else
    let n := (d.getD 5 0x00).toNat
    if n > uidMax then .error .uidTooLong
    else if d.length < 6 + n then .error .malformedTargetResponse
    else .ok ((d.drop 6).take n)

/-- `read_passive_target(card_baud, timeout)` (R197): no response is the value `None`. -/
def readPassiveTargetOp (baud : Byte) (timeout : Nat) (s : State) : Res (Option (List Byte)) :=
  (sendCommandOp s.cfg.opcIlpt [s.cfg.ilptMaxTg, baud] ilptCap timeout s).bind fun r s =>
    match r with
    | none => .ok none s
    | some d =>
      match targetUid d with
      | .ok uid => .ok (some uid) s
      | .error e => .raised e s

/-- `initialize()` (R194). -/
def bringUpOp (s : State) : Res Unit :=
  needStarted s <|
    (configureOp protocolMode s).bind fun _ s =>
      (configureBitOrderOp protocolOrder s).bind fun _ s =>
        (selectOp s).bind fun _ s =>
          (delayOp tInitSettle s).bind fun _ s =>
            (getFirmwareVersionOp s).bind fun _ s => deselectOp s

/-! ### The meanings -/

/-- SEND_COMMAND: the parameters in `TXBUF`, the capacity in `CAP`, the timeout in `TMO` (R190). -/
def execSendCommand (opcode8 : Byte) (s : State) : Host.Outcome State Fault Refusal :=
  (sendCommandOp opcode8 s.opr.txbuf s.opr.cap s.opr.tmo s).conclude .ofResponse

/-- INITIALIZE (R194). -/
def execInitialize (s : State) : Host.Outcome State Fault Refusal := (bringUpOp s).conclude fun _ => .ofUnit

/-- GET_FIRMWARE_VERSION (R195). -/
def execGetFirmwareVersion (s : State) : Host.Outcome State Fault Refusal :=
  (getFirmwareVersionOp s).conclude .ofBytes

/-- USE_SAM_CONFIGURATION (R196). -/
def execUseSamConfiguration (s : State) : Host.Outcome State Fault Refusal :=
  (useSamConfigurationOp s).conclude fun _ => .ofUnit

/-- READ_PASSIVE_TARGET: the timeout in `TMO` (R197). -/
def execReadPassiveTarget (baud8 : Byte) (s : State) : Host.Outcome State Fault Refusal :=
  (readPassiveTargetOp baud8 s.opr.tmo s).conclude .ofTarget

end Sys2Proof.Machine
end

