-- ==== Sys2Proof/Machine/Data.lean ====
section
/-! DEFINITION. The meanings of unit T's data operations: WRITE, READ, TRANSFER (41_transport_data.md). -/

namespace Sys2Proof.Machine

/-- WRITE of `TXBUF` (R141). -/
def execWrite (selectBefore deselectAfter : Bool) (s : State) : Host.Outcome State Fault Refusal :=
  (writeOp s.opr.txbuf selectBefore deselectAfter s).conclude fun _ => .ofUnit

/-- READ of `LEN` bytes (R142). -/
def execRead (selectBefore deselectAfter : Bool) (s : State) : Host.Outcome State Fault Refusal :=
  (readOp s.opr.len selectBefore deselectAfter s).conclude .ofBytes

/-- TRANSFER of `TXBUF` (R145). -/
def execTransfer (selectBefore deselectAfter : Bool) (s : State) : Host.Outcome State Fault Refusal :=
  (transferOp s.opr.txbuf selectBefore deselectAfter s).conclude .ofBytes

end Sys2Proof.Machine
end

