-- ==== Sys2Proof/Machine/Transport.lean ====
section
/-! DEFINITION. The meanings of unit T's operations that move no data: CONFIGURE, CONFIGURE_BIT_ORDER, START, SELECT,
DESELECT (40_transport_control.md). -/

namespace Sys2Proof.Machine

/-- CONFIGURE (R120). -/
def execConfigure (mode8 : Byte) (s : State) : Host.Outcome State Fault Refusal :=
  (configureOp mode8 s).conclude fun _ => .ofUnit

/-- CONFIGURE_BIT_ORDER (R121). -/
def execConfigureBitOrder (order8 : Byte) (s : State) : Host.Outcome State Fault Refusal :=
  (configureBitOrderOp order8 s).conclude fun _ => .ofUnit

/-- START (R122). -/
def execStart (s : State) : Host.Outcome State Fault Refusal := (startOp s).conclude fun _ => .ofUnit

/-- SELECT (R123). -/
def execSelect (s : State) : Host.Outcome State Fault Refusal := (selectOp s).conclude fun _ => .ofUnit

/-- DESELECT (R124). -/
def execDeselect (s : State) : Host.Outcome State Fault Refusal := (deselectOp s).conclude fun _ => .ofUnit

end Sys2Proof.Machine
end

