-- ==== Sys2Proof/Machine/Dispatch.lean ====
section
/-! DEFINITION. One arm per operation of 30_encoding.md R84. -/

namespace Sys2Proof.Machine

/-- The operation `i`, run to its outcome from state `s` (20_memory.md R59). -/
def exec (i : Instr) (s : State) : Host.Outcome State Fault Refusal :=
  match i with
  | .configure mode8 => Sys2Proof.Machine.execConfigure mode8 s
  | .configureBitOrder order8 => Sys2Proof.Machine.execConfigureBitOrder order8 s
  | .start => Sys2Proof.Machine.execStart s
  | .select => Sys2Proof.Machine.execSelect s
  | .deselect => Sys2Proof.Machine.execDeselect s
  | .write selectBefore deselectAfter => Sys2Proof.Machine.execWrite selectBefore deselectAfter s
  | .read selectBefore deselectAfter => Sys2Proof.Machine.execRead selectBefore deselectAfter s
  | .transfer selectBefore deselectAfter => Sys2Proof.Machine.execTransfer selectBefore deselectAfter s
  | .buildFrame => Sys2Proof.Machine.execBuildFrame s
  | .parseResponseFrame => Sys2Proof.Machine.execParseResponseFrame s
  | .statusRead => Sys2Proof.Machine.execStatusRead s
  | .waitReady => Sys2Proof.Machine.execWaitReady s
  | .dataRead => Sys2Proof.Machine.execDataRead s
  | .readAck => Sys2Proof.Machine.execReadAck s
  | .sendCommand opcode8 => Sys2Proof.Machine.execSendCommand opcode8 s
  | .initializeOp => Sys2Proof.Machine.execInitialize s
  | .getFirmwareVersion => Sys2Proof.Machine.execGetFirmwareVersion s
  | .useSamConfiguration => Sys2Proof.Machine.execUseSamConfiguration s
  | .readPassiveTarget baud8 => Sys2Proof.Machine.execReadPassiveTarget baud8 s

end Sys2Proof.Machine
end

