-- ==== Sys2Proof/Machine/Step.lean ====
section
/-! DEFINITION. One step: the host presents its next command word, and the operation runs to its outcome
(30_encoding.md R80, 20_memory.md R59, R65). With no command to come the block is idle and holds its latches
(60_exceptions.md R249, 70_reset_and_hazards.md R261). -/

namespace Sys2Proof.Machine

/-- The step: the next command of the host's script, its word decoded, its operands presented, its operation run; a
reserved word is refused `InvalidCommand` (R85, R222). -/
def step (s : State) : Host.Outcome State Fault Refusal :=
  match s.script with
  | [] => .next s
  | c :: rest =>
    match decode c.cw with
    | .error why => .refused (.invalidCommand why)
    | .ok i => exec i (s.present c rest)

/-- `s` with one more command before the host's script: the word `w`, presented with the operand registers as they
stand. This stands for the host issuing the command: no program is loaded into the block (log 1). A command word is
16 bits, so `nbits` needs no padding. -/
def State.withFetchWord (s : State) (_nbits w : Nat) : State :=
  { s with script := { cw := BitVec.ofNat 16 w, opr := s.opr } :: s.script }

end Sys2Proof.Machine
end

