-- ==== Sys2Proof/Machine/Observe.lean ====
section
/-! DEFINITION. What of a wire trace is observed (00_scope.md R16): two traces that differ only by `Out` events which
leave the latch of their pin unchanged are the same observation. -/

namespace Sys2Proof.Machine

/-- The levels the three output latches hold (10_state.md R25), none where nothing has set the latch yet. -/
structure Latches where
  sck : Option Level
  mosi : Option Level
  csn : Option Level
  deriving DecidableEq, Repr

/-- Before START no latch has a value (10_state.md R36). -/
def Latches.unset : Latches := { sck := none, mosi := none, csn := none }

/-- What the latch of a pin holds; MISO has none (R26). -/
def Latches.level (l : Latches) : Pin → Option Level
  | .sck => l.sck
  | .mosi => l.mosi
  | .csn => l.csn
  | .miso => none

/-- The latch of a pin takes a level. -/
def Latches.put (l : Latches) (p : Pin) (v : Level) : Latches :=
  match p with
  | .sck => { l with sck := some v }
  | .mosi => { l with mosi := some v }
  | .csn => { l with csn := some v }
  | .miso => l

/-- The latches after an event: `CfgOut` and `Out` set the latch of their pin, no other event sets one (R13). -/
def Latches.see (l : Latches) : Event → Latches
  | .cfgOut p v => l.put p v
  | .out p v => l.put p v
  | .cfgIn _ => l
  | .sampled _ => l
  | .wait _ => l

/-- The latches after a list of events. -/
def Latches.seeAll (l : Latches) (es : List Event) : Latches := es.foldl Latches.see l

/-- An `Out` event that leaves the latch of its pin unchanged (R16). -/
def Event.redundant (l : Latches) : Event → Bool
  | .out p v => l.level p == some v
  | .cfgOut _ _ => false
  | .cfgIn _ => false
  | .sampled _ => false
  | .wait _ => false

/-- What is observed of a list of events that begins with the latches at `l`: all of it but the redundant `Out` events,
in order (R16). Two lists of events are the same observation when this is the same. -/
def observed (l : Latches) : List Event → List Event
  | [] => []
  | e :: es => if e.redundant l then observed l es else e :: observed (l.see e) es

/-- The output latches of the block (R25). -/
def State.latches (s : State) : Latches := { sck := some s.sckQ, mosi := some s.mosiQ, csn := some s.csnQ }

/-- The observable of an execution from `s` to `t`: what is observed of the events in between, and the outcome (R16). -/
def observation (s t : State) : List Event × Results :=
  (observed s.latches (t.trace.drop s.trace.length), t.res)

end Sys2Proof.Machine
end

