-- ==== Sys2Proof/Safety.lean ====
section
/-! DEFINITION. The terms claims are stated in: what a state must be for the wire operations to run, what a run keeps,
the events the spec gives a data operation, the bytes a sequence of draws makes, and the invariant of every step. The
event lists and the byte assembly are written from the rules' tables and formulas, not from the machine's loops. -/

namespace Sys2Proof.Machine

/-! ### When the wire operations run -/

/-- The block has been brought up: provisioned and configured (70_reset_and_hazards.md R262). -/
abbrev WireReady (s : State) : Prop := s.started = true ∧ s.modeV = true ∧ s.orderV = true

/-- A CONFIGURE is not inside a transaction (40_transport_control.md R126). -/
abbrev NoTransaction (s : State) : Prop := ¬ (s.started = true ∧ s.csnQ = .low)

/-- A TRANSFER of `n` bytes has a meaning under the write index (41_transport_data.md R146). -/
abbrev WriteIndexFits (s : State) (n : Nat) : Prop := s.cfg.xferWriteIndex = .bit ∨ n ≤ 8

/-- The machine is between operations (10_state.md R33). -/
abbrev BetweenOps (s : State) : Prop := s.fsm = .idle ∧ s.pos = none ∧ s.wbuf = []

/-! ### What an operation leaves unchanged -/

/-- `MODE`, `ORDER`, their valid bits and `STARTED` (R21, R23, R24). -/
abbrev SameConfiguration (s t : State) : Prop :=
  t.mode = s.mode ∧ t.modeV = s.modeV ∧ t.order = s.order ∧ t.orderV = s.orderV ∧ t.started = s.started

/-- The three output latches (R25). -/
abbrev SameLatches (s t : State) : Prop := t.sckQ = s.sckQ ∧ t.mosiQ = s.mosiQ ∧ t.csnQ = s.csnQ

/-- What the host and the implementer hold: operand registers, the host's script, the parameters, and the draws the
environment has fixed in advance (R29: "read-only for the block"). -/
abbrev SameInputs (s t : State) : Prop :=
  t.arg = s.arg ∧ t.opr = s.opr ∧ t.script = s.script ∧ t.cfg = s.cfg ∧
    t.world.miso = s.world.miso ∧ t.world.lag = s.world.lag

/-- Nothing was done on the pins and nothing was drawn; any amount of time may have passed (R14, R16). -/
abbrev SameWire (s t : State) : Prop :=
  t.trace = s.trace ∧ t.world.misoIx = s.world.misoIx ∧ s.world.now ≤ t.world.now

/-- `FSM` did not move (R193: only a SEND_COMMAND moves it). -/
abbrev SameLog (s t : State) : Prop := s.fsm = .idle → t.fsmLog = s.fsmLog

/-! ### How an operation ends (R15, R30, R236) -/

/-- `Ok` with the byte sequence `rx` in `RXBUF` and `flag` in `FLAG`. -/
abbrev EndsOk (t : State) (rx : List Byte) (flag : Bool) : Prop :=
  t.res = { outcome := .ok, err := 0x00, errInfo := none, rxbuf := rx, flag := flag } ∧ BetweenOps t

/-- `Fatal` with a code and the info the error carries (R220, R236). -/
abbrev EndsFatal (t : State) (code : Byte) (info : Option Nat) : Prop :=
  t.res = { outcome := .fatal, err := code, errInfo := info, rxbuf := [], flag := false } ∧ BetweenOps t

/-- The benign `NoResponse` (R15). -/
abbrev EndsNoResponse (t : State) : Prop :=
  t.res = { outcome := .noResponse, err := 0x00, errInfo := none, rxbuf := [], flag := false } ∧ BetweenOps t

/-- What every wire operation of unit P keeps, and how it leaves the pins: CS_N high, SCK at idle (R199). -/
abbrev UnitPKeeps (s t : State) : Prop :=
  SameConfiguration s t ∧ SameInputs s t ∧ t.csnQ = .high ∧ t.sckQ = idleLevel s.mode

/-! ### Kinds of operation -/

/-- The operations that touch a pin and need START to have run (R127). -/
def needsStart : Instr → Bool
  | .select | .deselect | .write _ _ | .read _ _ | .transfer _ _ => true
  | .statusRead | .waitReady | .dataRead | .readAck | .sendCommand _ => true
  | .initializeOp | .getFirmwareVersion | .useSamConfiguration | .readPassiveTarget _ => true
  | .configure _ | .configureBitOrder _ | .start | .buildFrame | .parseResponseFrame => false

/-- The operations that move data under the configuration they find (R127, R222). -/
def needsOrder : Instr → Bool
  | .write _ _ | .read _ _ | .transfer _ _ => true
  | .statusRead | .waitReady | .dataRead | .readAck | .sendCommand _ => true
  | .getFirmwareVersion | .useSamConfiguration | .readPassiveTarget _ => true
  | .select | .deselect | .initializeOp => false
  | .configure _ | .configureBitOrder _ | .start | .buildFrame | .parseResponseFrame => false

/-- The operations of unit P that touch the wire (R199). -/
def unitPWire : Instr → Bool
  | .statusRead | .waitReady | .dataRead | .readAck | .sendCommand _ => true
  | .initializeOp | .getFirmwareVersion | .useSamConfiguration | .readPassiveTarget _ => true
  | .select | .deselect | .write _ _ | .read _ _ | .transfer _ _ => false
  | .configure _ | .configureBitOrder _ | .start | .buildFrame | .parseResponseFrame => false

/-- The operations that configure (R21, R23). -/
def configures : Instr → Bool
  | .configure _ | .configureBitOrder _ | .initializeOp => true
  | .start | .select | .deselect | .write _ _ | .read _ _ | .transfer _ _ | .buildFrame | .parseResponseFrame => false
  | .statusRead | .waitReady | .dataRead | .readAck | .sendCommand _ => false
  | .getFirmwareVersion | .useSamConfiguration | .readPassiveTarget _ => false

/-- The trace of `t` is that of `s` with the events `es` after it (R61). -/
abbrev TraceAdds (s t : State) (es : List Event) : Prop := t.trace = s.trace ++ es

/-! ### The events of the data operations (R140 to R147) -/

/-- The bits of a byte in the order of its cells: `b[pos(ORDER,0)], ..., b[pos(ORDER,7)]` (20_memory.md R53). -/
def wireBits (o : BitOrder) (b : Byte) : List Bool := (List.range 8).map fun j => b.getLsbD (bitPos o j)

/-- The bits of a sequence, byte 0 first (R55). -/
def wireBitsOf (o : BitOrder) (bs : List Byte) : List Bool := bs.flatMap (wireBits o)

/-- The events of one WriteCell (R140). -/
def writeCellEvents (u : Setup) (b : Bool) : List Event :=
  [.out .mosi (levelOf b), .out .sck u.idle.inv, .out .sck u.idle]

/-- The events of one ReadCell whose sample is `v` (R140, R62). -/
def readCellEvents (u : Setup) (v : Level) : List Event :=
  if u.onLead then [.out .sck u.idle.inv, .sampled v, .out .sck u.idle]
  else [.out .sck u.idle.inv, .out .sck u.idle, .sampled v]

/-- The events of one XferCell that drives `b` and samples `v` (R140). -/
def xferCellEvents (u : Setup) (b : Bool) (v : Level) : List Event := .out .mosi (levelOf b) :: readCellEvents u v

/-- The chip-select event of a flag (R147). -/
def flagEvents (flag : Bool) (v : Level) : List Event := if flag then [.out .csn v] else []

/-- The level MOSI is left at: that of the last bit driven, or what it held when none was (R34(b), R141). -/
def lastDriven (bits : List Bool) (held : Level) : Level := (bits.getLast?.map levelOf).getD held

/-- The levels the peripheral answers at `n` draws from number `ix` on (R58). -/
def drawnLevels (w : World) (ix n : Nat) : List Level := (List.range n).map fun k => w.misoAt (ix + k)

/-- The bytes of one data phase as cells: one cell per bit, in order (R55, R57). -/
def xferEventsOf (u : Setup) (bits : List Bool) (levels : List Level) : List Event :=
  (bits.zip levels).flatMap fun c => xferCellEvents u c.1 c.2

/-- The bits a TRANSFER of `bs` drives, cell by cell, under the write index held: bit `pos(ORDER, J)` of each byte, or
by byte bit `pos(ORDER, I)` in every cell of byte `I` (R145, R146). -/
def transferBits (s : State) (bs : List Byte) : List Bool :=
  match s.cfg.xferWriteIndex with
  | .bit => wireBitsOf s.order bs
  | .byte => bs.zipIdx.flatMap fun c => List.replicate 8 (c.1.getLsbD (bitPos s.order c.2))

/-! ### The bytes that come in (R54) -/

/-- The byte 8 samples make: `sum over j of s_j * 2^pos(ORDER,j)` (R54). -/
def assembleByte (o : BitOrder) (sample : Nat → Level) : Byte :=
  BitVec.ofNat 8 ((List.range 8).map fun j => if bitOf (sample j) then 2 ^ bitPos o j else 0).sum

/-- The `n` bytes the draws from number `ix` on make, 8 draws a byte (R54, R55). -/
def drawnBytes (o : BitOrder) (w : World) (ix n : Nat) : List Byte :=
  (List.range n).map fun i => assembleByte o fun j => w.misoAt (ix + 8 * i + j)

/-- The bytes the next `n` bytes read from the wire will be, after `skip` bytes more have been read. -/
def nextBytes (s : State) (skip n : Nat) : List Byte := drawnBytes s.order s.world (s.world.misoIx + 8 * skip) n

/-- The second byte of the `k`-th status read, `k` from 0, of a wait whose first draw has number `ix`: a status read is
two bytes, 16 draws (R98, R170). -/
def pollAt (s : State) (ix k : Nat) : Byte := assembleByte s.order fun j => s.world.misoAt (ix + 16 * k + 8 + j)

/-- A ready wait that begins at draw `ix` can end `ready` after `k` polls: no poll but the last found READY, the last
one decides the result, and the number of polls is within the bound of R172 (R170, R172). -/
structure PollsTo (s : State) (timeout ix k : Nat) (ready : Bool) : Prop where
  atLeast : 1 ≤ k
  atMost : k ≤ timeout / 10 + 2
  earlier : ∀ i, i + 1 < k → pollAt s ix i ≠ s.cfg.ready
  last : ready = true ↔ pollAt s ix (k - 1) = s.cfg.ready

/-- The events of one unit P exchange of the bytes `bs`: select, the 2 ms wait, the cells, deselect (R166, R167). The
samples are the draws from number `ix` on. The select's `Out` is there even when CS_N is low already (R125; log 9). -/
def exchangeEvents (s : State) (bs : List Byte) (ix : Nat) : List Event :=
  [.out .csn .low, .wait 2] ++
    xferEventsOf s.setup (transferBits s bs) (drawnLevels s.world ix (8 * bs.length)) ++ [.out .csn .high]

/-- The events of a data read of `n` bytes: `[DR] ++ [0x00] * (n-1)` goes out (R99, R167). -/
def dataReadEvents (s : State) (n ix : Nat) : List Event := exchangeEvents s (s.cfg.dr :: List.replicate (n - 1) 0x00) ix

/-- The events of a ready wait of `k` polls: `k` exchanges of `[SR, 0x00]`, `Wait(10)` between two (R98, R170). -/
def waitEvents (s : State) (ix k : Nat) : List Event :=
  (List.range k).flatMap fun i =>
    (if i = 0 then [] else [.wait 10]) ++ exchangeEvents s [s.cfg.sr, 0x00] (ix + 16 * i)

/-- The least time a ready wait of `k` polls takes: 2 ms a poll and 10 ms between two; and more than the timeout when it
ends false (R170, R172). -/
def waitTime (timeout k : Nat) (ready : Bool) : Nat :=
  if ready then 12 * k - 10 else max (12 * k - 10) (timeout + 1)

/-- The events of the command write: select, the 2 ms wait, the frame's cells, deselect (R190 step 2). The select's
`Out` is there even when CS_N is low already (R125; log 9). -/
def frameWriteEvents (s : State) (f : List Byte) : List Event :=
  [.out .csn .low, .wait 2] ++ (wireBitsOf s.order f).flatMap (writeCellEvents s.setup) ++ [.out .csn .high]

/-! ### Frames (30_encoding.md R91) -/

/-- The raw bytes of an inbound frame: echo, `k` zeros, 0xFF, `L`, `LCS`, payload, `DCS`, whatever follows (R91). -/
def inboundFrame (c : Config) (k : Nat) (len lcs : Byte) (p : List Byte) (dcs : Byte) (tail : List Byte) : List Byte :=
  c.rdEcho :: (List.replicate k 0x00 ++ [0xFF, len, lcs] ++ p ++ dcs :: tail)

/-- The checks of R91 on an inbound frame's fields. -/
abbrev InboundChecks (len lcs : Byte) (p : List Byte) (dcs : Byte) : Prop :=
  (len.toNat + lcs.toNat) % 256 = 0 ∧ p.length = len.toNat ∧ ((p.map BitVec.toNat).sum + dcs.toNat) % 256 = 0

/-! ### How a SEND_COMMAND goes (43_pn532_commands.md R190, R193) -/

/-- What the sequencer comes to once the frame is sent. -/
inductive Answer where
  | data (d : List Byte)
  | noResponse
  | error (e : Error)
  deriving DecidableEq, Repr

/-- How many bytes the response read of a capacity clocks in (R108). -/
abbrev responseLength (s : State) (cap : Nat) : Nat := cap + 2 + s.cfg.frameOverhead

/-- The raw bytes of the response, read after a first wait of `k₁` polls that began at draw `ix`, the ACK, and a second
wait of `k₂` polls (R190). -/
abbrev rawResponse (s : State) (cap ix k₁ k₂ : Nat) : List Byte :=
  drawnBytes s.order s.world (ix + 16 * k₁ + 56 + 16 * k₂) (responseLength s cap)

/-- The draws from number `ix` on bring SEND_COMMAND to its second wait: a first wait of `k` polls ends true, and the
seven bytes after it are the ACK (R190 steps 3 and 4). -/
structure Acknowledged (s : State) (timeout ix k : Nat) : Prop where
  wait : PollsTo s timeout ix k true
  ack : drawnBytes s.order s.world (ix + 16 * k) 7 = ackBytes

/-- The events of that: the polls and the ACK's exchange. -/
def ackedEvents (s : State) (ix k : Nat) : List Event := waitEvents s ix k ++ dataReadEvents s 7 (ix + 16 * k)

/-- The events up to the end of the second wait, of `k₂` polls. -/
def answerWaitEvents (s : State) (ix k₁ k₂ : Nat) : List Event :=
  ackedEvents s ix k₁ ++ waitEvents s (ix + 16 * k₁ + 56) k₂

/-- All the events of a dialogue that comes to its response. -/
def responseEvents (s : State) (cap ix k₁ k₂ : Nat) : List Event :=
  answerWaitEvents s ix k₁ k₂ ++ dataReadEvents s (responseLength s cap) (ix + 16 * k₁ + 56 + 16 * k₂)

/-- The least time of a dialogue that comes to its response: both waits, and 2 ms for each data read. -/
def responseTime (timeout k₁ k₂ : Nat) : Nat := waitTime timeout k₁ true + 2 + waitTime timeout k₂ true + 2

/-- The answers the draws from number `ix` on allow once the frame is sent, with the values `FSM` passes through on the
way (R193: the table of transitions, row by row), the events on the wire, and the least time it all takes. `k`, `k₁`,
`k₂` are the numbers of polls of the two waits. -/
inductive Dialogue (s : State) (opcode : Byte) (cap timeout ix : Nat) :
    Answer → List Fsm → List Event → Nat → Prop where
  /-- `AwaitingAck`, the wait returned false: more than the timeout has passed (R172). -/
  | noAck (k : Nat) (h : PollsTo s timeout ix k false) :
    Dialogue s opcode cap timeout ix .noResponse [.frameSent, .awaitingAck, .noResponse, .idle]
      (waitEvents s ix k) (waitTime timeout k false)
  /-- `AwaitingAck`, the 7 bytes differ from `ACK`. -/
  | badAck (k : Nat) (h : PollsTo s timeout ix k true) (ha : drawnBytes s.order s.world (ix + 16 * k) 7 ≠ ackBytes) :
    Dialogue s opcode cap timeout ix (.error .ackMismatch) [.frameSent, .awaitingAck, .protocolError, .idle]
      (ackedEvents s ix k) (waitTime timeout k true + 2)
  /-- `AwaitingResponse`, the wait returned false: more than the timeout has passed since it began. -/
  | noAnswer (k₁ k₂ : Nat) (h₁ : Acknowledged s timeout ix k₁)
    (h₂ : PollsTo s timeout (ix + 16 * k₁ + 56) k₂ false) :
    Dialogue s opcode cap timeout ix .noResponse
      [.frameSent, .awaitingAck, .ackVerified, .awaitingResponse, .noResponse, .idle]
      (answerWaitEvents s ix k₁ k₂) (waitTime timeout k₁ true + 2 + waitTime timeout k₂ false)
  /-- `AwaitingResponse`, the parser raised. -/
  | badFrame (k₁ k₂ : Nat) (e : Error) (h₁ : Acknowledged s timeout ix k₁)
    (h₂ : PollsTo s timeout (ix + 16 * k₁ + 56) k₂ true)
    (hp : parseFrame s.cfg (rawResponse s cap ix k₁ k₂) (cap + 2) = .error e) :
    Dialogue s opcode cap timeout ix (.error e)
      [.frameSent, .awaitingAck, .ackVerified, .awaitingResponse, .protocolError, .idle]
      (responseEvents s cap ix k₁ k₂) (responseTime timeout k₁ k₂)
  /-- `ResponseParsed`, the header check fails. -/
  | wrongCommand (k₁ k₂ : Nat) (p : List Byte) (h₁ : Acknowledged s timeout ix k₁)
    (h₂ : PollsTo s timeout (ix + 16 * k₁ + 56) k₂ true)
    (hp : parseFrame s.cfg (rawResponse s cap ix k₁ k₂) (cap + 2) = .ok p)
    (hh : ∀ d, p ≠ s.cfg.d2h :: (opcode + 1) :: d) :
    Dialogue s opcode cap timeout ix (.error .wrongCommandResponse)
      [.frameSent, .awaitingAck, .ackVerified, .awaitingResponse, .responseParsed, .protocolError, .idle]
      (responseEvents s cap ix k₁ k₂) (responseTime timeout k₁ k₂)
  /-- `ResponseParsed`, the header check passes. -/
  | answered (k₁ k₂ : Nat) (d : List Byte) (h₁ : Acknowledged s timeout ix k₁)
    (h₂ : PollsTo s timeout (ix + 16 * k₁ + 56) k₂ true)
    (hp : parseFrame s.cfg (rawResponse s cap ix k₁ k₂) (cap + 2) = .ok (s.cfg.d2h :: (opcode + 1) :: d)) :
    Dialogue s opcode cap timeout ix (.data d)
      [.frameSent, .awaitingAck, .ackVerified, .awaitingResponse, .responseParsed, .success, .idle]
      (responseEvents s cap ix k₁ k₂) (responseTime timeout k₁ k₂)

/-- From `s` to `t` the frame of `[H2D, opcode] ++ params` goes out in one window, at least 2 ms, and then a dialogue
that comes to the answer `a`: its passage of `FSM`, its events, its least time (R100, R190, R193). -/
def Converses (s t : State) (opcode : Byte) (params : List Byte) (cap timeout : Nat) (a : Answer) : Prop :=
  ∃ fs es d, Dialogue s opcode cap timeout s.world.misoIx a fs es d ∧ t.fsmLog = s.fsmLog ++ fs ∧
    TraceAdds s t (frameWriteEvents s (frameOf s.cfg ([s.cfg.h2d, opcode] ++ params)) ++ es) ∧
    s.world.now + 2 + d ≤ t.world.now

/-- The peripheral is ready at once both times, acknowledges, and answers `opcode` with `d`: its bytes are a status
whose second byte is READY, the ACK, such a status again, and a frame with the payload `[D2H, opcode + 1] ++ d`
(95_test_vectors.md V-S1). -/
abbrev AnswersAtOnce (s : State) (opcode : Byte) (cap : Nat) (d : List Byte) : Prop :=
  pollAt s s.world.misoIx 0 = s.cfg.ready ∧ nextBytes s 2 7 = ackBytes ∧
    pollAt s (s.world.misoIx + 72) 0 = s.cfg.ready ∧
    ∃ k len lcs dcs tail, nextBytes s 11 (cap + 2 + s.cfg.frameOverhead) =
        inboundFrame s.cfg k len lcs (s.cfg.d2h :: (opcode + 1) :: d) dcs tail ∧
      InboundChecks len lcs (s.cfg.d2h :: (opcode + 1) :: d) dcs

/-- A SEND_COMMAND runs to an outcome: the transport is up, the response fits the buffer, and its read has a meaning
under the write index (R222, R146). -/
abbrev CommandRuns (s : State) (cap : Nat) : Prop :=
  WireReady s ∧ cap + 2 + s.cfg.frameOverhead ≤ bufMax s.cfg ∧ WriteIndexFits s (cap + 2 + s.cfg.frameOverhead)

/-- `s` as the firmware query of INITIALIZE sees it: in mode 0, LSB first (R174, R194). -/
abbrev protocolView (s : State) : State := { s with mode := 0, order := .lsbFirst }

/-! ### The invariant of every step -/

/-- The error codes of 60_exceptions.md R220. -/
def errorCodes : List Byte :=
  [0x01, 0x02, 0x10, 0x11, 0x12, 0x13, 0x14, 0x15, 0x16, 0x17, 0x18, 0x20, 0x21, 0x22, 0x23]

/-- The result registers agree with one another (10_state.md R30, 60_exceptions.md R236, R238). -/
abbrev ResultsAgree (c : Config) (r : Results) : Prop :=
  (r.outcome ≠ .fatal → r.err = 0x00) ∧
    (r.outcome = .fatal → r.err ∈ errorCodes ∧ r.rxbuf = [] ∧ r.flag = false) ∧
    (r.outcome = .noResponse → r.rxbuf = [] ∧ r.flag = false) ∧ r.rxbuf.length ≤ bufMax c

/-- Once started, the output latches hold what the trace says was written to the pins last (R13, R16, R25). -/
abbrev TraceTells (s : State) : Prop := s.started = true → Latches.unset.seeAll s.trace = s.latches

/-- The invariant: the pins are provisioned only with a mode held (40_transport_control.md R127), the machine is
between operations (10_state.md R33), the result registers agree (R30), the latches and the trace agree (R25). -/
abbrev Inv (s : State) : Prop :=
  (s.started = true → s.modeV = true) ∧ BetweenOps s ∧ ResultsAgree s.cfg s.res ∧ TraceTells s

end Sys2Proof.Machine
end

