-- ==== Sys2Proof/Certificates/Slice0/Obligations.lean ====
section
/-! DEFINITION. The statements for the provers. Each docstring names the rules of spec/ it formalises; where a rule
rests on a decision or an inference of the spec's own, or the model made a choice, the docstring says so. -/

open Sys2Proof Sys2Proof.Machine

/-! ### Command words -/

/-- R81, R82, R84 (decision D1): for every operation with every operand, the decoder reads back what the encoder
wrote. -/
def Obligations.DecodeReadsWhatEncodeWrites : Prop := ∀ i : Instr, decode (encode i) = .ok i

/-- R84, R85 (decisions D1, D28): a word decodes exactly when a row of the operation table accepts it, and it is then
the word the encoder gives the operation. -/
def Obligations.DecodeAcceptsExactlyTheTable : Prop :=
  ∀ w : Word, ((∃ i, decode w = .ok i) ↔ Word.legal w = true) ∧ ∀ i, decode w = .ok i → encode i = w

/-- R84 (decision D1): no command word is accepted by two rows of the operation table. -/
def Obligations.NoWordHasTwoRows : Prop :=
  ∀ w : Word, ∀ r ∈ opTable, ∀ q ∈ opTable, r.accepts w = true → q.accepts w = true → r = q

/-- R81, R82, R84, R85 and the `CW` columns of 95_test_vectors.md: words written out by hand decode to what they stand
for; reserved words are rejected by the name of the rule they break. -/
def Obligations.SampleWordsDecode : Prop :=
  decode 0x0103#16 = .ok (.configure 0x03) ∧ decode 0x0201#16 = .ok (.configureBitOrder 0x01) ∧
  decode 0x0300#16 = .ok .start ∧ decode 0x0803#16 = .ok (.write true true) ∧
  decode 0x0902#16 = .ok (.read true false) ∧ decode 0x0A01#16 = .ok (.transfer false true) ∧
  decode 0x1100#16 = .ok .parseResponseFrame ∧ decode 0x184A#16 = .ok (.sendCommand 0x4A) ∧
  decode 0x1C00#16 = .ok (.readPassiveTarget 0x00) ∧ decode 0x0301#16 = .error (.nonzeroArg 0x01) ∧
  decode 0x0804#16 = .error (.flagBits 0x04) ∧ decode 0x0600#16 = .error (.opcode 0x06)

/-- R80, R29 (decisions D1, D2) and the model's host script (log 1): the next command's operands are presented, its
`ARG` is bits 7:0 of its word, and the step is the operation from there; with no command to come the block is idle. -/
def Obligations.StepRunsTheDecodedCommand : Prop :=
  (∀ (s : State) (c : Command) (rest : List Command) (i : Instr), s.script = c :: rest → decode c.cw = .ok i →
    step s = exec i { s with arg := c.cw.extractLsb' 0 8, opr := c.opr, script := rest }) ∧
  (∀ s : State, s.script = [] → step s = .next s)

/-- R85 (decision D28): a reserved command word is refused `InvalidCommand`. -/
def Obligations.ReservedWordIsRefused : Prop :=
  ∀ (s : State) (c : Command) (rest : List Command), s.script = c :: rest → Word.legal c.cw = false →
    ∃ why, step s = .refused (.invalidCommand why)

/-! ### Reset and the invariant -/

/-- R36, R260 (decisions D5, D6): after reset the configuration is not valid, the pins are not provisioned, `FSM` is
`Idle`, there is no position. The values of the registers for which R36 says "no value" are not stated. -/
def Obligations.ResetState : Prop :=
  State.reset.modeV = false ∧ State.reset.orderV = false ∧ State.reset.started = false ∧
    State.reset.fsm = .idle ∧ State.reset.pos = none

/-- R25, R33, R36, R127: the reset state meets the invariant. The results it holds are the model's choice (log 6). -/
def Obligations.ResetMeetsTheInvariant : Prop := Inv State.reset

/-- R13, R16, R25, R30, R33, R127, R236: every step keeps the invariant: `STARTED` only with `MODE_V`, nothing transient
between operations, result registers that agree with one another and fit `BUFMAX`, and, once started, output latches
that hold what the trace says was written to the pins last. That the trace is kept in the state is the model's choice
(log 10). -/
def Obligations.StepKeepsTheInvariant : Prop := ∀ s t : State, Inv s → step s = .next t → Inv t

/-- R24, R21, R23, R9: no step clears `STARTED`, `MODE_V` or `ORDER_V` or changes a parameter. -/
def Obligations.StepNeverUndoesBringUp : Prop :=
  ∀ s t : State, s.fsm = .idle → step s = .next t →
    (s.started = true → t.started = true) ∧ (s.modeV = true → t.modeV = true) ∧
      (s.orderV = true → t.orderV = true) ∧ t.cfg = s.cfg

/-- R14, R16, R61, R26: time never runs back, the trace only grows, and the answers the environment has fixed stand. -/
def Obligations.StepOnlyAddsToTheTrace : Prop :=
  ∀ s t : State, s.fsm = .idle → step s = .next t →
    s.world.now ≤ t.world.now ∧ s.world.misoIx ≤ t.world.misoIx ∧ (∃ es, TraceAdds s t es) ∧
      t.world.miso = s.world.miso ∧ t.world.lag = s.world.lag

/-! ### Configuration and bring-up (40_transport_control.md) -/

/-- R22: the mode table. -/
def Obligations.ModeTable : Prop :=
  (idleLevel 0 = .low ∧ sampleOnLeadingEdge 0 = true ∧ activeLevel 0 = .high) ∧
  (idleLevel 1 = .low ∧ sampleOnLeadingEdge 1 = false ∧ activeLevel 1 = .high) ∧
  (idleLevel 2 = .high ∧ sampleOnLeadingEdge 2 = true ∧ activeLevel 2 = .low) ∧
  (idleLevel 3 = .high ∧ sampleOnLeadingEdge 3 = false ∧ activeLevel 3 = .low)

/-- R120 (decisions D8, D10): CONFIGURE with 0 to 3 outside a transaction writes `MODE` and `MODE_V`, touches no pin,
and changes nothing else. The time it takes is open (R14). -/
def Obligations.ConfigureSetsTheMode : Prop :=
  ∀ (m : Byte) (s : State), m.toNat ≤ 3 → NoTransaction s →
    ∃ t, exec (.configure m) s = .next t ∧ t.mode.toNat = m.toNat ∧ t.modeV = true ∧ t.order = s.order ∧
      t.orderV = s.orderV ∧ t.started = s.started ∧ SameLatches s t ∧ SameInputs s t ∧ SameWire s t ∧
      EndsOk t [] false ∧ SameLog s t

/-- R121 (decision D10): CONFIGURE_BIT_ORDER with 0 or 1 outside a transaction writes `ORDER` and `ORDER_V`, touches
no pin, and changes nothing else. The time it takes is open (R14). -/
def Obligations.ConfigureBitOrderSetsTheOrder : Prop :=
  ∀ (o : Byte) (s : State), o.toNat ≤ 1 → NoTransaction s →
    ∃ t, exec (.configureBitOrder o) s = .next t ∧
      t.order = (if o.toNat = 0 then BitOrder.msbFirst else BitOrder.lsbFirst) ∧ t.orderV = true ∧
      t.mode = s.mode ∧ t.modeV = s.modeV ∧ t.started = s.started ∧ SameLatches s t ∧ SameInputs s t ∧
      SameWire s t ∧ EndsOk t [] false ∧ SameLog s t

/-- R107, R120, R121, R237 (decisions D10, D27): an `ARG` out of range is `InvalidMode` or `InvalidOrder`, and nothing
but the results changes; the time it takes is open (R14). That the info is held in the state is the model's choice
(log 14). -/
def Obligations.OutOfRangeConfigurationIsFatal : Prop :=
  ∀ (a : Byte) (s : State), NoTransaction s →
    (3 < a.toNat → ∃ t, exec (.configure a) s = .next t ∧ EndsFatal t 0x01 (some a.toNat) ∧
      SameConfiguration s t ∧ SameLatches s t ∧ SameInputs s t ∧ SameWire s t ∧ SameLog s t) ∧
    (1 < a.toNat → ∃ t, exec (.configureBitOrder a) s = .next t ∧ EndsFatal t 0x02 (some a.toNat) ∧
      SameConfiguration s t ∧ SameLatches s t ∧ SameInputs s t ∧ SameWire s t ∧ SameLog s t)

/-- R126, R194, R231 (decision D9): inside a transaction CONFIGURE and CONFIGURE_BIT_ORDER, whatever `ARG`, and
INITIALIZE through them, are refused. -/
def Obligations.ConfigurationIsRefusedInATransaction : Prop :=
  ∀ (a : Byte) (s : State), s.started = true → s.csnQ = .low →
    exec (.configure a) s = .refused .configDuringTransaction ∧
      exec (.configureBitOrder a) s = .refused .configDuringTransaction ∧
      exec .initializeOp s = .refused .configDuringTransaction

/-- R122 (decisions D6, D7; C4): START with a mode held provisions the four pins in order, from any pin state. -/
def Obligations.StartProvisionsThePins : Prop :=
  ∀ s : State, s.modeV = true →
    ∃ t, exec .start s = .next t ∧
      TraceAdds s t [.cfgOut .sck (idleLevel s.mode), .cfgOut .mosi s.cfg.mosiInit, .cfgIn .miso,
        .cfgOut .csn .high] ∧
      t.sckQ = idleLevel s.mode ∧ t.mosiQ = s.cfg.mosiInit ∧ t.csnQ = .high ∧ t.started = true ∧
      t.mode = s.mode ∧ t.modeV = s.modeV ∧ t.order = s.order ∧ t.orderV = s.orderV ∧ SameInputs s t ∧
      t.world.misoIx = s.world.misoIx ∧ EndsOk t [] false ∧ SameLog s t

/-- R122, R36 (decision D5): START without a mode is refused. -/
def Obligations.StartNeedsAMode : Prop :=
  ∀ s : State, s.modeV = false → exec .start s = .refused .notConfigured

/-- R123, R124, R128 (decision D6): once started, SELECT drives CS_N low and DESELECT drives it high, and neither
touches anything else. That a redundant set-level call is made is the model's choice (R125; log 9). -/
def Obligations.SelectAndDeselectDriveChipSelect : Prop :=
  ∀ s : State, s.started = true →
    (∃ t, exec .select s = .next t ∧ t.csnQ = .low ∧ TraceAdds s t [.out .csn .low] ∧ t.sckQ = s.sckQ ∧
      t.mosiQ = s.mosiQ ∧ SameConfiguration s t ∧ SameInputs s t ∧ t.world.misoIx = s.world.misoIx ∧
      EndsOk t [] false ∧ SameLog s t) ∧
    (∃ t, exec .deselect s = .next t ∧ t.csnQ = .high ∧ TraceAdds s t [.out .csn .high] ∧ t.sckQ = s.sckQ ∧
      t.mosiQ = s.mosiQ ∧ SameConfiguration s t ∧ SameInputs s t ∧ t.world.misoIx = s.world.misoIx ∧
      EndsOk t [] false ∧ SameLog s t)

/-! ### Refusals (60_exceptions.md R222) -/

/-- R127, R167 (decisions D6, D16): before START every operation that touches a pin is refused `NotStarted`; only a
DATA_READ of no byte is refused `InvalidLength`, in any state. -/
def Obligations.PinOperationsNeedStart : Prop :=
  (∀ (i : Instr) (s : State), s.started = false → needsStart i = true → (i = .dataRead → s.opr.len ≠ 0) →
    exec i s = .refused .notStarted) ∧
  (∀ s : State, s.opr.len = 0 → exec .dataRead s = .refused .invalidLength)

/-- R127, R36 (decision D5): started but without an order, every operation that moves data is refused
`NotConfigured`. That this comes before a composite's `TooLong`, and after the `InvalidLength` of a DATA_READ of no
byte, is the model's reading (log 7). -/
def Obligations.DataOperationsNeedTheOrder : Prop :=
  ∀ (i : Instr) (s : State), s.started = true → s.orderV = false → needsOrder i = true →
    (i = .dataRead → s.opr.len ≠ 0) → exec i s = .refused .notConfigured

/-- R60, R83, R160, R222 (decision D32): a byte sequence operand or a length above `BUFMAX` is refused `TooLong`:
`TXBUF` of BUILD_FRAME, PARSE_RESPONSE_FRAME, WRITE and TRANSFER, `LEN` of READ and DATA_READ, and the payload, two
bytes longer than the parameters, that SEND_COMMAND and USE_SAM_CONFIGURATION give BUILD_FRAME. That TooLong comes
after NotStarted and NotConfigured is the model's reading (log 7), and that it comes before the refusal under
`XFER_WRITE_INDEX = byte` too (log 12). -/
def Obligations.LongOperandsAreRefused : Prop :=
  ∀ (s : State) (a b : Bool) (op : Byte),
    (bufMax s.cfg < s.opr.txbuf.length →
      exec .buildFrame s = .refused .tooLong ∧ exec .parseResponseFrame s = .refused .tooLong ∧
      (WireReady s → exec (.write a b) s = .refused .tooLong ∧ exec (.transfer a b) s = .refused .tooLong)) ∧
    (bufMax s.cfg < s.opr.len → WireReady s →
      exec (.read a b) s = .refused .tooLong ∧ exec .dataRead s = .refused .tooLong) ∧
    (bufMax s.cfg < s.opr.txbuf.length + 2 → WireReady s → exec (.sendCommand op) s = .refused .tooLong) ∧
    (bufMax s.cfg < s.cfg.samParams.length + 2 → WireReady s → exec .useSamConfiguration s = .refused .tooLong)

/-- R60, R146, R190, R222 (decisions D12, D32): a SEND_COMMAND whose response read is above `BUFMAX`, or above 8 bytes
under `XFER_WRITE_INDEX = byte`, ends before that read as any other does, with no response or with a bad ACK, or is
refused when it comes to it: `TooLong`, else by the refusal of R146. That it is not refused before its first event is
the model's reading (logs 7, 12), and so is the select's `Out` when CS_N is low already (log 9). -/
def Obligations.SendCommandIsRefusedAtItsResponse : Prop :=
  ∀ (op : Byte) (s : State), s.fsm = .idle → WireReady s → s.opr.txbuf.length ≤ 253 → ¬ CommandRuns s s.opr.cap →
    (∃ t, exec (.sendCommand op) s = .next t ∧ UnitPKeeps s t ∧
      ((EndsNoResponse t ∧ Converses s t op s.opr.txbuf s.opr.cap s.opr.tmo .noResponse) ∨
        (EndsFatal t 0x10 none ∧ Converses s t op s.opr.txbuf s.opr.cap s.opr.tmo (.error .ackMismatch)))) ∨
    (exec (.sendCommand op) s =
        .refused (if bufMax s.cfg < responseLength s s.opr.cap then .tooLong else .writeIndexBeyondByte) ∧
      ∃ k₁ k₂, Acknowledged s s.opr.tmo s.world.misoIx k₁ ∧
        PollsTo s s.opr.tmo (s.world.misoIx + 16 * k₁ + 56) k₂ true)

/-- R146 (decision D12): under `XFER_WRITE_INDEX = byte` a TRANSFER of more than 8 bytes is refused, by itself and as
a DATA_READ. -/
def Obligations.ByteIndexRefusesLongTransfers : Prop :=
  ∀ (s : State) (a b : Bool), WireReady s → s.cfg.xferWriteIndex = .byte →
    (8 < s.opr.txbuf.length → s.opr.txbuf.length ≤ bufMax s.cfg →
      exec (.transfer a b) s = .refused .writeIndexBeyondByte) ∧
    (8 < s.opr.len → s.opr.len ≤ bufMax s.cfg → exec .dataRead s = .refused .writeIndexBeyondByte)

/-! ### Data operations (41_transport_data.md) -/

/-- R52, R143: `pos` is `7 - j` MSB-first and `j` LSB-first, and is a bijection on 0 to 7 under either order. -/
def Obligations.BitPositions : Prop :=
  ∀ j, j < 8 → bitPos .msbFirst j = 7 - j ∧ bitPos .lsbFirst j = j ∧
    ∀ o : BitOrder, bitPos o j < 8 ∧ ∀ i, i < 8 → bitPos o i = bitPos o j → i = j

/-- R141, R140, R147, R149, R53, R55, R62, R63: WRITE puts every bit of `TXBUF` on MOSI in order, one clock pulse a
bit, inside the chip-select events of its flags; it samples nothing. That a flag's `Out` is there when CS_N has the
level already is the model's choice (R16, R125; log 9). -/
def Obligations.WriteSendsEveryBit : Prop :=
  ∀ (sel desel : Bool) (s : State), WireReady s → s.opr.txbuf.length ≤ bufMax s.cfg →
    ∃ t, exec (.write sel desel) s = .next t ∧
      TraceAdds s t (flagEvents sel .low ++
        (wireBitsOf s.order s.opr.txbuf).flatMap (writeCellEvents s.setup) ++ flagEvents desel .high) ∧
      t.world.misoIx = s.world.misoIx ∧
      t.sckQ = (if s.opr.txbuf = [] then s.sckQ else idleLevel s.mode) ∧
      t.mosiQ = lastDriven (wireBitsOf s.order s.opr.txbuf) s.mosiQ ∧
      t.csnQ = (if desel then .high else if sel then .low else s.csnQ) ∧
      SameConfiguration s t ∧ SameInputs s t ∧ EndsOk t [] false ∧ SameLog s t

/-- R142, R140, R143, R144, R147, R149, R54, R55, R58: READ pulses the clock 8 times a byte, samples MISO once a cell
on the configured edge, returns the bytes the samples make, and never drives MOSI. That a flag's `Out` is there when
CS_N has the level already is the model's choice (R16, R125; log 9). -/
def Obligations.ReadReturnsTheSamples : Prop :=
  ∀ (sel desel : Bool) (s : State), WireReady s → s.opr.len ≤ bufMax s.cfg →
    ∃ t, exec (.read sel desel) s = .next t ∧
      TraceAdds s t (flagEvents sel .low ++
        (drawnLevels s.world s.world.misoIx (8 * s.opr.len)).flatMap (readCellEvents s.setup) ++
        flagEvents desel .high) ∧
      t.world.misoIx = s.world.misoIx + 8 * s.opr.len ∧
      t.sckQ = (if s.opr.len = 0 then s.sckQ else idleLevel s.mode) ∧ t.mosiQ = s.mosiQ ∧
      t.csnQ = (if desel then .high else if sel then .low else s.csnQ) ∧
      SameConfiguration s t ∧ SameInputs s t ∧ EndsOk t (nextBytes s 0 s.opr.len) false ∧ SameLog s t

/-- R145, R140, R146 (decisions D11, D12), with `XFER_WRITE_INDEX = bit`: TRANSFER drives every bit of `TXBUF` and
samples MISO once in the same cell, and returns the bytes the samples make. That a flag's `Out` is there when CS_N has
the level already is the model's choice (R16, R125; log 9). -/
def Obligations.TransferIsFullDuplex : Prop :=
  ∀ (sel desel : Bool) (s : State), WireReady s → s.opr.txbuf.length ≤ bufMax s.cfg →
    s.cfg.xferWriteIndex = .bit →
    ∃ t, exec (.transfer sel desel) s = .next t ∧
      TraceAdds s t (flagEvents sel .low ++
        xferEventsOf s.setup (wireBitsOf s.order s.opr.txbuf)
          (drawnLevels s.world s.world.misoIx (8 * s.opr.txbuf.length)) ++ flagEvents desel .high) ∧
      t.world.misoIx = s.world.misoIx + 8 * s.opr.txbuf.length ∧
      t.sckQ = (if s.opr.txbuf = [] then s.sckQ else idleLevel s.mode) ∧
      t.mosiQ = lastDriven (wireBitsOf s.order s.opr.txbuf) s.mosiQ ∧
      t.csnQ = (if desel then .high else if sel then .low else s.csnQ) ∧
      SameConfiguration s t ∧ SameInputs s t ∧ EndsOk t (nextBytes s 0 s.opr.txbuf.length) false ∧ SameLog s t

/-- R146 (decision D12; log 12), with `XFER_WRITE_INDEX = byte` and at most 8 bytes: every cell of byte `I` drives bit
`pos(ORDER, I)` of `TXBUF[I]`; the samples and the result are as before. That the variant is offered, and that a flag's
`Out` is there when CS_N has the level already, are the model's choices (logs 12, 9). -/
def Obligations.TransferUnderTheByteIndex : Prop :=
  ∀ (sel desel : Bool) (s : State), WireReady s → s.opr.txbuf.length ≤ 8 → s.cfg.xferWriteIndex = .byte →
    ∃ t, exec (.transfer sel desel) s = .next t ∧
      TraceAdds s t (flagEvents sel .low ++
        xferEventsOf s.setup
          (s.opr.txbuf.zipIdx.flatMap fun c => List.replicate 8 (c.1.getLsbD (bitPos s.order c.2)))
          (drawnLevels s.world s.world.misoIx (8 * s.opr.txbuf.length)) ++ flagEvents desel .high) ∧
      t.world.misoIx = s.world.misoIx + 8 * s.opr.txbuf.length ∧
      t.sckQ = (if s.opr.txbuf = [] then s.sckQ else idleLevel s.mode) ∧
      t.mosiQ = lastDriven
        (s.opr.txbuf.zipIdx.flatMap fun c => List.replicate 8 (c.1.getLsbD (bitPos s.order c.2))) s.mosiQ ∧
      t.csnQ = (if desel then .high else if sel then .low else s.csnQ) ∧
      SameConfiguration s t ∧ SameInputs s t ∧ EndsOk t (nextBytes s 0 s.opr.txbuf.length) false ∧ SameLog s t

/-- R151: if the MISO sample of every cell equals the MOSI level of the same cell, TRANSFER returns its input, under
either order and any mode. -/
def Obligations.LoopbackReturnsTheBytes : Prop :=
  ∀ (sel desel : Bool) (s : State), WireReady s → s.opr.txbuf.length ≤ bufMax s.cfg →
    s.cfg.xferWriteIndex = .bit →
    drawnLevels s.world s.world.misoIx (8 * s.opr.txbuf.length) = (wireBitsOf s.order s.opr.txbuf).map levelOf →
    ∃ t, exec (.transfer sel desel) s = .next t ∧ EndsOk t s.opr.txbuf false

/-- R148: a sequence of length 0 makes the chip-select events of its flags and no other. That a flag's `Out` is there
when CS_N has the level already is the model's choice (R16, R125; log 9). -/
def Obligations.EmptySequencesMakeNoClock : Prop :=
  ∀ (sel desel : Bool) (s : State), WireReady s →
    (s.opr.txbuf = [] →
      (∃ t, exec (.write sel desel) s = .next t ∧ TraceAdds s t (flagEvents sel .low ++ flagEvents desel .high)) ∧
      (∃ t, exec (.transfer sel desel) s = .next t ∧ EndsOk t [] false ∧
        TraceAdds s t (flagEvents sel .low ++ flagEvents desel .high))) ∧
    (s.opr.len = 0 →
      ∃ t, exec (.read sel desel) s = .next t ∧ EndsOk t [] false ∧
        TraceAdds s t (flagEvents sel .low ++ flagEvents desel .high))

/-- R150: WRITE, READ and TRANSFER have no error outcome. -/
def Obligations.DataOperationsHaveNoError : Prop :=
  ∀ (sel desel : Bool) (s t : State),
    exec (.write sel desel) s = .next t ∨ exec (.read sel desel) s = .next t ∨
      exec (.transfer sel desel) s = .next t → t.res.outcome = .ok

/-! ### Frames (30_encoding.md, 42_framer_primitives.md) -/

/-- R89: BUILD_FRAME of 1 to 255 bytes returns the frame of the table, `L + 8` bytes long. -/
def Obligations.BuildFrameLaysOutTheFrame : Prop :=
  ∀ s : State, 1 ≤ s.opr.txbuf.length → s.opr.txbuf.length ≤ 255 →
    ∃ t, exec .buildFrame s = .next t ∧ t.res.rxbuf.length = s.opr.txbuf.length + 8 ∧
      t.res.rxbuf = [s.cfg.dw, 0x00, 0x00, 0xFF, BitVec.ofNat 8 s.opr.txbuf.length,
          BitVec.ofNat 8 ((0x100 - s.opr.txbuf.length) % 256)] ++ s.opr.txbuf ++
        [BitVec.ofNat 8 ((0x100 - (s.opr.txbuf.map BitVec.toNat).sum % 256) % 256), 0x00]

/-- R160, R161 (decision D21): BUILD_FRAME ends `Ok` for a payload of 1 to 255 bytes and `PayloadTooLong` for length 0 or
above 255; either way, in any configuration, it touches no pin and nothing but the results changes; the time it takes is
open (R14). That the info is held in the state is the model's choice (log 14). -/
def Obligations.BuildFrameChangesOnlyTheResults : Prop :=
  ∀ s : State, s.opr.txbuf.length ≤ bufMax s.cfg →
    ∃ t, exec .buildFrame s = .next t ∧
      (1 ≤ s.opr.txbuf.length → s.opr.txbuf.length ≤ 255 → EndsOk t t.res.rxbuf false) ∧
      (s.opr.txbuf.length = 0 ∨ 255 < s.opr.txbuf.length → EndsFatal t 0x18 (some s.opr.txbuf.length)) ∧
      SameConfiguration s t ∧ SameLatches s t ∧ SameInputs s t ∧ SameWire s t ∧ SameLog s t

/-- R91, R92, R162, R164 (decisions D19, D20; C1, C2): PARSE_RESPONSE_FRAME returns `p` exactly when the raw bytes are
an inbound frame with payload `p` whose checks pass; whatever `XMAX`, the postamble and the bytes after it. -/
def Obligations.ParserReturnsExactlyTheCheckedFrames : Prop :=
  ∀ (s : State) (p : List Byte), s.opr.txbuf.length ≤ bufMax s.cfg →
    ((∃ t, exec .parseResponseFrame s = .next t ∧ EndsOk t p false) ↔
      ∃ k len lcs dcs tail, s.opr.txbuf = inboundFrame s.cfg k len lcs p dcs tail ∧ InboundChecks len lcs p dcs)

/-- R162, R163, R231 (decision D18): the parser always answers, touching no pin and changing nothing but the results, in
a time that is open (R14), and the first failing check in the order written is the error: seven cases by the shape of the
raw bytes. -/
def Obligations.ParserReportsTheFirstFailingCheck : Prop :=
  ∀ s : State, s.opr.txbuf.length ≤ bufMax s.cfg →
    ∃ t, exec .parseResponseFrame s = .next t ∧ SameConfiguration s t ∧ SameLatches s t ∧ SameInputs s t ∧
      SameWire s t ∧ SameLog s t ∧
      (s.opr.txbuf.head? ≠ some s.cfg.rdEcho → EndsFatal t 0x11 none) ∧
      (∀ k, s.opr.txbuf = s.cfg.rdEcho :: List.replicate k 0x00 → EndsFatal t 0x12 none) ∧
      (∀ k b rest, s.opr.txbuf = s.cfg.rdEcho :: (List.replicate k 0x00 ++ b :: rest) → b ≠ 0x00 → b ≠ 0xFF →
        EndsFatal t 0x13 none) ∧
      (∀ k rest, s.opr.txbuf = s.cfg.rdEcho :: (List.replicate k 0x00 ++ 0xFF :: rest) → rest.length < 2 →
        EndsFatal t 0x17 none) ∧
      (∀ k len lcs rest, s.opr.txbuf = s.cfg.rdEcho :: (List.replicate k 0x00 ++ 0xFF :: len :: lcs :: rest) →
        ((len.toNat + lcs.toNat) % 256 ≠ 0 → EndsFatal t 0x14 none) ∧
        ((len.toNat + lcs.toNat) % 256 = 0 → rest.length < len.toNat + 1 → EndsFatal t 0x17 none) ∧
        ((len.toNat + lcs.toNat) % 256 = 0 → len.toNat + 1 ≤ rest.length →
          ((rest.take (len.toNat + 1)).map BitVec.toNat).sum % 256 ≠ 0 → EndsFatal t 0x15 none))

/-- R165: for every payload of 1 to 255 bytes, the built frame with its first byte replaced by the echo marker parses
to the payload; so it does with any bytes appended and with any number of zeros before the 0xFF; and when `DW` is
`RD_ECHO` the frame is that buffer as it stands. -/
def Obligations.BuiltFramesParseToTheirPayload : Prop :=
  ∀ (b s : State) (p tail : List Byte) (k : Nat), 1 ≤ p.length → p.length ≤ 255 → b.opr.txbuf = p →
    b.cfg = s.cfg →
    ∃ u, exec .buildFrame b = .next u ∧
      (s.opr.txbuf = s.cfg.rdEcho :: (u.res.rxbuf.drop 1 ++ tail) ∨
        s.opr.txbuf = s.cfg.rdEcho :: (List.replicate k 0x00 ++ u.res.rxbuf.drop 3 ++ tail) →
        s.opr.txbuf.length ≤ bufMax s.cfg → ∃ t, exec .parseResponseFrame s = .next t ∧ EndsOk t p false) ∧
      (s.cfg.dw = s.cfg.rdEcho → u.res.rxbuf = s.cfg.rdEcho :: u.res.rxbuf.drop 1)

/-- R97: the ACK sequence is not a frame: given to the parser, with `RD_ECHO` its first byte, it fails the length
checksum. -/
def Obligations.AckIsNotAFrame : Prop :=
  ∀ s : State, s.cfg.rdEcho = 0x01 → s.opr.txbuf = [0x01, 0x00, 0x00, 0xFF, 0x00, 0xFF, 0x00] →
    ∃ t, exec .parseResponseFrame s = .next t ∧ EndsFatal t 0x14 none

/-! ### The SPI transactions, the ACK detector, the ready wait (42_framer_primitives.md) -/

/-- R98, R166 (decision D15): STATUS_READ sends `[SR, 0x00]` in one exchange and returns the two bytes received. That the
select's `Out` is there when CS_N is low already is the model's choice (log 9). -/
def Obligations.StatusReadExchangesTwoBytes : Prop :=
  ∀ s : State, WireReady s →
    ∃ t, exec .statusRead s = .next t ∧ EndsOk t (nextBytes s 0 2) false ∧ UnitPKeeps s t ∧
      t.mosiQ = lastDriven (transferBits s [s.cfg.sr, 0x00]) s.mosiQ ∧
      t.world.misoIx = s.world.misoIx + 16 ∧ s.world.now + 2 ≤ t.world.now ∧ SameLog s t ∧
      TraceAdds s t (exchangeEvents s [s.cfg.sr, 0x00] s.world.misoIx)

/-- R99, R167 (decisions D16, D24): DATA_READ of `n` bytes sends `[DR] ++ [0x00] * (n-1)` in one exchange and returns
the `n` bytes received. That the select's `Out` is there when CS_N is low already is the model's choice (log 9). -/
def Obligations.DataReadExchangesItsLength : Prop :=
  ∀ s : State, WireReady s → 1 ≤ s.opr.len → s.opr.len ≤ bufMax s.cfg → WriteIndexFits s s.opr.len →
    ∃ t, exec .dataRead s = .next t ∧ EndsOk t (nextBytes s 0 s.opr.len) false ∧ UnitPKeeps s t ∧
      t.mosiQ = lastDriven (transferBits s (s.cfg.dr :: List.replicate (s.opr.len - 1) 0x00)) s.mosiQ ∧
      t.world.misoIx = s.world.misoIx + 8 * s.opr.len ∧ s.world.now + 2 ≤ t.world.now ∧ SameLog s t ∧
      TraceAdds s t (dataReadEvents s s.opr.len s.world.misoIx)

/-- R168, R169, R97, R199: READ_ACK reads all seven bytes and then compares them with the constant; on a mismatch it
is `AckMismatch`, with CS_N high. That the select's `Out` is there when CS_N is low already is the model's choice
(log 9). -/
def Obligations.ReadAckComparesSevenBytes : Prop :=
  ∀ s : State, WireReady s →
    ∃ t, exec .readAck s = .next t ∧ UnitPKeeps s t ∧ t.world.misoIx = s.world.misoIx + 56 ∧ SameLog s t ∧
      (nextBytes s 0 7 = [0x01, 0x00, 0x00, 0xFF, 0x00, 0xFF, 0x00] → EndsOk t [] false) ∧
      (nextBytes s 0 7 ≠ [0x01, 0x00, 0x00, 0xFF, 0x00, 0xFF, 0x00] → EndsFatal t 0x10 none) ∧
      s.world.now + 2 ≤ t.world.now ∧ TraceAdds s t (dataReadEvents s 7 s.world.misoIx)

/-- R170, R172, R173 (decision D14): WAIT_READY always ends `Ok`; it polls `k` times, at least once and at most
`floor(timeout / 10) + 2` times: its events are `k` exchanges of `[SR, 0x00]` with `Wait(10)` between two; no poll but
the last found READY in its second byte, `FLAG` says whether the last one did; it takes the time of its waits at least,
and `FLAG = 0` means that more than the timeout has passed. That a select's `Out` is there when CS_N is low already is
the model's choice (log 9). -/
def Obligations.WaitReadyPollsUntilReadyOrTimeout : Prop :=
  ∀ s : State, WireReady s →
    ∃ t k ready, exec .waitReady s = .next t ∧ EndsOk t [] ready ∧ UnitPKeeps s t ∧
      PollsTo s s.opr.tmo s.world.misoIx k ready ∧ t.world.misoIx = s.world.misoIx + 16 * k ∧
      TraceAdds s t (waitEvents s s.world.misoIx k) ∧
      s.world.now + waitTime s.opr.tmo k ready ≤ t.world.now ∧
      (ready = false → s.opr.tmo < t.world.now - s.world.now) ∧ SameLog s t

/-! ### The sequencer and the composites (43_pn532_commands.md) -/

/-- R100, R108, R190, R191, R193, R199 (decision D22): a SEND_COMMAND whose operands fit sends the frame of
`[H2D, opcode] ++ TXBUF` in one window and then goes as the table of transitions and the draws allow: polls, ACK, polls,
response, each with its exchanges on the wire and the least time it takes, a `NoResponse` only after more than the
timeout; its outcome, its data and the passage of `FSM` are those of that dialogue. That a select's `Out` is there when
CS_N is low already is the model's choice (log 9). -/
def Obligations.SendCommandIsADialogue : Prop :=
  ∀ (op : Byte) (s : State), s.fsm = .idle → CommandRuns s s.opr.cap → s.opr.txbuf.length ≤ 253 →
    ∃ t a, exec (.sendCommand op) s = .next t ∧ UnitPKeeps s t ∧
      Converses s t op s.opr.txbuf s.opr.cap s.opr.tmo a ∧
      (∀ d, a = .data d → EndsOk t d false) ∧ (a = .noResponse → EndsNoResponse t) ∧
      (∀ e, a = .error e → EndsFatal t e.code e.info)

/-- R190, R193 and 95_test_vectors.md V-S1: against a peripheral that is ready at once, acknowledges, and answers the
command with `d`, SEND_COMMAND ends `Ok` with `d`, `FSM` passes through all its states to `Success`, and the events are
the frame, one poll, the ACK, one poll, the response. That a select's `Out` is there when CS_N is low already is the
model's choice (log 9). -/
def Obligations.SendCommandReturnsTheAnswer : Prop :=
  ∀ (op : Byte) (d : List Byte) (s : State), s.fsm = .idle → CommandRuns s s.opr.cap → s.opr.txbuf.length ≤ 253 →
    AnswersAtOnce s op s.opr.cap d →
    ∃ t, exec (.sendCommand op) s = .next t ∧ EndsOk t d false ∧ UnitPKeeps s t ∧
      TraceAdds s t (frameWriteEvents s (frameOf s.cfg ([s.cfg.h2d, op] ++ s.opr.txbuf)) ++
        responseEvents s s.opr.cap s.world.misoIx 1 1) ∧
      t.fsmLog = s.fsmLog ++
        [.frameSent, .awaitingAck, .ackVerified, .awaitingResponse, .responseParsed, .success, .idle]

/-- R161, R190, R193, R196, R237 (decision D21): more than 253 parameter bytes raise `PayloadTooLong` before any pin
event, in SEND_COMMAND and, from `SAM_PARAMS`, in USE_SAM_CONFIGURATION. The time it takes is open (R14). That the info
is held in the state is the model's choice (log 14). -/
def Obligations.SendCommandRejectsLongParameters : Prop :=
  ∀ (op : Byte) (s : State), s.fsm = .idle → WireReady s →
    (253 < s.opr.txbuf.length → s.opr.txbuf.length + 2 ≤ bufMax s.cfg →
      ∃ t, exec (.sendCommand op) s = .next t ∧ EndsFatal t 0x18 (some (s.opr.txbuf.length + 2)) ∧
        SameConfiguration s t ∧ SameLatches s t ∧ SameInputs s t ∧ SameWire s t ∧
        t.fsmLog = s.fsmLog ++ [.protocolError, .idle]) ∧
    (253 < s.cfg.samParams.length → s.cfg.samParams.length + 2 ≤ bufMax s.cfg →
      ∃ t, exec .useSamConfiguration s = .next t ∧ EndsFatal t 0x18 (some (s.cfg.samParams.length + 2)) ∧
        SameConfiguration s t ∧ SameLatches s t ∧ SameInputs s t ∧ SameWire s t ∧
        t.fsmLog = s.fsmLog ++ [.protocolError, .idle])

/-- R103, R195, R200 (decision D25): GET_FIRMWARE_VERSION sends the frame of `[H2D, OPC_GFV]`, and never ends
`NoResponse`: it ends `Ok` with the data of a response that has some, `DeviceNotDetected` for an empty one or, once more
than the timeout has passed, for none, or with the error of the SEND_COMMAND. That a select's `Out` is there when CS_N is
low already is the model's choice (log 9). -/
def Obligations.FirmwareVersionEscalatesNoResponse : Prop :=
  ∀ s : State, s.fsm = .idle → CommandRuns s 4 →
    ∃ t a, exec .getFirmwareVersion s = .next t ∧ UnitPKeeps s t ∧
      Converses s t s.cfg.opcGfv [] 4 s.cfg.tCmdDefault a ∧
      (∀ d, a = .data d → d ≠ [] → EndsOk t d false) ∧
      (a = .data [] ∨ a = .noResponse → EndsFatal t 0x20 none) ∧
      (∀ e, a = .error e → EndsFatal t e.code e.info)

/-- R195 and 95_test_vectors.md V-G1: against a peripheral that answers at once with data, GET_FIRMWARE_VERSION
returns the data. -/
def Obligations.FirmwareVersionReturnsTheAnswer : Prop :=
  ∀ (d : List Byte) (s : State), s.fsm = .idle → CommandRuns s 4 → AnswersAtOnce s s.cfg.opcGfv 4 d → d ≠ [] →
    ∃ t, exec .getFirmwareVersion s = .next t ∧ EndsOk t d false ∧ UnitPKeeps s t

/-- R104, R196, R200 (decisions D25, D30): USE_SAM_CONFIGURATION sends the frame of `[H2D, OPC_SAM] ++ SAM_PARAMS`, and
ends `Ok(())` whether the peripheral answered or not, the latter once more than the timeout has passed, and with the
error of the SEND_COMMAND otherwise. That a select's `Out` is there when CS_N is low already is the model's choice
(log 9). -/
def Obligations.SamConfigurationSwallowsNoResponse : Prop :=
  ∀ s : State, s.fsm = .idle → CommandRuns s s.cfg.samCap → s.cfg.samParams.length ≤ 253 →
    ∃ t a, exec .useSamConfiguration s = .next t ∧ UnitPKeeps s t ∧
      Converses s t s.cfg.opcSam s.cfg.samParams s.cfg.samCap s.cfg.tCmdDefault a ∧
      ((∃ d, a = .data d) ∨ a = .noResponse → EndsOk t [] false) ∧
      (∀ e, a = .error e → EndsFatal t e.code e.info)

/-- R196 and 95_test_vectors.md V-M1: against a peripheral that answers at once, USE_SAM_CONFIGURATION ends
`Ok(())`. -/
def Obligations.SamConfigurationAccepted : Prop :=
  ∀ (d : List Byte) (s : State), s.fsm = .idle → CommandRuns s s.cfg.samCap → s.cfg.samParams.length ≤ 253 →
    AnswersAtOnce s s.cfg.opcSam s.cfg.samCap d →
    ∃ t, exec .useSamConfiguration s = .next t ∧ EndsOk t [] false ∧ UnitPKeeps s t

/-- R105, R197, R200, R231 (decisions D26, D34; the offsets are general knowledge, log 4): READ_PASSIVE_TARGET sends the
frame of `[H2D, OPC_ILPT, ILPT_MAXTG, card_baud]` and always ends: no response, once more than the timeout has passed, is
`None`, an error of the SEND_COMMAND is its error, and data is judged field by field in the order of R231. That a
select's `Out` is there when CS_N is low already is the model's choice (log 9). -/
def Obligations.PassiveTargetJudgesTheResponse : Prop :=
  ∀ (baud : Byte) (s : State), s.fsm = .idle → CommandRuns s 17 →
    ∃ t a, exec (.readPassiveTarget baud) s = .next t ∧ UnitPKeeps s t ∧
      Converses s t s.cfg.opcIlpt [s.cfg.ilptMaxTg, baud] 17 s.opr.tmo a ∧
      (a = .noResponse → EndsOk t [] false) ∧ (∀ e, a = .error e → EndsFatal t e.code e.info) ∧
      (a = .data [] → EndsFatal t 0x23 none) ∧
      (∀ c d, a = .data (c :: d) → c ≠ 0x01 → EndsFatal t 0x21 none) ∧
      (∀ d, a = .data (0x01 :: d) → d.length < 5 → EndsFatal t 0x23 none) ∧
      (∀ b₁ b₂ b₃ b₄ n rest, a = .data (0x01 :: b₁ :: b₂ :: b₃ :: b₄ :: n :: rest) →
        (7 < n.toNat → EndsFatal t 0x22 none) ∧
        (n.toNat ≤ 7 → rest.length < n.toNat → EndsFatal t 0x23 none) ∧
        (n.toNat ≤ 7 → n.toNat ≤ rest.length → EndsOk t (rest.take n.toNat) true))

/-- R197, R106 and 95_test_vectors.md V-T1 (decision D26): against a peripheral that answers at once with one target
whose UID has `n` bytes, `n` at most 7, READ_PASSIVE_TARGET returns the UID with `FLAG = 1`. -/
def Obligations.PassiveTargetReturnsTheUid : Prop :=
  ∀ (baud b₁ b₂ b₃ b₄ n : Byte) (uid rest : List Byte) (s : State), s.fsm = .idle → CommandRuns s 17 →
    uid.length = n.toNat → n.toNat ≤ 7 →
    AnswersAtOnce s s.cfg.opcIlpt 17 (0x01 :: b₁ :: b₂ :: b₃ :: b₄ :: n :: (uid ++ rest)) →
    ∃ t, exec (.readPassiveTarget baud) s = .next t ∧ EndsOk t uid true ∧ UnitPKeeps s t

/-- R103, R194, R199, R264 (decisions D25, D29): INITIALIZE, once started and outside a transaction, selects, waits
1000 ms, and queries the firmware version in mode 0, LSB first: the frame of `[H2D, OPC_GFV]` and a dialogue. It always
ends: `Ok(())` after a last deselect when the query has data, else with the error of the query, and no response only once
more than the timeout has passed; either way `MODE` is 0, `ORDER` is LeastSignificantFirst, CS_N is high, SCK is low. That
the query's select and the last deselect make their `Out` though CS_N has the level already is the model's choice
(log 9). -/
def Obligations.InitializeConfiguresAndQueries : Prop :=
  ∀ s : State, s.fsm = .idle → s.started = true → NoTransaction s →
    4 + 2 + s.cfg.frameOverhead ≤ bufMax s.cfg → WriteIndexFits s (4 + 2 + s.cfg.frameOverhead) →
    ∃ t a fs es d, exec .initializeOp s = .next t ∧ t.mode = 0 ∧ t.modeV = true ∧ t.order = .lsbFirst ∧
      t.orderV = true ∧ t.started = true ∧ t.csnQ = .high ∧ t.sckQ = .low ∧ SameInputs s t ∧
      Dialogue (protocolView s) s.cfg.opcGfv 4 s.cfg.tCmdDefault s.world.misoIx a fs es d ∧
      t.fsmLog = s.fsmLog ++ fs ∧ s.world.now + 1002 + d ≤ t.world.now ∧
      TraceAdds s t ([.out .csn .low, .wait 1000] ++
        frameWriteEvents (protocolView s) (frameOf s.cfg [s.cfg.h2d, s.cfg.opcGfv]) ++ es ++
        (if t.res.outcome = .ok then [.out .csn .high] else [])) ∧
      (∀ d, a = .data d → d ≠ [] → EndsOk t [] false) ∧
      (a = .data [] ∨ a = .noResponse → EndsFatal t 0x20 none) ∧
      (∀ e, a = .error e → EndsFatal t e.code e.info)

/-- R194, R264 and 95_test_vectors.md P7: against a peripheral that answers the firmware query at once with data,
INITIALIZE ends `Ok(())`. -/
def Obligations.InitializeSucceeds : Prop :=
  ∀ (d : List Byte) (s : State), s.fsm = .idle → s.started = true → NoTransaction s →
    4 + 2 + s.cfg.frameOverhead ≤ bufMax s.cfg → WriteIndexFits s (4 + 2 + s.cfg.frameOverhead) →
    AnswersAtOnce (protocolView s) s.cfg.opcGfv 4 d → d ≠ [] →
    ∃ t, exec .initializeOp s = .next t ∧ EndsOk t [] false ∧ t.mode = 0 ∧ t.order = .lsbFirst ∧ t.csnQ = .high

/-! ### Whole-machine rules -/

/-- R21, R23, R24: `MODE`, `ORDER` and their valid bits are written only by CONFIGURE, CONFIGURE_BIT_ORDER, and
INITIALIZE through them; `STARTED` is set by START alone, and no operation changes it otherwise. -/
def Obligations.OnlyConfigurationWritesModeAndOrder : Prop :=
  ∀ (i : Instr) (s t : State), s.fsm = .idle → exec i s = .next t →
    (configures i = false → t.mode = s.mode ∧ t.modeV = s.modeV ∧ t.order = s.order ∧ t.orderV = s.orderV) ∧
    (i ≠ .start → t.started = s.started) ∧ (i = .start → t.started = true)

/-- R25, R128, R144, R160, R162: who does not write a latch. CONFIGURE, CONFIGURE_BIT_ORDER, BUILD_FRAME and
PARSE_RESPONSE_FRAME touch no pin and draw nothing; SELECT and DESELECT write CS_N alone; READ does not write MOSI. -/
def Obligations.LatchesAreWrittenByTheirOperationsOnly : Prop :=
  ∀ (i : Instr) (s t : State), exec i s = .next t →
    ((∃ a, i = .configure a ∨ i = .configureBitOrder a) ∨ i = .buildFrame ∨ i = .parseResponseFrame →
      SameLatches s t ∧ SameWire s t) ∧
    (i = .select ∨ i = .deselect → t.sckQ = s.sckQ ∧ t.mosiQ = s.mosiQ) ∧
    (∀ a b, i = .read a b → t.mosiQ = s.mosiQ)

/-- R16, R125 (decision D3): an `Out` event that leaves the latch of its pin unchanged is not observed, wherever it
stands in the trace; every event that is no `Out`, and every `Out` that changes its latch, is; and so a SELECT that finds
CS_N low and a DESELECT that finds it high are no event of the observation. -/
def Obligations.RedundantWritesAreNotObserved : Prop :=
  (∀ (l : Latches) (es es' : List Event) (p : Pin) (v : Level), (l.seeAll es).level p = some v →
    observed l (es ++ .out p v :: es') = observed l (es ++ es')) ∧
  (∀ (l : Latches) (es es' : List Event) (e : Event), (∀ p v, e = .out p v → (l.seeAll es).level p ≠ some v) →
    observed l (es ++ e :: es') = observed l es ++ e :: observed ((l.seeAll es).see e) es') ∧
  (∀ s : State, s.started = true →
    (s.csnQ = .low → ∃ t, exec .select s = .next t ∧ observation s t = ([], .ofUnit)) ∧
    (s.csnQ = .high → ∃ t, exec .deselect s = .next t ∧ observation s t = ([], .ofUnit)))

/-- R35, R149, R122 and hazard R270: every operation but CONFIGURE leaves SCK at the idle level of the mode held, if
it found it there. -/
def Obligations.ClockStaysAtIdle : Prop :=
  ∀ (i : Instr) (s t : State), s.fsm = .idle → exec i s = .next t → (∀ m, i ≠ .configure m) →
    s.sckQ = idleLevel s.mode → t.sckQ = idleLevel t.mode

/-- R199, R161, R237: after any operation of unit P that touches the wire, CS_N is high and SCK is at idle; the one ending
before any pin event, `PayloadTooLong` (0x18), leaves every latch as it was. -/
def Obligations.UnitPLeavesThePeripheralDeselected : Prop :=
  ∀ (i : Instr) (s t : State), s.fsm = .idle → exec i s = .next t → unitPWire i = true →
    (t.res.err ≠ 0x18 → t.csnQ = .high ∧ t.sckQ = idleLevel t.mode) ∧ (t.res.err = 0x18 → SameLatches s t)

/-- R238, R236, R220 (decision D27 for the codes): an operation that ends `Fatal` returns no partial data: `RXBUF` is
empty, `FLAG` is 0, `ERR` is a code of R220, `FSM` is `Idle`. -/
def Obligations.FatalReturnsNoData : Prop :=
  ∀ (i : Instr) (s t : State), s.fsm = .idle → exec i s = .next t → t.res.outcome = .fatal →
    t.res.rxbuf = [] ∧ t.res.flag = false ∧ t.res.err ∈ errorCodes ∧ t.fsm = .idle

/-- R195, R196, R197, R200: only SEND_COMMAND ends with the outcome `NoResponse`; every other operation has turned it
into an error, a value, or `()`. -/
def Obligations.OnlySendCommandEndsNoResponse : Prop :=
  ∀ (i : Instr) (s t : State), s.fsm = .idle → exec i s = .next t → t.res.outcome = .noResponse →
    ∃ op, i = .sendCommand op
end

