-- ==== Sys2Proof/Laws/State.lean ====
section
/-! SUPPORT. One lemma per field of State per update of it, so that no later proof unfolds a record update. -/

namespace Sys2Proof.Machine

variable (s : State)

/-! ### elapse -/

@[simp] theorem State.elapse_mode (d : Nat) : (s.elapse d).mode = s.mode := rfl
@[simp] theorem State.elapse_modeV (d : Nat) : (s.elapse d).modeV = s.modeV := rfl
@[simp] theorem State.elapse_order (d : Nat) : (s.elapse d).order = s.order := rfl
@[simp] theorem State.elapse_orderV (d : Nat) : (s.elapse d).orderV = s.orderV := rfl
@[simp] theorem State.elapse_started (d : Nat) : (s.elapse d).started = s.started := rfl
@[simp] theorem State.elapse_sckQ (d : Nat) : (s.elapse d).sckQ = s.sckQ := rfl
@[simp] theorem State.elapse_mosiQ (d : Nat) : (s.elapse d).mosiQ = s.mosiQ := rfl
@[simp] theorem State.elapse_csnQ (d : Nat) : (s.elapse d).csnQ = s.csnQ := rfl
@[simp] theorem State.elapse_fsm (d : Nat) : (s.elapse d).fsm = s.fsm := rfl
@[simp] theorem State.elapse_pos (d : Nat) : (s.elapse d).pos = s.pos := rfl
@[simp] theorem State.elapse_arg (d : Nat) : (s.elapse d).arg = s.arg := rfl
@[simp] theorem State.elapse_opr (d : Nat) : (s.elapse d).opr = s.opr := rfl
@[simp] theorem State.elapse_res (d : Nat) : (s.elapse d).res = s.res := rfl
@[simp] theorem State.elapse_wbuf (d : Nat) : (s.elapse d).wbuf = s.wbuf := rfl
@[simp] theorem State.elapse_trace (d : Nat) : (s.elapse d).trace = s.trace := rfl
@[simp] theorem State.elapse_fsmLog (d : Nat) : (s.elapse d).fsmLog = s.fsmLog := rfl
@[simp] theorem State.elapse_world (d : Nat) : (s.elapse d).world = { s.world with now := s.world.now + (d + s.world.lagAt s.world.lagIx), lagIx := s.world.lagIx + 1 } := rfl
@[simp] theorem State.elapse_script (d : Nat) : (s.elapse d).script = s.script := rfl
@[simp] theorem State.elapse_cfg (d : Nat) : (s.elapse d).cfg = s.cfg := rfl

/-! ### countDraw -/

@[simp] theorem State.countDraw_mode : (s.countDraw).mode = s.mode := rfl
@[simp] theorem State.countDraw_modeV : (s.countDraw).modeV = s.modeV := rfl
@[simp] theorem State.countDraw_order : (s.countDraw).order = s.order := rfl
@[simp] theorem State.countDraw_orderV : (s.countDraw).orderV = s.orderV := rfl
@[simp] theorem State.countDraw_started : (s.countDraw).started = s.started := rfl
@[simp] theorem State.countDraw_sckQ : (s.countDraw).sckQ = s.sckQ := rfl
@[simp] theorem State.countDraw_mosiQ : (s.countDraw).mosiQ = s.mosiQ := rfl
@[simp] theorem State.countDraw_csnQ : (s.countDraw).csnQ = s.csnQ := rfl
@[simp] theorem State.countDraw_fsm : (s.countDraw).fsm = s.fsm := rfl
@[simp] theorem State.countDraw_pos : (s.countDraw).pos = s.pos := rfl
@[simp] theorem State.countDraw_arg : (s.countDraw).arg = s.arg := rfl
@[simp] theorem State.countDraw_opr : (s.countDraw).opr = s.opr := rfl
@[simp] theorem State.countDraw_res : (s.countDraw).res = s.res := rfl
@[simp] theorem State.countDraw_wbuf : (s.countDraw).wbuf = s.wbuf := rfl
@[simp] theorem State.countDraw_trace : (s.countDraw).trace = s.trace := rfl
@[simp] theorem State.countDraw_fsmLog : (s.countDraw).fsmLog = s.fsmLog := rfl
@[simp] theorem State.countDraw_world : (s.countDraw).world = { s.world with misoIx := s.world.misoIx + 1 } := rfl
@[simp] theorem State.countDraw_script : (s.countDraw).script = s.script := rfl
@[simp] theorem State.countDraw_cfg : (s.countDraw).cfg = s.cfg := rfl

/-! ### emit -/

@[simp] theorem State.emit_mode (e : Event) : (s.emit e).mode = s.mode := rfl
@[simp] theorem State.emit_modeV (e : Event) : (s.emit e).modeV = s.modeV := rfl
@[simp] theorem State.emit_order (e : Event) : (s.emit e).order = s.order := rfl
@[simp] theorem State.emit_orderV (e : Event) : (s.emit e).orderV = s.orderV := rfl
@[simp] theorem State.emit_started (e : Event) : (s.emit e).started = s.started := rfl
@[simp] theorem State.emit_sckQ (e : Event) : (s.emit e).sckQ = s.sckQ := rfl
@[simp] theorem State.emit_mosiQ (e : Event) : (s.emit e).mosiQ = s.mosiQ := rfl
@[simp] theorem State.emit_csnQ (e : Event) : (s.emit e).csnQ = s.csnQ := rfl
@[simp] theorem State.emit_fsm (e : Event) : (s.emit e).fsm = s.fsm := rfl
@[simp] theorem State.emit_pos (e : Event) : (s.emit e).pos = s.pos := rfl
@[simp] theorem State.emit_arg (e : Event) : (s.emit e).arg = s.arg := rfl
@[simp] theorem State.emit_opr (e : Event) : (s.emit e).opr = s.opr := rfl
@[simp] theorem State.emit_res (e : Event) : (s.emit e).res = s.res := rfl
@[simp] theorem State.emit_wbuf (e : Event) : (s.emit e).wbuf = s.wbuf := rfl
@[simp] theorem State.emit_trace (e : Event) : (s.emit e).trace = s.trace ++ [e] := rfl
@[simp] theorem State.emit_fsmLog (e : Event) : (s.emit e).fsmLog = s.fsmLog := rfl
@[simp] theorem State.emit_world (e : Event) : (s.emit e).world = s.world := rfl
@[simp] theorem State.emit_script (e : Event) : (s.emit e).script = s.script := rfl
@[simp] theorem State.emit_cfg (e : Event) : (s.emit e).cfg = s.cfg := rfl

/-! ### setLatch -/

@[simp] theorem State.setLatch_mode (p : Pin) (v : Level) : (s.setLatch p v).mode = s.mode := by cases p <;> rfl
@[simp] theorem State.setLatch_modeV (p : Pin) (v : Level) : (s.setLatch p v).modeV = s.modeV := by cases p <;> rfl
@[simp] theorem State.setLatch_order (p : Pin) (v : Level) : (s.setLatch p v).order = s.order := by cases p <;> rfl
@[simp] theorem State.setLatch_orderV (p : Pin) (v : Level) : (s.setLatch p v).orderV = s.orderV := by cases p <;> rfl
@[simp] theorem State.setLatch_started (p : Pin) (v : Level) : (s.setLatch p v).started = s.started := by cases p <;> rfl
@[simp] theorem State.setLatch_sckQ (p : Pin) (v : Level) : (s.setLatch p v).sckQ = if p = .sck then v else s.sckQ := by cases p <;> rfl
@[simp] theorem State.setLatch_mosiQ (p : Pin) (v : Level) : (s.setLatch p v).mosiQ = if p = .mosi then v else s.mosiQ := by cases p <;> rfl
@[simp] theorem State.setLatch_csnQ (p : Pin) (v : Level) : (s.setLatch p v).csnQ = if p = .csn then v else s.csnQ := by cases p <;> rfl
@[simp] theorem State.setLatch_fsm (p : Pin) (v : Level) : (s.setLatch p v).fsm = s.fsm := by cases p <;> rfl
@[simp] theorem State.setLatch_pos (p : Pin) (v : Level) : (s.setLatch p v).pos = s.pos := by cases p <;> rfl
@[simp] theorem State.setLatch_arg (p : Pin) (v : Level) : (s.setLatch p v).arg = s.arg := by cases p <;> rfl
@[simp] theorem State.setLatch_opr (p : Pin) (v : Level) : (s.setLatch p v).opr = s.opr := by cases p <;> rfl
@[simp] theorem State.setLatch_res (p : Pin) (v : Level) : (s.setLatch p v).res = s.res := by cases p <;> rfl
@[simp] theorem State.setLatch_wbuf (p : Pin) (v : Level) : (s.setLatch p v).wbuf = s.wbuf := by cases p <;> rfl
@[simp] theorem State.setLatch_trace (p : Pin) (v : Level) : (s.setLatch p v).trace = s.trace := by cases p <;> rfl
@[simp] theorem State.setLatch_fsmLog (p : Pin) (v : Level) : (s.setLatch p v).fsmLog = s.fsmLog := by cases p <;> rfl
@[simp] theorem State.setLatch_world (p : Pin) (v : Level) : (s.setLatch p v).world = s.world := by cases p <;> rfl
@[simp] theorem State.setLatch_script (p : Pin) (v : Level) : (s.setLatch p v).script = s.script := by cases p <;> rfl
@[simp] theorem State.setLatch_cfg (p : Pin) (v : Level) : (s.setLatch p v).cfg = s.cfg := by cases p <;> rfl

/-! ### setFsm -/

@[simp] theorem State.setFsm_mode (f : Fsm) : (s.setFsm f).mode = s.mode := by unfold State.setFsm; split <;> simp_all
@[simp] theorem State.setFsm_modeV (f : Fsm) : (s.setFsm f).modeV = s.modeV := by unfold State.setFsm; split <;> simp_all
@[simp] theorem State.setFsm_order (f : Fsm) : (s.setFsm f).order = s.order := by unfold State.setFsm; split <;> simp_all
@[simp] theorem State.setFsm_orderV (f : Fsm) : (s.setFsm f).orderV = s.orderV := by unfold State.setFsm; split <;> simp_all
@[simp] theorem State.setFsm_started (f : Fsm) : (s.setFsm f).started = s.started := by unfold State.setFsm; split <;> simp_all
@[simp] theorem State.setFsm_sckQ (f : Fsm) : (s.setFsm f).sckQ = s.sckQ := by unfold State.setFsm; split <;> simp_all
@[simp] theorem State.setFsm_mosiQ (f : Fsm) : (s.setFsm f).mosiQ = s.mosiQ := by unfold State.setFsm; split <;> simp_all
@[simp] theorem State.setFsm_csnQ (f : Fsm) : (s.setFsm f).csnQ = s.csnQ := by unfold State.setFsm; split <;> simp_all
@[simp] theorem State.setFsm_fsm (f : Fsm) : (s.setFsm f).fsm = f := by unfold State.setFsm; split <;> simp_all
@[simp] theorem State.setFsm_pos (f : Fsm) : (s.setFsm f).pos = s.pos := by unfold State.setFsm; split <;> simp_all
@[simp] theorem State.setFsm_arg (f : Fsm) : (s.setFsm f).arg = s.arg := by unfold State.setFsm; split <;> simp_all
@[simp] theorem State.setFsm_opr (f : Fsm) : (s.setFsm f).opr = s.opr := by unfold State.setFsm; split <;> simp_all
@[simp] theorem State.setFsm_res (f : Fsm) : (s.setFsm f).res = s.res := by unfold State.setFsm; split <;> simp_all
@[simp] theorem State.setFsm_wbuf (f : Fsm) : (s.setFsm f).wbuf = s.wbuf := by unfold State.setFsm; split <;> simp_all
@[simp] theorem State.setFsm_trace (f : Fsm) : (s.setFsm f).trace = s.trace := by unfold State.setFsm; split <;> simp_all
@[simp] theorem State.setFsm_fsmLog (f : Fsm) : (s.setFsm f).fsmLog = if s.fsm = f then s.fsmLog else s.fsmLog ++ [f] := by unfold State.setFsm; split <;> simp_all
@[simp] theorem State.setFsm_world (f : Fsm) : (s.setFsm f).world = s.world := by unfold State.setFsm; split <;> simp_all
@[simp] theorem State.setFsm_script (f : Fsm) : (s.setFsm f).script = s.script := by unfold State.setFsm; split <;> simp_all
@[simp] theorem State.setFsm_cfg (f : Fsm) : (s.setFsm f).cfg = s.cfg := by unfold State.setFsm; split <;> simp_all

/-! ### hold -/

@[simp] theorem State.hold_mode (bs : List Byte) : (s.hold bs).mode = s.mode := rfl
@[simp] theorem State.hold_modeV (bs : List Byte) : (s.hold bs).modeV = s.modeV := rfl
@[simp] theorem State.hold_order (bs : List Byte) : (s.hold bs).order = s.order := rfl
@[simp] theorem State.hold_orderV (bs : List Byte) : (s.hold bs).orderV = s.orderV := rfl
@[simp] theorem State.hold_started (bs : List Byte) : (s.hold bs).started = s.started := rfl
@[simp] theorem State.hold_sckQ (bs : List Byte) : (s.hold bs).sckQ = s.sckQ := rfl
@[simp] theorem State.hold_mosiQ (bs : List Byte) : (s.hold bs).mosiQ = s.mosiQ := rfl
@[simp] theorem State.hold_csnQ (bs : List Byte) : (s.hold bs).csnQ = s.csnQ := rfl
@[simp] theorem State.hold_fsm (bs : List Byte) : (s.hold bs).fsm = s.fsm := rfl
@[simp] theorem State.hold_pos (bs : List Byte) : (s.hold bs).pos = s.pos := rfl
@[simp] theorem State.hold_arg (bs : List Byte) : (s.hold bs).arg = s.arg := rfl
@[simp] theorem State.hold_opr (bs : List Byte) : (s.hold bs).opr = s.opr := rfl
@[simp] theorem State.hold_res (bs : List Byte) : (s.hold bs).res = s.res := rfl
@[simp] theorem State.hold_wbuf (bs : List Byte) : (s.hold bs).wbuf = bs := rfl
@[simp] theorem State.hold_trace (bs : List Byte) : (s.hold bs).trace = s.trace := rfl
@[simp] theorem State.hold_fsmLog (bs : List Byte) : (s.hold bs).fsmLog = s.fsmLog := rfl
@[simp] theorem State.hold_world (bs : List Byte) : (s.hold bs).world = s.world := rfl
@[simp] theorem State.hold_script (bs : List Byte) : (s.hold bs).script = s.script := rfl
@[simp] theorem State.hold_cfg (bs : List Byte) : (s.hold bs).cfg = s.cfg := rfl

/-! ### setBufBit -/

@[simp] theorem State.setBufBit_mode (i k : Nat) : (s.setBufBit i k).mode = s.mode := rfl
@[simp] theorem State.setBufBit_modeV (i k : Nat) : (s.setBufBit i k).modeV = s.modeV := rfl
@[simp] theorem State.setBufBit_order (i k : Nat) : (s.setBufBit i k).order = s.order := rfl
@[simp] theorem State.setBufBit_orderV (i k : Nat) : (s.setBufBit i k).orderV = s.orderV := rfl
@[simp] theorem State.setBufBit_started (i k : Nat) : (s.setBufBit i k).started = s.started := rfl
@[simp] theorem State.setBufBit_sckQ (i k : Nat) : (s.setBufBit i k).sckQ = s.sckQ := rfl
@[simp] theorem State.setBufBit_mosiQ (i k : Nat) : (s.setBufBit i k).mosiQ = s.mosiQ := rfl
@[simp] theorem State.setBufBit_csnQ (i k : Nat) : (s.setBufBit i k).csnQ = s.csnQ := rfl
@[simp] theorem State.setBufBit_fsm (i k : Nat) : (s.setBufBit i k).fsm = s.fsm := rfl
@[simp] theorem State.setBufBit_pos (i k : Nat) : (s.setBufBit i k).pos = s.pos := rfl
@[simp] theorem State.setBufBit_arg (i k : Nat) : (s.setBufBit i k).arg = s.arg := rfl
@[simp] theorem State.setBufBit_opr (i k : Nat) : (s.setBufBit i k).opr = s.opr := rfl
@[simp] theorem State.setBufBit_res (i k : Nat) : (s.setBufBit i k).res = s.res := rfl
@[simp] theorem State.setBufBit_wbuf (i k : Nat) : (s.setBufBit i k).wbuf = s.wbuf.modify i (fun b => b ||| BitVec.twoPow 8 k) := rfl
@[simp] theorem State.setBufBit_trace (i k : Nat) : (s.setBufBit i k).trace = s.trace := rfl
@[simp] theorem State.setBufBit_fsmLog (i k : Nat) : (s.setBufBit i k).fsmLog = s.fsmLog := rfl
@[simp] theorem State.setBufBit_world (i k : Nat) : (s.setBufBit i k).world = s.world := rfl
@[simp] theorem State.setBufBit_script (i k : Nat) : (s.setBufBit i k).script = s.script := rfl
@[simp] theorem State.setBufBit_cfg (i k : Nat) : (s.setBufBit i k).cfg = s.cfg := rfl

/-! ### atPhase -/

@[simp] theorem State.atPhase_mode (i j : Nat) (ph : Phase) : (s.atPhase i j ph).mode = s.mode := rfl
@[simp] theorem State.atPhase_modeV (i j : Nat) (ph : Phase) : (s.atPhase i j ph).modeV = s.modeV := rfl
@[simp] theorem State.atPhase_order (i j : Nat) (ph : Phase) : (s.atPhase i j ph).order = s.order := rfl
@[simp] theorem State.atPhase_orderV (i j : Nat) (ph : Phase) : (s.atPhase i j ph).orderV = s.orderV := rfl
@[simp] theorem State.atPhase_started (i j : Nat) (ph : Phase) : (s.atPhase i j ph).started = s.started := rfl
@[simp] theorem State.atPhase_sckQ (i j : Nat) (ph : Phase) : (s.atPhase i j ph).sckQ = s.sckQ := rfl
@[simp] theorem State.atPhase_mosiQ (i j : Nat) (ph : Phase) : (s.atPhase i j ph).mosiQ = s.mosiQ := rfl
@[simp] theorem State.atPhase_csnQ (i j : Nat) (ph : Phase) : (s.atPhase i j ph).csnQ = s.csnQ := rfl
@[simp] theorem State.atPhase_fsm (i j : Nat) (ph : Phase) : (s.atPhase i j ph).fsm = s.fsm := rfl
@[simp] theorem State.atPhase_pos (i j : Nat) (ph : Phase) : (s.atPhase i j ph).pos = some ⟨i, j, ph⟩ := rfl
@[simp] theorem State.atPhase_arg (i j : Nat) (ph : Phase) : (s.atPhase i j ph).arg = s.arg := rfl
@[simp] theorem State.atPhase_opr (i j : Nat) (ph : Phase) : (s.atPhase i j ph).opr = s.opr := rfl
@[simp] theorem State.atPhase_res (i j : Nat) (ph : Phase) : (s.atPhase i j ph).res = s.res := rfl
@[simp] theorem State.atPhase_wbuf (i j : Nat) (ph : Phase) : (s.atPhase i j ph).wbuf = s.wbuf := rfl
@[simp] theorem State.atPhase_trace (i j : Nat) (ph : Phase) : (s.atPhase i j ph).trace = s.trace := rfl
@[simp] theorem State.atPhase_fsmLog (i j : Nat) (ph : Phase) : (s.atPhase i j ph).fsmLog = s.fsmLog := rfl
@[simp] theorem State.atPhase_world (i j : Nat) (ph : Phase) : (s.atPhase i j ph).world = s.world := rfl
@[simp] theorem State.atPhase_script (i j : Nat) (ph : Phase) : (s.atPhase i j ph).script = s.script := rfl
@[simp] theorem State.atPhase_cfg (i j : Nat) (ph : Phase) : (s.atPhase i j ph).cfg = s.cfg := rfl

/-! ### leaveCells -/

@[simp] theorem State.leaveCells_mode : (s.leaveCells).mode = s.mode := rfl
@[simp] theorem State.leaveCells_modeV : (s.leaveCells).modeV = s.modeV := rfl
@[simp] theorem State.leaveCells_order : (s.leaveCells).order = s.order := rfl
@[simp] theorem State.leaveCells_orderV : (s.leaveCells).orderV = s.orderV := rfl
@[simp] theorem State.leaveCells_started : (s.leaveCells).started = s.started := rfl
@[simp] theorem State.leaveCells_sckQ : (s.leaveCells).sckQ = s.sckQ := rfl
@[simp] theorem State.leaveCells_mosiQ : (s.leaveCells).mosiQ = s.mosiQ := rfl
@[simp] theorem State.leaveCells_csnQ : (s.leaveCells).csnQ = s.csnQ := rfl
@[simp] theorem State.leaveCells_fsm : (s.leaveCells).fsm = s.fsm := rfl
@[simp] theorem State.leaveCells_pos : (s.leaveCells).pos = none := rfl
@[simp] theorem State.leaveCells_arg : (s.leaveCells).arg = s.arg := rfl
@[simp] theorem State.leaveCells_opr : (s.leaveCells).opr = s.opr := rfl
@[simp] theorem State.leaveCells_res : (s.leaveCells).res = s.res := rfl
@[simp] theorem State.leaveCells_wbuf : (s.leaveCells).wbuf = s.wbuf := rfl
@[simp] theorem State.leaveCells_trace : (s.leaveCells).trace = s.trace := rfl
@[simp] theorem State.leaveCells_fsmLog : (s.leaveCells).fsmLog = s.fsmLog := rfl
@[simp] theorem State.leaveCells_world : (s.leaveCells).world = s.world := rfl
@[simp] theorem State.leaveCells_script : (s.leaveCells).script = s.script := rfl
@[simp] theorem State.leaveCells_cfg : (s.leaveCells).cfg = s.cfg := rfl

/-! ### endOp -/

@[simp] theorem State.endOp_mode (r : Results) : (s.endOp r).mode = s.mode := by simp [State.endOp]
@[simp] theorem State.endOp_modeV (r : Results) : (s.endOp r).modeV = s.modeV := by simp [State.endOp]
@[simp] theorem State.endOp_order (r : Results) : (s.endOp r).order = s.order := by simp [State.endOp]
@[simp] theorem State.endOp_orderV (r : Results) : (s.endOp r).orderV = s.orderV := by simp [State.endOp]
@[simp] theorem State.endOp_started (r : Results) : (s.endOp r).started = s.started := by simp [State.endOp]
@[simp] theorem State.endOp_sckQ (r : Results) : (s.endOp r).sckQ = s.sckQ := by simp [State.endOp]
@[simp] theorem State.endOp_mosiQ (r : Results) : (s.endOp r).mosiQ = s.mosiQ := by simp [State.endOp]
@[simp] theorem State.endOp_csnQ (r : Results) : (s.endOp r).csnQ = s.csnQ := by simp [State.endOp]
@[simp] theorem State.endOp_fsm (r : Results) : (s.endOp r).fsm = .idle := by simp [State.endOp]
@[simp] theorem State.endOp_pos (r : Results) : (s.endOp r).pos = none := by simp [State.endOp]
@[simp] theorem State.endOp_arg (r : Results) : (s.endOp r).arg = s.arg := by simp [State.endOp]
@[simp] theorem State.endOp_opr (r : Results) : (s.endOp r).opr = s.opr := by simp [State.endOp]
@[simp] theorem State.endOp_res (r : Results) : (s.endOp r).res = r := by simp [State.endOp]
@[simp] theorem State.endOp_wbuf (r : Results) : (s.endOp r).wbuf = [] := by simp [State.endOp]
@[simp] theorem State.endOp_trace (r : Results) : (s.endOp r).trace = s.trace := by simp [State.endOp]
@[simp] theorem State.endOp_fsmLog (r : Results) : (s.endOp r).fsmLog = if s.fsm = .idle then s.fsmLog else s.fsmLog ++ [.idle] := by simp [State.endOp]
@[simp] theorem State.endOp_world (r : Results) : (s.endOp r).world =
    { s.world with now := s.world.now + (0 + s.world.lagAt s.world.lagIx), lagIx := s.world.lagIx + 1 } := by
  simp [State.endOp]
@[simp] theorem State.endOp_script (r : Results) : (s.endOp r).script = s.script := by simp [State.endOp]
@[simp] theorem State.endOp_cfg (r : Results) : (s.endOp r).cfg = s.cfg := by simp [State.endOp]

/-! ### present -/

@[simp] theorem State.present_mode (c : Command) (rest : List Command) : (s.present c rest).mode = s.mode := rfl
@[simp] theorem State.present_modeV (c : Command) (rest : List Command) : (s.present c rest).modeV = s.modeV := rfl
@[simp] theorem State.present_order (c : Command) (rest : List Command) : (s.present c rest).order = s.order := rfl
@[simp] theorem State.present_orderV (c : Command) (rest : List Command) : (s.present c rest).orderV = s.orderV := rfl
@[simp] theorem State.present_started (c : Command) (rest : List Command) : (s.present c rest).started = s.started := rfl
@[simp] theorem State.present_sckQ (c : Command) (rest : List Command) : (s.present c rest).sckQ = s.sckQ := rfl
@[simp] theorem State.present_mosiQ (c : Command) (rest : List Command) : (s.present c rest).mosiQ = s.mosiQ := rfl
@[simp] theorem State.present_csnQ (c : Command) (rest : List Command) : (s.present c rest).csnQ = s.csnQ := rfl
@[simp] theorem State.present_fsm (c : Command) (rest : List Command) : (s.present c rest).fsm = s.fsm := rfl
@[simp] theorem State.present_pos (c : Command) (rest : List Command) : (s.present c rest).pos = s.pos := rfl
@[simp] theorem State.present_arg (c : Command) (rest : List Command) : (s.present c rest).arg = argOf c.cw := rfl
@[simp] theorem State.present_opr (c : Command) (rest : List Command) : (s.present c rest).opr = c.opr := rfl
@[simp] theorem State.present_res (c : Command) (rest : List Command) : (s.present c rest).res = s.res := rfl
@[simp] theorem State.present_wbuf (c : Command) (rest : List Command) : (s.present c rest).wbuf = s.wbuf := rfl
@[simp] theorem State.present_trace (c : Command) (rest : List Command) : (s.present c rest).trace = s.trace := rfl
@[simp] theorem State.present_fsmLog (c : Command) (rest : List Command) : (s.present c rest).fsmLog = s.fsmLog := rfl
@[simp] theorem State.present_world (c : Command) (rest : List Command) : (s.present c rest).world = s.world := rfl
@[simp] theorem State.present_script (c : Command) (rest : List Command) : (s.present c rest).script = rest := rfl
@[simp] theorem State.present_cfg (c : Command) (rest : List Command) : (s.present c rest).cfg = s.cfg := rfl

end Sys2Proof.Machine
end

