-- ==== Sys2Proof/Laws/Ops.lean ====
section
/-! SUPPORT. What the shared operations can do, said once: the primitives, the bit cells, the loops over them and unit
T's operations. -/

namespace Sys2Proof.Machine

/-! ### Levels, positions, draws -/

@[simp] theorem Level.inv_inv (v : Level) : v.inv.inv = v := by cases v <;> rfl

theorem Level.inv_ne (v : Level) : v.inv ≠ v := by cases v <;> decide

@[simp] theorem bitOf_levelOf (b : Bool) : bitOf (levelOf b) = b := by cases b <;> rfl

@[simp] theorem levelOf_bitOf (v : Level) : levelOf (bitOf v) = v := by cases v <;> rfl

theorem bitPos_lt (o : BitOrder) {j : Nat} (h : j < 8) : bitPos o j < 8 := by cases o <;> simp [bitPos] <;> omega

/-- The position function is its own inverse, so it is a bijection on 0 to 7 (R143). -/
theorem bitPos_bitPos (o : BitOrder) {j : Nat} (h : j < 8) : bitPos o (bitPos o j) = j := by
  cases o <;> simp [bitPos]; omega

/-- Draws depend on the world only through the answers fixed in advance. -/
theorem World.misoAt_congr {w w' : World} (h : w'.miso = w.miso) : w'.misoAt = w.misoAt := by
  funext n; simp [World.misoAt, h]

theorem drawnBytes_congr {w w' : World} (h : w'.miso = w.miso) (o : BitOrder) (ix n : Nat) :
    drawnBytes o w' ix n = drawnBytes o w ix n := by simp [drawnBytes, World.misoAt_congr h]

theorem drawnLevels_congr {w w' : World} (h : w'.miso = w.miso) (ix n : Nat) :
    drawnLevels w' ix n = drawnLevels w ix n := by simp [drawnLevels, World.misoAt_congr h]

@[simp] theorem drawnBytes_length (o : BitOrder) (w : World) (ix n : Nat) : (drawnBytes o w ix n).length = n := by
  simp [drawnBytes]

@[simp] theorem drawnLevels_length (w : World) (ix n : Nat) : (drawnLevels w ix n).length = n := by
  simp [drawnLevels]

theorem drawnBytes_succ (o : BitOrder) (w : World) (ix n : Nat) :
    drawnBytes o w ix (n + 1) = assembleByte o (fun j => w.misoAt (ix + j)) :: drawnBytes o w (ix + 8) n := by
  simp only [drawnBytes, List.range_succ_eq_map, List.map_cons, List.map_map]
  congr 1
  refine List.map_congr_left fun i _ => ?_
  simp only [Function.comp]
  congr 1; funext j; congr 1; omega

theorem drawnLevels_add (w : World) (ix m n : Nat) :
    drawnLevels w ix (m + n) = drawnLevels w ix m ++ drawnLevels w (ix + m) n := by
  simp [drawnLevels, List.range_add, Function.comp_def, Nat.add_assoc]

@[simp] theorem wireBits_length (o : BitOrder) (b : Byte) : (wireBits o b).length = 8 := by simp [wireBits]

/-! ### The latches and the trace -/

@[simp] theorem Latches.seeAll_nil (l : Latches) : l.seeAll [] = l := rfl
@[simp] theorem Latches.seeAll_cons (l : Latches) (e : Event) (es : List Event) :
    l.seeAll (e :: es) = (l.see e).seeAll es := rfl
theorem Latches.seeAll_append (l : Latches) (es es' : List Event) :
    l.seeAll (es ++ es') = (l.seeAll es).seeAll es' := List.foldl_append

theorem Latches.put_level {l : Latches} {p : Pin} {v : Level} (h : l.level p = some v) : l.put p v = l := by
  cases l; cases p <;> simp_all [Latches.level, Latches.put]

/-- A redundant event leaves the latches as they are (R16). -/
theorem Latches.see_redundant {l : Latches} {e : Event} (h : e.redundant l = true) : l.see e = l := by
  cases e <;> simp only [Event.redundant, beq_iff_eq, Bool.false_eq_true] at h
  exact Latches.put_level h

/-- What is observed of two stretches of events, one after the other (R16). -/
theorem observed_append (l : Latches) (es es' : List Event) :
    observed l (es ++ es') = observed l es ++ observed (l.seeAll es) es' := by
  induction es generalizing l with
  | nil => rfl
  | cons e es ih =>
    simp only [List.cons_append, observed, Latches.seeAll_cons, ih]
    split
    · next h => rw [Latches.see_redundant h]
    · rfl

/-- The events `es` lead from `s` to `t`: they join the trace, and the latches are where they leave them (R13, R16). -/
def Leads (s t : State) (es : List Event) : Prop := TraceAdds s t es ∧ s.latches.seeAll es = t.latches

theorem Leads.nil {s t : State} (h : t.trace = s.trace) (l : SameLatches s t) : Leads s t [] :=
  ⟨by simp [TraceAdds, h], by obtain ⟨a, b, c⟩ := l; simp [State.latches, a, b, c]⟩

theorem Leads.trans {s t u : State} {es es' : List Event} (h : Leads s t es) (k : Leads t u es') :
    Leads s u (es ++ es') :=
  ⟨by rw [TraceAdds, k.1, h.1, List.append_assoc], by rw [Latches.seeAll_append, h.2, k.2]⟩

/-! ### What any activity on the pins keeps -/

/-- `t` is reached from `s` by pin events, samples and delays alone: the registers stand, time does not run back, the
draws and the trace only grow (R13, R14, R16). -/
structure Wire (s t : State) : Prop where
  conf : SameConfiguration s t
  inputs : SameInputs s t
  res : t.res = s.res
  fsm : t.fsm = s.fsm
  fsmLog : t.fsmLog = s.fsmLog
  now : s.world.now ≤ t.world.now
  draws : s.world.misoIx ≤ t.world.misoIx
  trace : ∃ es, Leads s t es

theorem Wire.refl (s : State) : Wire s s :=
  ⟨⟨rfl, rfl, rfl, rfl, rfl⟩, ⟨rfl, rfl, rfl, rfl, rfl, rfl⟩, rfl, rfl, rfl, le_rfl, le_rfl, [], .nil rfl ⟨rfl, rfl, rfl⟩⟩

theorem Wire.trans {s t u : State} (h : Wire s t) (k : Wire t u) : Wire s u := by
  obtain ⟨⟨a1, a2, a3, a4, a5⟩, ⟨b1, b2, b3, b4, b5, b6⟩, c, d, e, f, g, es, i⟩ := h
  obtain ⟨⟨a1', a2', a3', a4', a5'⟩, ⟨b1', b2', b3', b4', b5', b6'⟩, c', d', e', f', g', es', i'⟩ := k
  exact ⟨⟨a1'.trans a1, a2'.trans a2, a3'.trans a3, a4'.trans a4, a5'.trans a5⟩,
    ⟨b1'.trans b1, b2'.trans b2, b3'.trans b3, b4'.trans b4, b5'.trans b5, b6'.trans b6⟩,
    c'.trans c, d'.trans d, e'.trans e, f.trans f', g.trans g', es ++ es', i.trans i'⟩

theorem Wire.setup {s t : State} (h : Wire s t) : t.setup = s.setup := by
  simp [State.setup, h.conf.1, h.conf.2.2.1]

theorem Wire.cfg {s t : State} (h : Wire s t) : t.cfg = s.cfg := h.inputs.2.2.2.1

theorem Wire.miso {s t : State} (h : Wire s t) : t.world.miso = s.world.miso := h.inputs.2.2.2.2.1

theorem Wire.ready {s t : State} (h : Wire s t) (r : WireReady s) : WireReady t := by
  obtain ⟨_, h2, _, h4, h5⟩ := h.conf; exact ⟨h5 ▸ r.1, h2 ▸ r.2.1, h4 ▸ r.2.2⟩

/-- A change of the position or the working buffer alone is no activity at all. -/
theorem Wire.of_transient {s t : State} (h : t = { s with pos := t.pos, wbuf := t.wbuf }) : Wire s t := by
  rw [h]
  exact ⟨⟨rfl, rfl, rfl, rfl, rfl⟩, ⟨rfl, rfl, rfl, rfl, rfl, rfl⟩, rfl, rfl, rfl, le_rfl, le_rfl, [],
    .nil rfl ⟨rfl, rfl, rfl⟩⟩

theorem wire_atPhase (i j : Nat) (ph : Phase) (s : State) : Wire s (s.atPhase i j ph) := Wire.of_transient rfl
theorem wire_leaveCells (s : State) : Wire s s.leaveCells := Wire.of_transient rfl
theorem wire_hold (bs : List Byte) (s : State) : Wire s (s.hold bs) := Wire.of_transient rfl
theorem wire_setBufBit (i k : Nat) (s : State) : Wire s (s.setBufBit i k) := Wire.of_transient rfl

theorem wire_elapse (d : Nat) (s : State) : Wire s (s.elapse d) := by
  refine ⟨?_, ?_, ?_, ?_, ?_, ?_, ?_, [], .nil rfl ⟨rfl, rfl, rfl⟩⟩ <;> simp [SameConfiguration, SameInputs]

/-- The latches after a pin has been set are those its event leaves (R13). -/
theorem latches_setLatch (p : Pin) (v : Level) (s : State) : (s.setLatch p v).latches = s.latches.put p v := by
  cases p <;> rfl

theorem leads_pinOut (p : Pin) (v : Level) (s : State) : Leads s (s.pinOut p v) [.out p v] :=
  ⟨by simp [TraceAdds, State.pinOut], (latches_setLatch p v s).symm⟩

theorem leads_pinCfgOut (p : Pin) (v : Level) (s : State) : Leads s (s.pinCfgOut p v) [.cfgOut p v] :=
  ⟨by simp [TraceAdds, State.pinCfgOut], (latches_setLatch p v s).symm⟩

theorem leads_pinCfgIn (p : Pin) (s : State) : Leads s (s.pinCfgIn p) [.cfgIn p] :=
  ⟨by simp [TraceAdds, State.pinCfgIn], rfl⟩

theorem wire_pinOut (p : Pin) (v : Level) (s : State) : Wire s (s.pinOut p v) := by
  refine ⟨?_, ?_, ?_, ?_, ?_, ?_, ?_, _, leads_pinOut p v s⟩ <;> simp [State.pinOut, SameConfiguration, SameInputs]

theorem wire_pinIn (s : State) : Wire s s.pinIn.2 := by
  refine ⟨?_, ?_, ?_, ?_, ?_, ?_, ?_, [.sampled (s.world.misoAt s.world.misoIx)], ?_, rfl⟩ <;>
    simp [State.pinIn, SameConfiguration, SameInputs, TraceAdds]

theorem wire_delay (d : Nat) (s : State) : Wire s (s.delay d) := by
  refine ⟨?_, ?_, ?_, ?_, ?_, ?_, ?_, [.wait d], ?_, rfl⟩ <;>
    simp [State.delay, SameConfiguration, SameInputs, TraceAdds]

theorem wire_readClock (s : State) : Wire s s.readClock.2 := wire_elapse 0 s

theorem wire_chipSelectIf (b : Bool) (v : Level) (s : State) : Wire s (chipSelectIf b v s) := by
  unfold chipSelectIf; split
  · exact wire_pinOut _ _ s
  · exact Wire.refl s

/-! ### The primitives, field by field -/

@[simp] theorem pinOut_trace (p : Pin) (v : Level) (s : State) : (s.pinOut p v).trace = s.trace ++ [.out p v] := by
  simp [State.pinOut]
@[simp] theorem pinOut_wbuf (p : Pin) (v : Level) (s : State) : (s.pinOut p v).wbuf = s.wbuf := by simp [State.pinOut]
@[simp] theorem pinOut_sckQ (p : Pin) (v : Level) (s : State) :
    (s.pinOut p v).sckQ = if p = .sck then v else s.sckQ := by simp [State.pinOut]
@[simp] theorem pinOut_mosiQ (p : Pin) (v : Level) (s : State) :
    (s.pinOut p v).mosiQ = if p = .mosi then v else s.mosiQ := by simp [State.pinOut]
@[simp] theorem pinOut_csnQ (p : Pin) (v : Level) (s : State) :
    (s.pinOut p v).csnQ = if p = .csn then v else s.csnQ := by simp [State.pinOut]
@[simp] theorem pinOut_misoIx (p : Pin) (v : Level) (s : State) :
    (s.pinOut p v).world.misoIx = s.world.misoIx := by simp [State.pinOut]
@[simp] theorem pinOut_miso (p : Pin) (v : Level) (s : State) : (s.pinOut p v).world.miso = s.world.miso := by
  simp [State.pinOut]
@[simp] theorem pinOut_misoAt (p : Pin) (v : Level) (s : State) : (s.pinOut p v).world.misoAt = s.world.misoAt :=
  World.misoAt_congr (pinOut_miso p v s)
@[simp] theorem pinOut_pos (p : Pin) (v : Level) (s : State) : (s.pinOut p v).pos = s.pos := by simp [State.pinOut]

@[simp] theorem pinIn_fst (s : State) : s.pinIn.1 = s.world.misoAt s.world.misoIx := rfl
@[simp] theorem pinIn_trace (s : State) :
    s.pinIn.2.trace = s.trace ++ [.sampled (s.world.misoAt s.world.misoIx)] := by simp [State.pinIn]
@[simp] theorem pinIn_wbuf (s : State) : s.pinIn.2.wbuf = s.wbuf := by simp [State.pinIn]
@[simp] theorem pinIn_sckQ (s : State) : s.pinIn.2.sckQ = s.sckQ := by simp [State.pinIn]
@[simp] theorem pinIn_mosiQ (s : State) : s.pinIn.2.mosiQ = s.mosiQ := by simp [State.pinIn]
@[simp] theorem pinIn_csnQ (s : State) : s.pinIn.2.csnQ = s.csnQ := by simp [State.pinIn]
@[simp] theorem pinIn_misoIx (s : State) : s.pinIn.2.world.misoIx = s.world.misoIx + 1 := by simp [State.pinIn]
@[simp] theorem pinIn_miso (s : State) : s.pinIn.2.world.miso = s.world.miso := by simp [State.pinIn]
@[simp] theorem pinIn_misoAt (s : State) : s.pinIn.2.world.misoAt = s.world.misoAt :=
  World.misoAt_congr (pinIn_miso s)

@[simp] theorem delay_trace (d : Nat) (s : State) : (s.delay d).trace = s.trace ++ [.wait d] := by simp [State.delay]
@[simp] theorem delay_wbuf (d : Nat) (s : State) : (s.delay d).wbuf = s.wbuf := by simp [State.delay]
@[simp] theorem delay_sckQ (d : Nat) (s : State) : (s.delay d).sckQ = s.sckQ := by simp [State.delay]
@[simp] theorem delay_mosiQ (d : Nat) (s : State) : (s.delay d).mosiQ = s.mosiQ := by simp [State.delay]
@[simp] theorem delay_csnQ (d : Nat) (s : State) : (s.delay d).csnQ = s.csnQ := by simp [State.delay]
@[simp] theorem delay_misoIx (d : Nat) (s : State) : (s.delay d).world.misoIx = s.world.misoIx := by
  simp [State.delay]
@[simp] theorem delay_pos (d : Nat) (s : State) : (s.delay d).pos = s.pos := by simp [State.delay]

/-- A delay lasts at least its length (R14). -/
theorem delay_now (d : Nat) (s : State) : s.world.now + d ≤ (s.delay d).world.now := by simp [State.delay]

@[simp] theorem readClock_trace (s : State) : s.readClock.2.trace = s.trace := by simp [State.readClock]
@[simp] theorem readClock_fst (s : State) : s.readClock.1 = s.readClock.2.world.now := rfl
@[simp] theorem readClock_sckQ (s : State) : s.readClock.2.sckQ = s.sckQ := by simp [State.readClock]
@[simp] theorem readClock_mosiQ (s : State) : s.readClock.2.mosiQ = s.mosiQ := by simp [State.readClock]
@[simp] theorem readClock_csnQ (s : State) : s.readClock.2.csnQ = s.csnQ := by simp [State.readClock]
@[simp] theorem readClock_misoIx (s : State) : s.readClock.2.world.misoIx = s.world.misoIx := by
  simp [State.readClock]

@[simp] theorem chipSelectIf_trace (b : Bool) (v : Level) (s : State) :
    (chipSelectIf b v s).trace = s.trace ++ flagEvents b v := by
  cases b <;> simp [chipSelectIf, flagEvents]
@[simp] theorem chipSelectIf_wbuf (b : Bool) (v : Level) (s : State) : (chipSelectIf b v s).wbuf = s.wbuf := by
  cases b <;> simp [chipSelectIf]
@[simp] theorem chipSelectIf_sckQ (b : Bool) (v : Level) (s : State) : (chipSelectIf b v s).sckQ = s.sckQ := by
  cases b <;> simp [chipSelectIf]
@[simp] theorem chipSelectIf_mosiQ (b : Bool) (v : Level) (s : State) : (chipSelectIf b v s).mosiQ = s.mosiQ := by
  cases b <;> simp [chipSelectIf]
@[simp] theorem chipSelectIf_csnQ (b : Bool) (v : Level) (s : State) :
    (chipSelectIf b v s).csnQ = if b then v else s.csnQ := by
  cases b <;> simp [chipSelectIf]
@[simp] theorem chipSelectIf_misoIx (b : Bool) (v : Level) (s : State) :
    (chipSelectIf b v s).world.misoIx = s.world.misoIx := by
  cases b <;> simp [chipSelectIf]

/-! ### One cell -/

/-- A stretch of pin activity: it keeps the registers, adds the events `es`, takes `draws` samples, and does not touch
CS_N (R61, R147). -/
structure Runs (s t : State) (es : List Event) (draws : Nat) : Prop where
  wire : Wire s t
  trace : t.trace = s.trace ++ es
  misoIx : t.world.misoIx = s.world.misoIx + draws
  csnQ : t.csnQ = s.csnQ

theorem Runs.refl (s : State) : Runs s s [] 0 := ⟨Wire.refl s, by simp, rfl, rfl⟩

theorem Runs.trans {s t v : State} {es es' : List Event} {d d' : Nat} (h : Runs s t es d) (k : Runs t v es' d') :
    Runs s v (es ++ es') (d + d') :=
  ⟨h.wire.trans k.wire, by rw [k.trace, h.trace, List.append_assoc], by rw [k.misoIx, h.misoIx, Nat.add_assoc],
    k.csnQ.trans h.csnQ⟩

theorem Runs.misoAt {s t : State} {es : List Event} {d : Nat} (h : Runs s t es d) :
    t.world.misoAt = s.world.misoAt := World.misoAt_congr h.wire.miso

theorem Runs.of_transient {s t : State} (h : t = { s with pos := t.pos, wbuf := t.wbuf }) : Runs s t [] 0 :=
  ⟨Wire.of_transient h, by rw [h]; simp, by rw [h]; simp, by rw [h]⟩

/-- A stretch that ends, as every bit cell does, with SCK at its idle level (R149). -/
structure CellRuns (u : Setup) (s t : State) (es : List Event) (draws : Nat) : Prop extends Runs s t es draws where
  sckQ : t.sckQ = u.idle

theorem wire_cellEdges (u : Setup) (i j : Nat) (s : State) : Wire s (trailEdge u i j (leadEdge u i j s)) :=
  (((wire_pinOut _ _ s).trans (wire_atPhase _ _ _ _)).trans (wire_pinOut _ _ _)).trans (wire_atPhase _ _ _ _)

theorem wire_driveBit (i j : Nat) (b : Bool) (s : State) : Wire s (driveBit i j b s) :=
  (wire_pinOut _ _ s).trans (wire_atPhase _ _ _ _)

theorem wire_sampledPulse (u : Setup) (i j : Nat) (s : State) : Wire s (sampledPulse u i j s).2 := by
  unfold sampledPulse; split
  · exact ((((wire_pinOut _ _ s).trans (wire_atPhase _ _ _ _)).trans (wire_pinIn _)).trans (wire_pinOut _ _ _)).trans
      (wire_atPhase _ _ _ _)
  · exact (wire_cellEdges u i j s).trans (wire_pinIn _)

theorem writeCell_runs (u : Setup) (i j : Nat) (b : Bool) (s : State) :
    CellRuns u s (writeCell u i j b s) (writeCellEvents u b) 0 := by
  refine ⟨⟨?_, ?_, ?_, ?_⟩, ?_⟩
  · exact (wire_driveBit i j b s).trans (wire_cellEdges u i j _)
  all_goals simp [writeCell, trailEdge, leadEdge, driveBit, writeCellEvents]

theorem sampledPulse_fst (u : Setup) (i j : Nat) (s : State) :
    (sampledPulse u i j s).1 = s.world.misoAt s.world.misoIx := by
  unfold sampledPulse; split <;> simp [trailEdge, leadEdge]

theorem sampledPulse_runs (u : Setup) (i j : Nat) (s : State) :
    CellRuns u s (sampledPulse u i j s).2 (readCellEvents u (s.world.misoAt s.world.misoIx)) 1 := by
  refine ⟨⟨?_, ?_, ?_, ?_⟩, ?_⟩
  · exact wire_sampledPulse u i j s
  all_goals cases h : u.onLead <;> simp [sampledPulse, h, trailEdge, leadEdge, readCellEvents]

theorem sampledPulse_wbuf (u : Setup) (i j : Nat) (s : State) : (sampledPulse u i j s).2.wbuf = s.wbuf := by
  cases h : u.onLead <;> simp [sampledPulse, h, trailEdge, leadEdge]

theorem sampledPulse_mosiQ (u : Setup) (i j : Nat) (s : State) : (sampledPulse u i j s).2.mosiQ = s.mosiQ := by
  cases h : u.onLead <;> simp [sampledPulse, h, trailEdge, leadEdge]

/-- Storing a sample changes the working buffer alone. -/
theorem storeSample_transient (u : Setup) (i j : Nat) (r : Level × State) :
    storeSample u i j r = { r.2 with wbuf := (storeSample u i j r).wbuf } := by
  unfold storeSample; split <;> rfl

theorem storeSample_wbuf (u : Setup) (i j : Nat) (r : Level × State) :
    (storeSample u i j r).wbuf =
      r.2.wbuf.modify i (fun b => if bitOf r.1 then b ||| BitVec.twoPow 8 (bitPos u.order j) else b) := by
  unfold storeSample; split
  · next h => simp
  · next h => exact (List.modify_id _ _).symm

theorem CellRuns.store {u : Setup} {i j : Nat} {s : State} {r : Level × State} {es : List Event} {n : Nat}
    (h : CellRuns u s r.2 es n) : CellRuns u s (storeSample u i j r) es n := by
  rw [storeSample_transient]
  exact ⟨⟨h.wire.trans (Wire.of_transient rfl), h.trace, h.misoIx, h.csnQ⟩, h.sckQ⟩

theorem readCellStored_runs (u : Setup) (i j : Nat) (s : State) :
    CellRuns u s (storeSample u i j (readCell u i j s)) (readCellEvents u (s.world.misoAt s.world.misoIx)) 1 :=
  (sampledPulse_runs u i j s).store

theorem xferCellStored_runs (u : Setup) (i j : Nat) (b : Bool) (s : State) :
    CellRuns u s (storeSample u i j (xferCell u i j b s))
      (xferCellEvents u b (s.world.misoAt s.world.misoIx)) 1 := by
  have h := sampledPulse_runs u i j (driveBit i j b s)
  refine CellRuns.store ⟨⟨(wire_driveBit i j b s).trans h.wire, ?_, ?_, ?_⟩, h.sckQ⟩
  · simpa [xferCell, driveBit, xferCellEvents] using h.trace
  · simpa [xferCell, driveBit] using h.misoIx
  · simpa [xferCell, driveBit] using h.csnQ

end Sys2Proof.Machine
end

