-- ==== Sys2Proof/Laws/Loops.lean ====
section
/-! SUPPORT. What the loops over cells and bytes do: the events of R141, R142 and R145, the bytes that come in (R54),
and where SCK and MOSI are left (R149, R34). -/

namespace Sys2Proof.Machine

/-! ### Eight cells -/

theorem forCells_succ (f : Nat → State → State) (s : State) :
    forCells f s = f 7 ((List.range 7).foldl (fun t j => f j t) s) := rfl

/-- A loop of cells, each of which takes `d` samples, is one stretch of activity. -/
theorem foldCells_runs {d : Nat} (f : Nat → State → State) (ev : Nat → Level → List Event)
    (h : ∀ j t, Runs t (f j t) (ev j (t.world.misoAt t.world.misoIx)) d) (n : Nat) (s : State) :
    Runs s ((List.range n).foldl (fun t j => f j t) s)
      ((List.range n).flatMap fun j => ev j (s.world.misoAt (s.world.misoIx + d * j))) (d * n) := by
  induction n with
  | zero => exact Runs.refl s
  | succ n ih =>
    have k := ih.trans (h n _)
    rw [ih.misoAt, ih.misoIx] at k
    simpa [List.range_succ, Nat.mul_succ] using k

theorem forCells_runs {u : Setup} {d : Nat} (f : Nat → State → State) (ev : Nat → Level → List Event)
    (h : ∀ j t, CellRuns u t (f j t) (ev j (t.world.misoAt t.world.misoIx)) d) (s : State) :
    CellRuns u s (forCells f s)
      ((List.range 8).flatMap fun j => ev j (s.world.misoAt (s.world.misoIx + d * j))) (d * 8) :=
  ⟨foldCells_runs f ev (fun j t => (h j t).toRuns) 8 s, forCells_succ f s ▸ (h 7 _).sckQ⟩

theorem writeByte_runs (u : Setup) (i : Nat) (b : Byte) (s : State) :
    CellRuns u s (writeByte u i b s) ((wireBits u.order b).flatMap (writeCellEvents u)) 0 := by
  have := forCells_runs _ (fun j _ => writeCellEvents u (b.getLsbD (bitPos u.order j)))
    (fun j t => writeCell_runs u i j _ t) s
  simpa [writeByte, wireBits, List.flatMap_map] using this

theorem readByte_runs (u : Setup) (i : Nat) (s : State) :
    CellRuns u s (readByte u i s)
      ((drawnLevels s.world s.world.misoIx 8).flatMap (readCellEvents u)) 8 := by
  have := forCells_runs _ (fun _ v => readCellEvents u v) (fun j t => readCellStored_runs u i j t) s
  simpa [readByte, drawnLevels, List.flatMap_map] using this

/-- The bits the cells of byte `i` of a TRANSFER drive under a write index (R145, R146). -/
def drivenBits (o : BitOrder) (w : WriteIndex) (i : Nat) (b : Byte) : List Bool :=
  (List.range 8).map fun j => b.getLsbD (bitPos o (writeIndex w i j))

/-- The bits a TRANSFER drives from byte `i` on. -/
def drivenBitsFrom (o : BitOrder) (w : WriteIndex) (i : Nat) : List Byte → List Bool
  | [] => []
  | b :: rest => drivenBits o w i b ++ drivenBitsFrom o w (i + 1) rest

theorem drivenBitsFrom_bit (o : BitOrder) (i : Nat) (bs : List Byte) :
    drivenBitsFrom o .bit i bs = wireBitsOf o bs := by
  induction bs generalizing i with
  | nil => rfl
  | cons b rest ih => rw [drivenBitsFrom, ih]; rfl

theorem drivenBitsFrom_byte (o : BitOrder) (i : Nat) (bs : List Byte) :
    drivenBitsFrom o .byte i bs = (bs.zipIdx i).flatMap fun c => List.replicate 8 (c.1.getLsbD (bitPos o c.2)) := by
  induction bs generalizing i with
  | nil => rfl
  | cons b rest ih => rw [drivenBitsFrom, ih, List.zipIdx_cons, List.flatMap_cons]; rfl

/-- The bits the machine's loop drives are those R145 and R146 give. -/
theorem drivenBitsFrom_zero (s : State) (bs : List Byte) :
    drivenBitsFrom s.order s.cfg.xferWriteIndex 0 bs = transferBits s bs := by
  unfold transferBits
  cases s.cfg.xferWriteIndex with
  | bit => exact drivenBitsFrom_bit _ _ _
  | byte => exact drivenBitsFrom_byte _ _ _

@[simp] theorem drivenBitsFrom_length (o : BitOrder) (w : WriteIndex) (i : Nat) (bs : List Byte) :
    (drivenBitsFrom o w i bs).length = 8 * bs.length := by
  induction bs generalizing i with
  | nil => rfl
  | cons b rest ih => simp [drivenBitsFrom, drivenBits, ih]; omega

theorem xferEventsOf_append (u : Setup) {a a' : List Bool} {b b' : List Level} (h : a.length = b.length) :
    xferEventsOf u (a ++ a') (b ++ b') = xferEventsOf u a b ++ xferEventsOf u a' b' := by
  simp [xferEventsOf, List.zip_append h]

theorem xferByte_runs (u : Setup) (w : WriteIndex) (i : Nat) (b : Byte) (s : State) :
    CellRuns u s (xferByte u w i b s)
      (xferEventsOf u (drivenBits u.order w i b) (drawnLevels s.world s.world.misoIx 8)) 8 := by
  have := forCells_runs _ (fun j v => xferCellEvents u (b.getLsbD (bitPos u.order (writeIndex w i j))) v)
    (fun j t => xferCellStored_runs u i j _ t) s
  simpa [xferByte, drawnLevels, xferEventsOf, drivenBits, List.zip_map', List.flatMap_map] using this

/-! ### Bytes -/

theorem writeFrom_runs (u : Setup) (i : Nat) (bs : List Byte) (s : State) :
    Runs s (writeFrom u i bs s) ((wireBitsOf u.order bs).flatMap (writeCellEvents u)) 0 := by
  induction bs generalizing i s with
  | nil => exact Runs.refl s
  | cons b rest ih =>
    simpa [writeFrom, wireBitsOf] using (writeByte_runs u i b s).toRuns.trans (ih (i + 1) _)

theorem readFrom_runs (u : Setup) (i n : Nat) (s : State) :
    Runs s (readFrom u i n s) ((drawnLevels s.world s.world.misoIx (8 * n)).flatMap (readCellEvents u)) (8 * n) := by
  induction n generalizing i s with
  | zero => exact Runs.refl s
  | succ n ih =>
    have h := (readByte_runs u i s).toRuns
    have k := h.trans (ih (i + 1) _)
    rw [drawnLevels_congr h.wire.miso, h.misoIx, ← List.flatMap_append, ← drawnLevels_add] at k
    simpa [readFrom, Nat.mul_succ, Nat.add_comm] using k

theorem xferFrom_runs (u : Setup) (w : WriteIndex) (i : Nat) (bs : List Byte) (s : State) :
    Runs s (xferFrom u w i bs s)
      (xferEventsOf u (drivenBitsFrom u.order w i bs) (drawnLevels s.world s.world.misoIx (8 * bs.length)))
      (8 * bs.length) := by
  induction bs generalizing i s with
  | nil => exact Runs.refl s
  | cons b rest ih =>
    have h := (xferByte_runs u w i b s).toRuns
    have k := h.trans (ih (i + 1) _)
    rw [drawnLevels_congr h.wire.miso, h.misoIx,
      ← xferEventsOf_append u (by simp [drivenBits]), ← drawnLevels_add] at k
    rw [show 8 * (b :: rest).length = 8 + 8 * rest.length by simp; omega]
    exact k

theorem writeFrom_sckQ (u : Setup) (i : Nat) (bs : List Byte) (s : State) :
    (writeFrom u i bs s).sckQ = if bs = [] then s.sckQ else u.idle := by
  induction bs generalizing i s with
  | nil => rfl
  | cons b rest ih => rw [writeFrom, ih, (writeByte_runs u i b s).sckQ]; simp

theorem readFrom_sckQ (u : Setup) (i n : Nat) (s : State) :
    (readFrom u i n s).sckQ = if n = 0 then s.sckQ else u.idle := by
  induction n generalizing i s with
  | zero => rfl
  | succ n ih => rw [readFrom, ih, (readByte_runs u i s).sckQ]; simp

theorem xferFrom_sckQ (u : Setup) (w : WriteIndex) (i : Nat) (bs : List Byte) (s : State) :
    (xferFrom u w i bs s).sckQ = if bs = [] then s.sckQ else u.idle := by
  induction bs generalizing i s with
  | nil => rfl
  | cons b rest ih => rw [xferFrom, ih, (xferByte_runs u w i b s).sckQ]; simp

/-! ### MOSI -/

theorem writeCell_mosiQ (u : Setup) (i j : Nat) (b : Bool) (s : State) :
    (writeCell u i j b s).mosiQ = levelOf b := by
  simp [writeCell, trailEdge, leadEdge, driveBit]

theorem storeSample_mosiQ (u : Setup) (i j : Nat) (r : Level × State) : (storeSample u i j r).mosiQ = r.2.mosiQ := by
  rw [storeSample_transient]

theorem readCellStored_mosiQ (u : Setup) (i j : Nat) (s : State) :
    (storeSample u i j (readCell u i j s)).mosiQ = s.mosiQ := by
  rw [storeSample_mosiQ]; exact sampledPulse_mosiQ u i j s

theorem xferCellStored_mosiQ (u : Setup) (i j : Nat) (b : Bool) (s : State) :
    (storeSample u i j (xferCell u i j b s)).mosiQ = levelOf b := by
  rw [storeSample_mosiQ, xferCell, sampledPulse_mosiQ]; simp [driveBit]

theorem lastDriven_append (a b : List Bool) (v : Level) : lastDriven (a ++ b) v = lastDriven b (lastDriven a v) := by
  cases b using List.reverseRecOn <;> simp [lastDriven, List.getLast?_append]

theorem writeFrom_mosiQ (u : Setup) (i : Nat) (bs : List Byte) (s : State) :
    (writeFrom u i bs s).mosiQ = lastDriven (wireBitsOf u.order bs) s.mosiQ := by
  induction bs generalizing i s with
  | nil => rfl
  | cons b rest ih =>
    rw [writeFrom, ih, writeByte, forCells_succ, writeCell_mosiQ]
    rw [show wireBitsOf u.order (b :: rest) = wireBits u.order b ++ wireBitsOf u.order rest from rfl,
      lastDriven_append]
    rfl

theorem xferFrom_mosiQ (u : Setup) (w : WriteIndex) (i : Nat) (bs : List Byte) (s : State) :
    (xferFrom u w i bs s).mosiQ = lastDriven (drivenBitsFrom u.order w i bs) s.mosiQ := by
  induction bs generalizing i s with
  | nil => rfl
  | cons b rest ih =>
    rw [xferFrom, ih, xferByte, forCells_succ, xferCellStored_mosiQ]
    rw [drivenBitsFrom, lastDriven_append]; rfl

theorem readFrom_mosiQ (u : Setup) (i n : Nat) (s : State) : (readFrom u i n s).mosiQ = s.mosiQ := by
  have fold : ∀ (i m : Nat) (t : State),
      ((List.range m).foldl (fun t j => storeSample u i j (readCell u i j t)) t).mosiQ = t.mosiQ := by
    intro i m t
    induction m with
    | zero => rfl
    | succ m ih => rw [List.range_succ, List.foldl_append]; simp [readCellStored_mosiQ, ih]
  induction n generalizing i s with
  | zero => rfl
  | succ n ih => rw [readFrom, ih, readByte, forCells, fold]

/-! ### The working buffer -/

/-- Samples set bits of a byte, one by one (R31, R142). -/
def orSamples (o : BitOrder) (sample : Nat → Level) (n : Nat) (b : Byte) : Byte :=
  (List.range n).foldl (fun b j => if bitOf (sample j) then b ||| BitVec.twoPow 8 (bitPos o j) else b) b

/-- Eight samples set in a zero byte make the byte of R54 (R143). -/
theorem orSamples_eq_assembleByte (o : BitOrder) (sample : Nat → Level) :
    orSamples o sample 8 0x00 = assembleByte o sample := by
  have msb : ∀ a b c d e f g h : Bool,
      (((((((((0x00 : Byte) |> fun x => if a then x ||| BitVec.twoPow 8 7 else x) |>
        fun x => if b then x ||| BitVec.twoPow 8 6 else x) |> fun x => if c then x ||| BitVec.twoPow 8 5 else x) |>
        fun x => if d then x ||| BitVec.twoPow 8 4 else x) |> fun x => if e then x ||| BitVec.twoPow 8 3 else x) |>
        fun x => if f then x ||| BitVec.twoPow 8 2 else x) |> fun x => if g then x ||| BitVec.twoPow 8 1 else x) |>
        fun x => if h then x ||| BitVec.twoPow 8 0 else x) =
      BitVec.ofNat 8 [if a then 128 else 0, if b then 64 else 0, if c then 32 else 0, if d then 16 else 0,
        if e then 8 else 0, if f then 4 else 0, if g then 2 else 0, if h then 1 else 0].sum := by decide
  have lsb : ∀ a b c d e f g h : Bool,
      (((((((((0x00 : Byte) |> fun x => if a then x ||| BitVec.twoPow 8 0 else x) |>
        fun x => if b then x ||| BitVec.twoPow 8 1 else x) |> fun x => if c then x ||| BitVec.twoPow 8 2 else x) |>
        fun x => if d then x ||| BitVec.twoPow 8 3 else x) |> fun x => if e then x ||| BitVec.twoPow 8 4 else x) |>
        fun x => if f then x ||| BitVec.twoPow 8 5 else x) |> fun x => if g then x ||| BitVec.twoPow 8 6 else x) |>
        fun x => if h then x ||| BitVec.twoPow 8 7 else x) =
      BitVec.ofNat 8 [if a then 1 else 0, if b then 2 else 0, if c then 4 else 0, if d then 8 else 0,
        if e then 16 else 0, if f then 32 else 0, if g then 64 else 0, if h then 128 else 0].sum := by decide
  cases o
  · exact msb _ _ _ _ _ _ _ _
  · exact lsb _ _ _ _ _ _ _ _

/-- Cells that store their sample at byte `i` of the working buffer set its bits one by one. -/
theorem foldCells_wbuf (u : Setup) (i : Nat) (f : Nat → State → State) (ev : Nat → Level → List Event)
    (hr : ∀ j t, Runs t (f j t) (ev j (t.world.misoAt t.world.misoIx)) 1)
    (hw : ∀ j t, (f j t).wbuf = t.wbuf.modify i
      (fun b => if bitOf (t.world.misoAt t.world.misoIx) then b ||| BitVec.twoPow 8 (bitPos u.order j) else b))
    (n : Nat) (s : State) :
    ((List.range n).foldl (fun t j => f j t) s).wbuf =
      s.wbuf.modify i (orSamples u.order (fun j => s.world.misoAt (s.world.misoIx + j)) n) := by
  induction n with
  | zero => exact (List.modify_id _ _).symm
  | succ n ih =>
    have r := foldCells_runs f ev hr n s
    simp only [List.range_succ, List.foldl_append, List.foldl_cons, List.foldl_nil]
    rw [hw, ih, r.misoAt, r.misoIx, List.modify_modify_eq]
    congr 1; funext b
    simp [orSamples, List.range_succ, Function.comp]

theorem modify_at_length (done : List Byte) (b : Byte) (rest : List Byte) (f : Byte → Byte) :
    (done ++ b :: rest).modify done.length f = done ++ f b :: rest := by
  induction done with
  | nil => rfl
  | cons a as ih => simpa using ih

theorem readByte_wbuf (u : Setup) (done rest : List Byte) (s : State) (h : s.wbuf = done ++ 0x00 :: rest) :
    (readByte u done.length s).wbuf =
      done ++ assembleByte u.order (fun j => s.world.misoAt (s.world.misoIx + j)) :: rest := by
  rw [readByte, forCells, foldCells_wbuf u done.length _ (fun _ v => readCellEvents u v)
    (fun j t => (readCellStored_runs u _ j t).toRuns), h, modify_at_length, orSamples_eq_assembleByte]
  intro j t
  rw [storeSample_wbuf, readCell, sampledPulse_wbuf, sampledPulse_fst]

theorem xferByte_wbuf (u : Setup) (w : WriteIndex) (b : Byte) (done rest : List Byte) (s : State)
    (h : s.wbuf = done ++ 0x00 :: rest) :
    (xferByte u w done.length b s).wbuf =
      done ++ assembleByte u.order (fun j => s.world.misoAt (s.world.misoIx + j)) :: rest := by
  rw [xferByte, forCells, foldCells_wbuf u done.length _
    (fun j v => xferCellEvents u (b.getLsbD (bitPos u.order (writeIndex w done.length j))) v)
    (fun j t => (xferCellStored_runs u _ j _ t).toRuns), h, modify_at_length, orSamples_eq_assembleByte]
  intro j t
  rw [storeSample_wbuf, xferCell, sampledPulse_wbuf, sampledPulse_fst]
  simp [driveBit]

theorem readFrom_wbuf (u : Setup) (n : Nat) (done : List Byte) (s : State)
    (h : s.wbuf = done ++ List.replicate n 0x00) :
    (readFrom u done.length n s).wbuf = done ++ drawnBytes u.order s.world s.world.misoIx n := by
  induction n generalizing done s with
  | zero => simpa [readFrom, drawnBytes] using h
  | succ n ih =>
    have r := readByte_runs u done.length s
    have k := readByte_wbuf u done (List.replicate n 0x00) s (by simpa [List.replicate_succ] using h)
    rw [readFrom, drawnBytes_succ]
    have := ih (done ++ [assembleByte u.order fun j => s.world.misoAt (s.world.misoIx + j)])
      (readByte u done.length s) (by simpa using k)
    rw [List.length_append, List.length_singleton] at this
    rw [this, r.misoIx, drawnBytes_congr r.wire.miso]; simp

theorem xferFrom_wbuf (u : Setup) (w : WriteIndex) (bs : List Byte) (done : List Byte) (s : State)
    (h : s.wbuf = done ++ List.replicate bs.length 0x00) :
    (xferFrom u w done.length bs s).wbuf = done ++ drawnBytes u.order s.world s.world.misoIx bs.length := by
  induction bs generalizing done s with
  | nil => simpa [xferFrom, drawnBytes] using h
  | cons b rest ih =>
    have r := xferByte_runs u w done.length b s
    have k := xferByte_wbuf u w b done (List.replicate rest.length 0x00) s (by simpa [List.replicate_succ] using h)
    rw [xferFrom, List.length_cons, drawnBytes_succ]
    have := ih (done ++ [assembleByte u.order fun j => s.world.misoAt (s.world.misoIx + j)])
      (xferByte u w done.length b s) (by simpa using k)
    rw [List.length_append, List.length_singleton] at this
    rw [this, r.misoIx, drawnBytes_congr r.wire.miso]; simp

end Sys2Proof.Machine
end

