-- ==== Sys2Proof/Laws/Res.lean ====
section
/-! SUPPORT. How to reason about a piece of an operation: what holds of the state and the value when it returns, of
the state and the error when it raises, and whether it may refuse. -/

namespace Sys2Proof.Machine

/-- `m` returns only what `ok` allows, raises only what `bad` allows, and refuses only if `may`. -/
def Res.Sat {α : Type} (ok : α → State → Prop) (bad : Error → State → Prop) (may : Prop) (m : Res α) : Prop :=
  match m with
  | .ok v t => ok v t
  | .raised e t => bad e t
  | .refused _ => may

theorem Res.Sat.bind {α β : Type} {Q : α → State → Prop} {P : β → State → Prop} {E : Error → State → Prop} {R : Prop}
    {m : Res α} {k : α → State → Res β} (h : m.Sat Q E R) (hk : ∀ v t, Q v t → (k v t).Sat P E R) :
    (m.bind k).Sat P E R := by
  cases m with
  | ok v t => exact hk v t h
  | raised e t => exact h
  | refused r => exact h

theorem Res.Sat.imp {α : Type} {P P' : α → State → Prop} {E E' : Error → State → Prop} {R R' : Prop} {m : Res α}
    (h : m.Sat P E R) (hp : ∀ v t, P v t → P' v t) (he : ∀ e t, E e t → E' e t) (hr : R → R') : m.Sat P' E' R' := by
  cases m with
  | ok v t => exact hp v t h
  | raised e t => exact he e t h
  | refused r => exact hr h

theorem Res.Sat.onRaise {α : Type} {P : α → State → Prop} {E E' : Error → State → Prop} {R : Prop} {m : Res α}
    {f : State → State} (h : m.Sat P E R) (he : ∀ e t, E e t → E' e (f t)) : (m.onRaise f).Sat P E' R := by
  cases m with
  | ok v t => exact h
  | raised e t => exact he e t h
  | refused r => exact h

/-- What holds of the next state of an operation, if it answers one. -/
theorem Res.Sat.conclude_next {α : Type} {P : α → State → Prop} {E : Error → State → Prop} {R : Prop} {m : Res α}
    {f : α → Results} {u : State} {G : State → Prop} (h : m.Sat P E R) (hc : m.conclude f = .next u)
    (hp : ∀ v t, P v t → G (t.endOp (f v))) (he : ∀ e t, E e t → G (t.takeError e)) : G u := by
  cases m with
  | ok v t => cases hc; exact hp v t h
  | raised e t => cases hc; exact he e t h
  | refused r => cases hc

/-- An operation that may not refuse answers a next state. -/
theorem Res.Sat.conclude_exists {α : Type} {P : α → State → Prop} {E : Error → State → Prop} {m : Res α}
    {f : α → Results} {G : State → Prop} (h : m.Sat P E False) (hp : ∀ v t, P v t → G (t.endOp (f v)))
    (he : ∀ e t, E e t → G (t.takeError e)) : ∃ u, m.conclude f = .next u ∧ G u := by
  cases m with
  | ok v t => exact ⟨_, rfl, hp v t h⟩
  | raised e t => exact ⟨_, rfl, he e t h⟩
  | refused r => exact h.elim

/-! ### What operations keep -/

/-- `t` is reached from `s` by a piece of an operation that does not configure: pin activity and changes of `FSM`. -/
structure Steady (s t : State) : Prop where
  conf : SameConfiguration s t
  inputs : SameInputs s t
  res : t.res = s.res
  now : s.world.now ≤ t.world.now
  draws : s.world.misoIx ≤ t.world.misoIx
  trace : ∃ es, Leads s t es
  log : ∃ fs, t.fsmLog = s.fsmLog ++ fs

theorem Wire.steady {s t : State} (h : Wire s t) : Steady s t :=
  ⟨h.conf, h.inputs, h.res, h.now, h.draws, h.trace, [], by simp [h.fsmLog]⟩

theorem Steady.refl (s : State) : Steady s s := (Wire.refl s).steady

theorem Steady.trans {s t u : State} (h : Steady s t) (k : Steady t u) : Steady s u := by
  obtain ⟨⟨a1, a2, a3, a4, a5⟩, ⟨b1, b2, b3, b4, b5, b6⟩, c, f, g, ⟨es, i⟩, fs, j⟩ := h
  obtain ⟨⟨a1', a2', a3', a4', a5'⟩, ⟨b1', b2', b3', b4', b5', b6'⟩, c', f', g', ⟨es', i'⟩, fs', j'⟩ := k
  exact ⟨⟨a1'.trans a1, a2'.trans a2, a3'.trans a3, a4'.trans a4, a5'.trans a5⟩,
    ⟨b1'.trans b1, b2'.trans b2, b3'.trans b3, b4'.trans b4, b5'.trans b5, b6'.trans b6⟩,
    c'.trans c, f.trans f', g.trans g', ⟨es ++ es', i.trans i'⟩, fs ++ fs', by simp [j', j]⟩

theorem steady_setFsm (f : Fsm) (s : State) : Steady s (s.setFsm f) := by
  refine ⟨by simp [SameConfiguration], by simp [SameInputs], by simp, by simp, by simp,
    ⟨[], .nil (by simp) (by simp [SameLatches])⟩, ?_⟩
  by_cases h : s.fsm = f
  · exact ⟨[], by simp [h]⟩
  · exact ⟨[f], by simp [h]⟩

theorem steady_settleFsm (f : Fsm) (s : State) : Steady s (s.settleFsm f) :=
  (steady_setFsm f s).trans (steady_setFsm .idle _)

theorem Steady.ready {s t : State} (h : Steady s t) (r : WireReady s) : WireReady t := by
  obtain ⟨_, h2, _, h4, h5⟩ := h.conf; exact ⟨h5 ▸ r.1, h2 ▸ r.2.1, h4 ▸ r.2.2⟩

theorem Steady.cfg {s t : State} (h : Steady s t) : t.cfg = s.cfg := h.inputs.2.2.2.1

theorem Steady.miso {s t : State} (h : Steady s t) : t.world.miso = s.world.miso := h.inputs.2.2.2.2.1

theorem Steady.setup {s t : State} (h : Steady s t) : t.setup = s.setup := by
  simp [State.setup, h.conf.1, h.conf.2.2.1]

/-- `t` is reached from `s` by any piece of an operation: valid bits and `STARTED` are never cleared, the inputs
stand, time, draws, trace and log only grow (R21, R23, R24, R14, R61). -/
structure Kept (s t : State) : Prop where
  started : s.started = true → t.started = true
  modeV : s.modeV = true → t.modeV = true
  orderV : s.orderV = true → t.orderV = true
  startedMode : (s.started = true → s.modeV = true) → t.started = true → t.modeV = true
  inputs : SameInputs s t
  now : s.world.now ≤ t.world.now
  draws : s.world.misoIx ≤ t.world.misoIx
  trace : ∃ es, Leads s t es
  tells : TraceTells s → TraceTells t
  log : ∃ fs, t.fsmLog = s.fsmLog ++ fs

/-- Where `STARTED` does not change, events that lead from `s` to `t` keep the latches with the trace. -/
theorem Leads.tells {s t : State} {es : List Event} (h : Leads s t es) (hs : t.started = s.started)
    (k : TraceTells s) : TraceTells t := by
  intro r; rw [h.1, Latches.seeAll_append, k (hs ▸ r), h.2]

theorem Steady.kept {s t : State} (h : Steady s t) : Kept s t := by
  obtain ⟨⟨_, b, _, d, e⟩, i, _, n, m, tr, l⟩ := h
  obtain ⟨es, tr⟩ := tr
  exact ⟨(e ▸ ·), (b ▸ ·), (d ▸ ·), fun h k => b ▸ h (e ▸ k), i, n, m, ⟨es, tr⟩, tr.tells e, l⟩

theorem Kept.trans {s t u : State} (h : Kept s t) (k : Kept t u) : Kept s u := by
  obtain ⟨a, b, c, d, ⟨b1, b2, b3, b4, b5, b6⟩, f, g, ⟨es, i⟩, q, fs, j⟩ := h
  obtain ⟨a', b', c', d', ⟨b1', b2', b3', b4', b5', b6'⟩, f', g', ⟨es', i'⟩, q', fs', j'⟩ := k
  exact ⟨a' ∘ a, b' ∘ b, c' ∘ c, d' ∘ d,
    ⟨b1'.trans b1, b2'.trans b2, b3'.trans b3, b4'.trans b4, b5'.trans b5, b6'.trans b6⟩,
    f.trans f', g.trans g', ⟨es ++ es', i.trans i'⟩, q' ∘ q, fs ++ fs', by simp [j', j]⟩

theorem leads_endOp (r : Results) (s : State) : Leads s (s.endOp r) [] := .nil (by simp) (by simp [SameLatches])

theorem kept_endOp (r : Results) (s : State) : Kept s (s.endOp r) := by
  refine ⟨by simp, by simp, by simp, by simp, by simp [SameInputs], by simp, by simp, ⟨[], leads_endOp r s⟩,
    (leads_endOp r s).tells (by simp), ?_⟩
  by_cases h : s.fsm = .idle
  · exact ⟨[], by simp [h]⟩
  · exact ⟨[.idle], by simp [h]⟩

/-! ### Results -/

theorem resultsAgree_ofUnit (c : Config) : ResultsAgree c .ofUnit := by simp [ResultsAgree, Results.ofUnit]

theorem resultsAgree_ofFlag (c : Config) (b : Bool) : ResultsAgree c (.ofFlag b) := by
  simp [ResultsAgree, Results.ofFlag]

theorem resultsAgree_ofBytes {c : Config} {bs : List Byte} (h : bs.length ≤ bufMax c) :
    ResultsAgree c (.ofBytes bs) := by simp [ResultsAgree, Results.ofBytes, h]

theorem resultsAgree_ofResponse {c : Config} {r : Option (List Byte)} (h : ∀ d ∈ r, d.length ≤ bufMax c) :
    ResultsAgree c (.ofResponse r) := by
  cases r with
  | none => simp [ResultsAgree, Results.ofResponse]
  | some d => exact resultsAgree_ofBytes (h d rfl)

theorem resultsAgree_ofTarget {c : Config} {r : Option (List Byte)} (h : ∀ d ∈ r, d.length ≤ bufMax c) :
    ResultsAgree c (.ofTarget r) := by
  cases r with
  | none => simp [ResultsAgree, Results.ofTarget]
  | some d => simpa [ResultsAgree, Results.ofTarget] using h d rfl

theorem resultsAgree_ofError (c : Config) (e : Error) : ResultsAgree c (.ofError e) := by
  cases e <;> simp [ResultsAgree, Results.ofError, Error.code, errorCodes]

/-- The end of an operation, whole: everything an outcome leaves (R236, R33). -/
theorem takeError_eq (e : Error) (s : State) : s.takeError e = s.endOp (.ofError e) := rfl

theorem betweenOps_endOp (r : Results) (s : State) : BetweenOps (s.endOp r) := by simp [BetweenOps]

end Sys2Proof.Machine
end

