-- ==== Sys2Proof/Laws/Transport.lean ====
section
/-! SUPPORT. One lemma for each operation of unit T as others call it: when it is refused, what it returns, what it
does to the pins and the trace. -/

namespace Sys2Proof.Machine

/-! ### The guards -/

theorem needStarted_ok {α : Type} {s : State} (h : s.started = true) (k : Res α) : needStarted s k = k := by
  simp [needStarted, h]

theorem needConfigured_ok {α : Type} {s : State} (ho : s.orderV = true) (hm : s.modeV = true) (k : Res α) :
    needConfigured s k = k := by simp [needConfigured, ho, hm]

theorem needFits_ok {α : Type} {n : Nat} {s : State} (h : n ≤ bufMax s.cfg) (k : Res α) : needFits n s k = k := by
  simp [needFits, h]

theorem needWriteIndex_ok {α : Type} {n : Nat} {s : State} (h : WriteIndexFits s n) (k : Res α) :
    needWriteIndex n s k = k := by
  unfold needWriteIndex; split
  · next hc => rcases h with h | h
               · rw [h] at hc; exact absurd hc.1 (by decide)
               · omega
  · rfl

theorem needNoTransaction_ok {α : Type} {s : State} (h : NoTransaction s) (k : Res α) : needNoTransaction s k = k := by
  unfold needNoTransaction; split
  · next hc => simp at hc; exact absurd hc h
  · rfl

/-! ### The events of the data operations -/

@[simp] theorem setup_idle (s : State) : s.setup.idle = idleLevel s.mode := rfl
@[simp] theorem setup_onLead (s : State) : s.setup.onLead = sampleOnLeadingEdge s.mode := rfl
@[simp] theorem setup_order (s : State) : s.setup.order = s.order := rfl

/-- What the events of a WRITE come to (R141, R147, R149, R34). -/
theorem writeEvents_runs (bs : List Byte) (sel desel : Bool) (s : State) :
    Wire s (writeEvents bs sel desel s) ∧
    TraceAdds s (writeEvents bs sel desel s) (flagEvents sel .low ++
      (wireBitsOf s.order bs).flatMap (writeCellEvents s.setup) ++ flagEvents desel .high) ∧
    (writeEvents bs sel desel s).world.misoIx = s.world.misoIx ∧
    (writeEvents bs sel desel s).sckQ = (if bs = [] then s.sckQ else idleLevel s.mode) ∧
    (writeEvents bs sel desel s).mosiQ = lastDriven (wireBitsOf s.order bs) s.mosiQ ∧
    (writeEvents bs sel desel s).csnQ = (if desel then .high else if sel then .low else s.csnQ) := by
  have r := writeFrom_runs s.setup 0 bs (chipSelectIf sel .low s)
  have w := (((wire_chipSelectIf sel .low s).trans r.wire).trans (wire_leaveCells _)).trans
    (wire_chipSelectIf desel .high _)
  refine ⟨w, ?_, ?_, ?_, ?_, ?_⟩
  · simp [TraceAdds, writeEvents, r.trace]
  · simp [writeEvents, r.misoIx]
  · simp [writeEvents, writeFrom_sckQ]
  · simp [writeEvents, writeFrom_mosiQ]
  · simp [writeEvents, r.csnQ]

/-- What the events of a READ come to (R142, R144, R149, R54). -/
theorem readEvents_runs (n : Nat) (sel : Bool) (s : State) :
    Wire s (readEvents n sel s) ∧
    TraceAdds s (readEvents n sel s) (flagEvents sel .low ++
      (drawnLevels s.world s.world.misoIx (8 * n)).flatMap (readCellEvents s.setup)) ∧
    (readEvents n sel s).world.misoIx = s.world.misoIx + 8 * n ∧
    (readEvents n sel s).sckQ = (if n = 0 then s.sckQ else idleLevel s.mode) ∧
    (readEvents n sel s).mosiQ = s.mosiQ ∧
    (readEvents n sel s).csnQ = (if sel then .low else s.csnQ) ∧
    (readEvents n sel s).wbuf = drawnBytes s.order s.world s.world.misoIx n := by
  have c := wire_chipSelectIf sel .low s
  have r := readFrom_runs s.setup 0 n ((chipSelectIf sel .low s).hold (List.replicate n 0#8))
  have w := ((c.trans (wire_hold _ _)).trans r.wire).trans (wire_leaveCells _)
  refine ⟨w, ?_, ?_, ?_, ?_, ?_, ?_⟩
  · simp [TraceAdds, readEvents, r.trace, drawnLevels_congr c.miso]
  · simp [readEvents, r.misoIx]
  · simp [readEvents, readFrom_sckQ]
  · simp [readEvents, readFrom_mosiQ]
  · simp [readEvents, r.csnQ]
  · have := readFrom_wbuf s.setup n [] ((chipSelectIf sel .low s).hold (List.replicate n 0#8)) (by simp)
    simp only [List.length_nil, List.nil_append] at this
    simp [readEvents, this, drawnBytes_congr c.miso]

/-- What the events of a TRANSFER come to (R145, R146, R149, R54). -/
theorem xferEvents_runs (bs : List Byte) (sel : Bool) (s : State) :
    Wire s (xferEvents bs sel s) ∧
    TraceAdds s (xferEvents bs sel s) (flagEvents sel .low ++
      xferEventsOf s.setup (drivenBitsFrom s.order s.cfg.xferWriteIndex 0 bs)
        (drawnLevels s.world s.world.misoIx (8 * bs.length))) ∧
    (xferEvents bs sel s).world.misoIx = s.world.misoIx + 8 * bs.length ∧
    (xferEvents bs sel s).sckQ = (if bs = [] then s.sckQ else idleLevel s.mode) ∧
    (xferEvents bs sel s).mosiQ = lastDriven (drivenBitsFrom s.order s.cfg.xferWriteIndex 0 bs) s.mosiQ ∧
    (xferEvents bs sel s).csnQ = (if sel then .low else s.csnQ) ∧
    (xferEvents bs sel s).wbuf = drawnBytes s.order s.world s.world.misoIx bs.length := by
  have c := wire_chipSelectIf sel .low s
  have r := xferFrom_runs s.setup s.cfg.xferWriteIndex 0 bs
    ((chipSelectIf sel .low s).hold (List.replicate bs.length 0#8))
  have w := ((c.trans (wire_hold _ _)).trans r.wire).trans (wire_leaveCells _)
  refine ⟨w, ?_, ?_, ?_, ?_, ?_, ?_⟩
  · simp [TraceAdds, xferEvents, r.trace, drawnLevels_congr c.miso]
  · simp [xferEvents, r.misoIx]
  · simp [xferEvents, xferFrom_sckQ]
  · simp [xferEvents, xferFrom_mosiQ]
  · simp [xferEvents, r.csnQ]
  · have := xferFrom_wbuf s.setup s.cfg.xferWriteIndex bs []
      ((chipSelectIf sel .low s).hold (List.replicate bs.length 0#8)) (by simp)
    simp only [List.length_nil, List.nil_append] at this
    simp [xferEvents, this, drawnBytes_congr c.miso]

/-! ### The operations -/

theorem writeOp_ok {bs : List Byte} {s : State} (r : WireReady s) (h : bs.length ≤ bufMax s.cfg) (sel desel : Bool) :
    writeOp bs sel desel s = .ok () (writeEvents bs sel desel s) := by
  rw [writeOp, needStarted_ok r.1, needConfigured_ok r.2.2 r.2.1, needFits_ok h]

theorem readOp_ok {n : Nat} {s : State} (r : WireReady s) (h : n ≤ bufMax s.cfg) (sel desel : Bool) :
    readOp n sel desel s =
      .ok (drawnBytes s.order s.world s.world.misoIx n) (chipSelectIf desel .high (readEvents n sel s)) := by
  rw [readOp, needStarted_ok r.1, needConfigured_ok r.2.2 r.2.1, needFits_ok h]
  simp [(readEvents_runs n sel s).2.2.2.2.2.2]

theorem transferOp_ok {bs : List Byte} {s : State} (r : WireReady s) (h : bs.length ≤ bufMax s.cfg)
    (w : WriteIndexFits s bs.length) (sel desel : Bool) :
    transferOp bs sel desel s = .ok (drawnBytes s.order s.world s.world.misoIx bs.length)
      (chipSelectIf desel .high (xferEvents bs sel s)) := by
  rw [transferOp, needStarted_ok r.1, needConfigured_ok r.2.2 r.2.1, needFits_ok h, needWriteIndex_ok w]
  simp [(xferEvents_runs bs sel s).2.2.2.2.2.2]

/-- A WRITE is refused or runs with its conditions met. -/
theorem writeOp_cases (bs : List Byte) (sel desel : Bool) (s : State) :
    (∃ r, writeOp bs sel desel s = .refused r) ∨ (WireReady s ∧ bs.length ≤ bufMax s.cfg) := by
  by_cases r : WireReady s ∧ bs.length ≤ bufMax s.cfg
  · exact .inr r
  · left
    unfold writeOp needStarted needConfigured needFits
    split <;> try exact ⟨_, rfl⟩
    split <;> try exact ⟨_, rfl⟩
    split <;> try exact ⟨_, rfl⟩
    simp_all

theorem readOp_cases (n : Nat) (sel desel : Bool) (s : State) :
    (∃ r, readOp n sel desel s = .refused r) ∨ (WireReady s ∧ n ≤ bufMax s.cfg) := by
  by_cases r : WireReady s ∧ n ≤ bufMax s.cfg
  · exact .inr r
  · left
    unfold readOp needStarted needConfigured needFits
    split <;> try exact ⟨_, rfl⟩
    split <;> try exact ⟨_, rfl⟩
    split <;> try exact ⟨_, rfl⟩
    simp_all

theorem transferOp_cases (bs : List Byte) (sel desel : Bool) (s : State) :
    (∃ r, transferOp bs sel desel s = .refused r) ∨
      (WireReady s ∧ bs.length ≤ bufMax s.cfg ∧ WriteIndexFits s bs.length) := by
  by_cases r : WireReady s ∧ bs.length ≤ bufMax s.cfg ∧ WriteIndexFits s bs.length
  · exact .inr r
  · left
    unfold transferOp needStarted needConfigured needFits needWriteIndex
    split <;> try exact ⟨_, rfl⟩
    split <;> try exact ⟨_, rfl⟩
    split <;> try exact ⟨_, rfl⟩
    split <;> try exact ⟨_, rfl⟩
    next h1 h2 h3 h4 =>
      refine absurd ⟨?_, h3, ?_⟩ r
      · simp only [Bool.and_eq_true] at h2; exact ⟨h1, h2.2, h2.1⟩
      · cases hw : s.cfg.xferWriteIndex
        · exact .inl hw
        · right; simp [hw] at h4; exact h4

theorem startOp_sat (s : State) : (startOp s).Sat
    (fun _ t => Kept s t ∧ t.res = s.res) (fun _ _ => False) (s.modeV = false) := by
  unfold startOp; split
  · next h =>
    have ld := (((leads_pinCfgOut .sck (idleLevel s.mode) s).trans (leads_pinCfgOut .mosi s.cfg.mosiInit _)).trans
      (leads_pinCfgIn .miso _)).trans (leads_pinCfgOut .csn .high _)
    refine ⟨⟨by simp, by simp [provisionPins, State.pinCfgOut, State.pinCfgIn],
      by simp [provisionPins, State.pinCfgOut, State.pinCfgIn], ?_, ?_, ?_, ?_, ⟨_, ld⟩, ?_, ⟨[], ?_⟩⟩, ?_⟩
    · intro _ _; simpa [provisionPins, State.pinCfgOut, State.pinCfgIn] using h
    · simp [provisionPins, State.pinCfgOut, State.pinCfgIn, SameInputs]
    · simp [provisionPins, State.pinCfgOut, State.pinCfgIn]; omega
    · simp [provisionPins, State.pinCfgOut, State.pinCfgIn]
    · intro _ _
      show Latches.unset.seeAll (State.trace (provisionPins s)) = State.latches (provisionPins s)
      rw [provisionPins, ld.1, Latches.seeAll_append, ← ld.2]; rfl
    · simp [provisionPins, State.pinCfgOut, State.pinCfgIn]
    · simp [provisionPins, State.pinCfgOut, State.pinCfgIn]
  · next h => simpa [Res.Sat] using h

theorem configureOp_sat (m : Byte) (s : State) : (configureOp m s).Sat
    (fun _ t => Kept s t ∧ t = { s with mode := t.mode, modeV := true })
    (fun e t => t = s ∧ e = .invalidMode m) (¬ NoTransaction s) := by
  by_cases h : NoTransaction s
  · rw [configureOp, needNoTransaction_ok h]
    cases readMode8 m with
    | none => exact ⟨rfl, rfl⟩
    | some k =>
      exact ⟨⟨id, fun _ => rfl, id, fun _ _ => rfl, ⟨rfl, rfl, rfl, rfl, rfl, rfl⟩, le_rfl, le_rfl,
        ⟨[], .nil rfl ⟨rfl, rfl, rfl⟩⟩, id, [], by simp⟩, rfl⟩
  · unfold configureOp needNoTransaction
    rw [if_pos (by simpa using h)]; exact h

theorem configureBitOrderOp_sat (o : Byte) (s : State) : (configureBitOrderOp o s).Sat
    (fun _ t => Kept s t ∧ t = { s with order := t.order, orderV := true })
    (fun e t => t = s ∧ e = .invalidOrder o) (¬ NoTransaction s) := by
  by_cases h : NoTransaction s
  · rw [configureBitOrderOp, needNoTransaction_ok h]
    cases readOrder8 o with
    | none => exact ⟨rfl, rfl⟩
    | some k =>
      exact ⟨⟨id, id, fun _ => rfl, fun h => h, ⟨rfl, rfl, rfl, rfl, rfl, rfl⟩, le_rfl, le_rfl,
        ⟨[], .nil rfl ⟨rfl, rfl, rfl⟩⟩, id, [], by simp⟩, rfl⟩
  · unfold configureBitOrderOp needNoTransaction
    rw [if_pos (by simpa using h)]; exact h

end Sys2Proof.Machine
end

