-- ==== Sys2Proof/Laws/Framer.lean ====
section
/-! SUPPORT. The framer's primitives: frames and checksums, the parser, the two SPI transactions, the ready wait. -/

namespace Sys2Proof.Machine

/-! ### Sums and frames -/

theorem byteSum_toNat (bs : List Byte) : (byteSum bs).toNat = (bs.map BitVec.toNat).sum % 256 := by
  induction bs with
  | nil => rfl
  | cons b rest ih =>
    rw [byteSum, List.foldr_cons, BitVec.toNat_add, ← byteSum, ih]; simp

theorem byteSum_append (a b : List Byte) : byteSum (a ++ b) = byteSum a + byteSum b := by
  induction a with
  | nil => simp [byteSum]
  | cons x xs ih => simp only [byteSum, List.cons_append, List.foldr_cons] at *; rw [ih, BitVec.add_assoc]

theorem byteSum_eq_zero_iff (bs : List Byte) : byteSum bs = 0 ↔ (bs.map BitVec.toNat).sum % 256 = 0 := by
  rw [← byteSum_toNat]; exact ⟨fun h => by rw [h]; rfl, fun h => BitVec.eq_of_toNat_eq h⟩

theorem byte_add_eq_zero_iff (a b : Byte) : a + b = 0 ↔ (a.toNat + b.toNat) % 256 = 0 := by
  rw [← BitVec.toNat_inj, BitVec.toNat_add]; simp

/-- R94: the length and its checksum sum to 0. -/
theorem add_lengthChecksum (len : Byte) : len + lengthChecksum len = 0 := by
  rw [byte_add_eq_zero_iff, lengthChecksum, BitVec.toNat_ofNat]; have := len.isLt; omega

/-- R95: the payload and its checksum sum to 0. -/
theorem byteSum_add_payloadChecksum (p : List Byte) : byteSum p + payloadChecksum p = 0 := by
  rw [byte_add_eq_zero_iff, payloadChecksum, BitVec.toNat_ofNat]; have := (byteSum p).isLt; omega

theorem frameOf_length (c : Config) (p : List Byte) : (frameOf c p).length = p.length + 8 := by
  simp [frameOf, startCode]

/-! ### The parser -/

/-- The run of zeros does not matter (R92). -/
theorem parsePreamble_zeros (k : Nat) (rest : List Byte) :
    parsePreamble (List.replicate k 0x00 ++ rest) = parsePreamble rest := by
  induction k with
  | zero => rfl
  | succ k ih => rw [List.replicate_succ, List.cons_append, parsePreamble, if_pos rfl, ih]

theorem parsePreamble_start (rest : List Byte) : parsePreamble (0xFF :: rest) = parseBody rest := by
  rw [parsePreamble, if_neg (by decide), if_pos (by decide)]

/-- What the parser's steps 3 to 5 return is a payload whose checks pass (R91, R162). -/
theorem parseBody_ok {bs p : List Byte} (h : parseBody bs = .ok p) :
    ∃ len lcs dcs tail, bs = len :: lcs :: (p ++ dcs :: tail) ∧ len + lcs = 0 ∧ p.length = len.toNat ∧
      byteSum (p ++ [dcs]) = 0 := by
  unfold parseBody at h
  split at h
  · next len lcs body =>
    split_ifs at h with h1 h2 h3
    cases h
    have hl : len.toNat < body.length := by omega
    refine ⟨len, lcs, body[len.toNat], body.drop (len.toNat + 1), ?_, by simpa using h1, by simp; omega, ?_⟩
    · rw [List.getElem_cons_drop, List.take_append_drop]
    · rw [List.take_concat_get' body len.toNat hl]; simpa using h3
  · cases h

theorem parsePreamble_ok {bs p : List Byte} (h : parsePreamble bs = .ok p) :
    ∃ k body, bs = List.replicate k 0x00 ++ 0xFF :: body ∧ parseBody body = .ok p := by
  induction bs with
  | nil => cases h
  | cons b rest ih =>
    rw [parsePreamble] at h
    split_ifs at h with h0 h1
    · obtain ⟨k, body, rfl, hb⟩ := ih h
      exact ⟨k + 1, body, by rw [h0]; rfl, hb⟩
    · exact ⟨0, rest, by rw [h1]; rfl, h⟩

theorem parseFrame_ok {c : Config} {raw p : List Byte} {xmax : Nat} (h : parseFrame c raw xmax = .ok p) :
    ∃ rest, raw = c.rdEcho :: rest ∧ parsePreamble rest = .ok p := by
  unfold parseFrame at h
  split at h
  · cases h
  · next echo rest =>
    split_ifs at h with he
    exact ⟨rest, by rw [he], h⟩

theorem parseFrame_length {c : Config} {raw p : List Byte} {xmax : Nat} (h : parseFrame c raw xmax = .ok p) :
    p.length ≤ raw.length := by
  obtain ⟨rest, rfl, hr⟩ := parseFrame_ok h
  obtain ⟨k, body, rfl, hb⟩ := parsePreamble_ok hr
  obtain ⟨len, lcs, dcs, tail, rfl, -⟩ := parseBody_ok hb
  simp; omega

/-- A frame whose checks pass parses to its payload (R91, R162). -/
theorem parseBody_frame {len lcs dcs : Byte} {p tail : List Byte} (h1 : len + lcs = 0) (h2 : p.length = len.toNat)
    (h3 : byteSum (p ++ [dcs]) = 0) : parseBody (len :: lcs :: (p ++ dcs :: tail)) = .ok p := by
  have ht : (p ++ dcs :: tail).take (len.toNat + 1) = p ++ [dcs] := by
    rw [← h2, List.take_append]; simp
  rw [parseBody, if_neg (by simpa using h1), if_neg (by simp; omega), ht, if_neg (by simpa using h3), ← h2]
  simp

theorem buildFrameOp_sat (p : List Byte) (s : State) : (buildFrameOp p s).Sat
    (fun v t => t = s ∧ v = frameOf s.cfg p ∧ 1 ≤ p.length ∧ p.length ≤ 255)
    (fun e t => t = s ∧ e = .payloadTooLong p.length ∧ (p.length < 1 ∨ 255 < p.length))
    (¬ p.length ≤ bufMax s.cfg) := by
  by_cases h : p.length ≤ bufMax s.cfg
  · rw [buildFrameOp, needFits_ok h]; split
    · next hp => exact ⟨rfl, rfl, hp⟩
    · next hp => exact ⟨rfl, rfl, by omega, by omega⟩
  · unfold buildFrameOp needFits; rw [if_neg h]; exact h

theorem parseResponseFrameOp_sat (raw : List Byte) (xmax : Nat) (s : State) : (parseResponseFrameOp raw xmax s).Sat
    (fun v t => t = s ∧ parseFrame s.cfg raw xmax = .ok v ∧ v.length ≤ bufMax s.cfg)
    (fun e t => t = s ∧ parseFrame s.cfg raw xmax = .error e) (¬ raw.length ≤ bufMax s.cfg) := by
  by_cases h : raw.length ≤ bufMax s.cfg
  · rw [parseResponseFrameOp, needFits_ok h]
    cases hp : parseFrame s.cfg raw xmax with
    | ok v => exact ⟨rfl, rfl, (parseFrame_length hp).trans h⟩
    | error e => exact ⟨rfl, rfl⟩
  · unfold parseResponseFrameOp needFits; rw [if_neg h]; exact h

/-! ### The exchange (R166, R167) -/

/-- What one exchange of the bytes `bs` does. -/
structure Exchanged (s : State) (bs : List Byte) (t : State) : Prop where
  wire : Wire s t
  trace : TraceAdds s t (exchangeEvents s bs s.world.misoIx)
  misoIx : t.world.misoIx = s.world.misoIx + 8 * bs.length
  csnQ : t.csnQ = .high
  sckQ : t.sckQ = if bs = [] then s.sckQ else idleLevel s.mode
  mosiQ : t.mosiQ = lastDriven (transferBits s bs) s.mosiQ
  now : s.world.now + 2 ≤ t.world.now

theorem wireExchange_ok {bs : List Byte} {s : State} (r : WireReady s) (h : bs.length ≤ bufMax s.cfg)
    (w : WriteIndexFits s bs.length) :
    ∃ t, wireExchange bs s = .ok (drawnBytes s.order s.world s.world.misoIx bs.length) t ∧ Exchanged s bs t := by
  obtain ⟨u, hu⟩ : ∃ u, u = (s.pinOut .csn .low).delay tWake := ⟨_, rfl⟩
  have wu : Wire s u := hu ▸ (wire_pinOut _ _ s).trans (wire_delay _ _)
  have hx := xferEvents_runs bs false u
  have rx := hx.1.ready (wu.ready r)
  refine ⟨(xferEvents bs false u).pinOut .csn .high, ?_, ?_⟩
  · rw [wireExchange, selectOp, needStarted_ok r.1]
    simp only [Res.bind, delayOp, ← hu]
    rw [transferOp_ok (wu.ready r) (by rw [wu.cfg]; exact h) (by rw [WriteIndexFits, wu.cfg]; exact w)]
    simp only [chipSelectIf, Bool.false_eq_true, if_false]
    rw [deselectOp, needStarted_ok rx.1]
    rw [drawnBytes_congr wu.miso, wu.conf.2.2.1, show u.world.misoIx = s.world.misoIx by rw [hu]; simp]
  · have ho : u.order = s.order := wu.conf.2.2.1
    have hi : u.world.misoIx = s.world.misoIx := by rw [hu]; simp
    have hm : u.mosiQ = s.mosiQ := by rw [hu]; simp
    have hs : u.sckQ = s.sckQ := by rw [hu]; simp
    have ht : u.trace = s.trace ++ [.out .csn .low, .wait 2] := by rw [hu]; simp [tWake]
    have wt : Wire u ((xferEvents bs false u).pinOut .csn .high) := hx.1.trans (wire_pinOut _ _ _)
    have hn := delay_now tWake (s.pinOut .csn .low)
    rw [← hu] at hn
    refine ⟨wu.trans wt, ?_, ?_, by simp, ?_, ?_, ?_⟩
    · simp only [TraceAdds, pinOut_trace]
      rw [hx.2.1, ht, ho, hi, wu.cfg, wu.setup, drawnLevels_congr wu.miso, drivenBitsFrom_zero]
      simp [flagEvents, exchangeEvents]
    · rw [pinOut_misoIx, hx.2.2.1, hi]
    · simp [hx.2.2.2.1, hs, wu.conf.1]
    · simp [hx.2.2.2.2.1, hm, ho, wu.cfg, drivenBitsFrom_zero]
    · have h1 := (wire_pinOut .csn .low s).now
      have h2 := wt.now
      simp only [tWake] at hn
      omega

theorem wireExchange_sat (bs : List Byte) (s : State) : (wireExchange bs s).Sat
    (fun v t => v = drawnBytes s.order s.world s.world.misoIx bs.length ∧ Exchanged s bs t ∧ WireReady s ∧
      bs.length ≤ bufMax s.cfg)
    (fun _ _ => False) (¬ (WireReady s ∧ bs.length ≤ bufMax s.cfg ∧ WriteIndexFits s bs.length)) := by
  by_cases h : WireReady s ∧ bs.length ≤ bufMax s.cfg ∧ WriteIndexFits s bs.length
  · obtain ⟨t, e, x⟩ := wireExchange_ok h.1 h.2.1 h.2.2
    rw [e]; exact ⟨rfl, x, h.1, h.2.1⟩
  · by_cases hs : s.started = true
    · have wu : Wire s ((s.pinOut .csn .low).delay tWake) := (wire_pinOut _ _ s).trans (wire_delay _ _)
      rw [wireExchange, selectOp, needStarted_ok hs]
      simp only [Res.bind, delayOp]
      rcases transferOp_cases bs false false ((s.pinOut .csn .low).delay tWake) with ⟨r, hr⟩ | ⟨r1, r2, r3⟩
      · rw [hr]; exact h
      · refine absurd ⟨?_, by rwa [wu.cfg] at r2, by rwa [WriteIndexFits, wu.cfg] at r3⟩ h
        obtain ⟨_, c2, _, c4, c5⟩ := wu.conf
        exact ⟨hs, c2 ▸ r1.2.1, c4 ▸ r1.2.2⟩
    · rw [wireExchange, selectOp, needStarted, if_neg hs]; exact h

theorem dataReadOp_eq {n : Nat} (h : 1 ≤ n) (s : State) :
    dataReadOp n s = wireExchange (s.cfg.dr :: List.replicate (n - 1) 0x00) s := by
  rw [dataReadOp, if_neg (by omega)]

theorem drawnBytes_two (o : BitOrder) (w : World) (ix : Nat) :
    drawnBytes o w ix 2 = [assembleByte o fun j => w.misoAt (ix + j), assembleByte o fun j => w.misoAt (ix + 8 + j)] := by
  rw [drawnBytes_succ, drawnBytes_succ]; rfl

theorem two_le_bufMax (c : Config) : 2 ≤ bufMax c := by simp [bufMax]; omega

theorem statusReadOp_ok {s : State} (r : WireReady s) :
    ∃ t, statusReadOp s = .ok (drawnBytes s.order s.world s.world.misoIx 2) t ∧ Exchanged s [s.cfg.sr, 0x00] t :=
  wireExchange_ok r (two_le_bufMax _) (.inr (by simp))

/-! ### The events of the reads, seen from a later state -/

theorem exchangeEvents_congr {s t : State} (hm : t.mode = s.mode) (ho : t.order = s.order)
    (hw : t.world.miso = s.world.miso) (hc : t.cfg = s.cfg) (bs : List Byte) (ix : Nat) :
    exchangeEvents t bs ix = exchangeEvents s bs ix := by
  simp [exchangeEvents, State.setup, transferBits, hm, ho, hc, drawnLevels_congr hw]

theorem waitEvents_congr {s t : State} (hm : t.mode = s.mode) (ho : t.order = s.order)
    (hw : t.world.miso = s.world.miso) (hc : t.cfg = s.cfg) (ix k : Nat) : waitEvents t ix k = waitEvents s ix k := by
  simp only [waitEvents, exchangeEvents_congr hm ho hw hc, hc]

theorem dataReadEvents_congr {s t : State} (hm : t.mode = s.mode) (ho : t.order = s.order)
    (hw : t.world.miso = s.world.miso) (hc : t.cfg = s.cfg) (n ix : Nat) :
    dataReadEvents t n ix = dataReadEvents s n ix := by
  simp only [dataReadEvents, exchangeEvents_congr hm ho hw hc, hc]

theorem waitEvents_one (s : State) (ix : Nat) : waitEvents s ix 1 = exchangeEvents s [s.cfg.sr, 0x00] ix := by
  simp [waitEvents]

/-- A wait of one poll more: the poll, `Wait(10)`, and the other polls (R170). -/
theorem waitEvents_succ (s : State) (ix : Nat) {k : Nat} (h : 1 ≤ k) :
    waitEvents s ix (k + 1) = exchangeEvents s [s.cfg.sr, 0x00] ix ++ [.wait 10] ++ waitEvents s (ix + 16) k := by
  obtain ⟨m, rfl⟩ : ∃ m, k = m + 1 := ⟨k - 1, by omega⟩
  have hi : ∀ i, ix + 16 * (i + 1 + 1) = ix + 16 + 16 * (i + 1) := fun i => by omega
  simp [waitEvents, List.range_succ_eq_map, List.flatMap_map, hi]

/-! ### The ready wait (R170, R172) -/

/-- What a WAIT_READY that polls `k` times does: its events, the time they take at least, every poll but the last found
the peripheral not ready, the last one decides the result, and a `false` means that the timeout has passed (R170,
R172). -/
structure Waited (t0 timeout : Nat) (s : State) (k : Nat) (ready : Bool) (t : State) : Prop where
  wire : Wire s t
  misoIx : t.world.misoIx = s.world.misoIx + 16 * k
  csnQ : t.csnQ = .high
  sckQ : t.sckQ = idleLevel s.mode
  trace : TraceAdds s t (waitEvents s s.world.misoIx k)
  least : s.world.now + (12 * k - 10) ≤ t.world.now
  earlier : ∀ i, i + 1 < k → pollAt s s.world.misoIx i ≠ s.cfg.ready
  last : ready = true ↔ pollAt s s.world.misoIx (k - 1) = s.cfg.ready
  elapsed : ready = false → timeout < t.world.now - t0

theorem Waited.time {t0 timeout k : Nat} {s t : State} {ready : Bool} (h : Waited t0 timeout s k ready t)
    (h0 : s.world.now ≤ t0) : s.world.now + waitTime timeout k ready ≤ t.world.now := by
  have := h.least
  cases ready with
  | true => simpa [waitTime] using this
  | false =>
    have := h.elapsed rfl
    simp only [waitTime, Bool.false_eq_true, if_false]; omega

theorem pollAt_next {s t : State} (w : Wire s t) (h : t.world.misoIx = s.world.misoIx + 16) (k : Nat) :
    pollAt t t.world.misoIx k = pollAt s s.world.misoIx (k + 1) := by
  simp only [pollAt, w.conf.2.2.1, World.misoAt_congr w.miso, h]
  congr 1; funext j; congr 1; omega

/-- One turn of the wait's loop: it returns after one poll, or it goes on from a state 12 ms later (R170). -/
theorem waitLoop_turn {t0 timeout : Nat} (fuel : Nat) {s : State} (r : WireReady s) :
    (∃ v t, waitLoop t0 timeout (fuel + 1) s = .ok v t ∧ Waited t0 timeout s 1 v t) ∨
    (∃ u, waitLoop t0 timeout (fuel + 1) s = waitLoop t0 timeout fuel u ∧ Wire s u ∧
      u.world.misoIx = s.world.misoIx + 16 ∧ pollAt s s.world.misoIx 0 ≠ s.cfg.ready ∧ s.world.now - t0 ≤ timeout ∧
      s.world.now + 12 ≤ u.world.now ∧
      TraceAdds s u (exchangeEvents s [s.cfg.sr, 0x00] s.world.misoIx ++ [.wait 10])) := by
  obtain ⟨t, e, x⟩ := statusReadOp_ok r
  rw [drawnBytes_two] at e
  have n1 := x.now
  have n2 := (wire_readClock t).now
  have m : t.world.misoIx = s.world.misoIx + 16 := x.misoIx
  rw [waitLoop, e]
  simp only [Res.bind, List.getD_cons_succ, List.getD_cons_zero, x.wire.cfg]
  split
  · next h =>
    exact .inl ⟨true, t, rfl, x.wire, m, x.csnQ, by simpa using x.sckQ, by rw [waitEvents_one]; exact x.trace,
      by omega, fun i hi => by omega, ⟨fun _ => h, fun _ => rfl⟩, by simp⟩
  · next h =>
    split
    · next he =>
      exact .inl ⟨false, _, rfl, x.wire.trans (wire_readClock t), by simpa using m, by simpa using x.csnQ,
        by simpa using x.sckQ, by rw [waitEvents_one, TraceAdds, readClock_trace]; exact x.trace, by omega,
        fun i hi => by omega, ⟨by simp, fun hh => absurd hh h⟩, fun _ => he⟩
    · next he =>
      have n3 := delay_now tPoll t.readClock.2
      simp only [tPoll, readClock_fst] at n3 he
      refine .inr ⟨_, rfl, (x.wire.trans (wire_readClock t)).trans (wire_delay _ _),
        by simpa using m, h, by omega, by simp only [tPoll]; omega, ?_⟩
      have tr := x.trace
      simp only [TraceAdds, delay_trace, readClock_trace, tPoll] at tr ⊢
      rw [tr, List.append_assoc]

theorem waitLoop_ok {t0 timeout fuel : Nat} {s : State} (r : WireReady s) (hn : t0 ≤ s.world.now)
    (hf : timeout < (s.world.now - t0) + 10 * fuel) :
    ∃ k v t, waitLoop t0 timeout (fuel + 1) s = .ok v t ∧ 1 ≤ k ∧ k ≤ fuel + 1 ∧ Waited t0 timeout s k v t := by
  induction fuel generalizing s with
  | zero =>
    rcases waitLoop_turn (t0 := t0) (timeout := timeout) 0 r with ⟨v, t, e, x⟩ | ⟨u, -, -, -, -, h, -⟩
    · exact ⟨1, v, t, e, le_rfl, by omega, x⟩
    · omega
  | succ fuel ih =>
    rcases waitLoop_turn (t0 := t0) (timeout := timeout) (fuel + 1) r with
      ⟨v, t, e, x⟩ | ⟨u, e, wu, hi, hp, -, hu, tu⟩
    · exact ⟨1, v, t, e, le_rfl, by omega, x⟩
    · obtain ⟨k, v, w, ew, k1, k2, y⟩ := ih (wu.ready r) (by omega) (by omega)
      have yl := y.least
      refine ⟨k + 1, v, w, e.trans ew, by omega, by omega, wu.trans y.wire, ?_, y.csnQ, ?_, ?_, by omega, ?_, ?_,
        y.elapsed⟩
      · rw [y.misoIx, hi]; omega
      · rw [y.sckQ, wu.conf.1]
      · rw [waitEvents_succ s _ k1, TraceAdds, y.trace, tu, waitEvents_congr wu.conf.1 wu.conf.2.2.1 wu.miso wu.cfg, hi,
          List.append_assoc, List.append_assoc]
      · intro i hik
        cases i with
        | zero => exact hp
        | succ i => rw [← pollAt_next wu hi, ← wu.cfg]; exact y.earlier i (by omega)
      · rw [y.last, pollAt_next wu hi, wu.cfg, show k - 1 + 1 = k + 1 - 1 by omega]

theorem waitReadyOp_ok {timeout : Nat} {s : State} (r : WireReady s) :
    ∃ k v t, waitReadyOp timeout s = .ok v t ∧ 1 ≤ k ∧ k ≤ timeout / 10 + 2 ∧
      Waited s.readClock.1 timeout s k v t := by
  have w := wire_readClock s
  obtain ⟨k, v, t, e, k1, k2, x⟩ := waitLoop_ok (timeout := timeout) (fuel := timeout / 10 + 1)
    (w.ready r) (le_refl s.readClock.1) (by omega)
  have n1 := w.now
  have n2 := x.least
  refine ⟨k, v, t, ?_, k1, k2, w.trans x.wire, ?_, x.csnQ, ?_, ?_, by omega, ?_, ?_, x.elapsed⟩
  · rw [waitReadyOp, needStarted_ok r.1, needConfigured_ok r.2.2 r.2.1]; exact e
  · simpa using x.misoIx
  · rw [x.sckQ, w.conf.1]
  · have := x.trace
    rw [waitEvents_congr w.conf.1 w.conf.2.2.1 w.miso w.cfg] at this
    simpa [TraceAdds] using this
  · intro i hi
    have := x.earlier i hi
    simpa [pollAt, w.conf.2.2.1, World.misoAt_congr w.miso, w.cfg] using this
  · rw [x.last]
    simp [pollAt, w.conf.2.2.1, World.misoAt_congr w.miso, w.cfg]

theorem waitReadyOp_sat (timeout : Nat) (s : State) : (waitReadyOp timeout s).Sat
    (fun v t => WireReady s ∧ ∃ k, 1 ≤ k ∧ k ≤ timeout / 10 + 2 ∧ Waited s.readClock.1 timeout s k v t)
    (fun _ _ => False) (¬ WireReady s) := by
  by_cases r : WireReady s
  · obtain ⟨k, v, t, e, k1, k2, x⟩ := waitReadyOp_ok (timeout := timeout) r
    rw [e]; exact ⟨r, k, k1, k2, x⟩
  · unfold waitReadyOp needStarted needConfigured
    split <;> try exact r
    split <;> try exact r
    next h1 h2 => simp only [Bool.and_eq_true] at h2; exact absurd ⟨h1, h2.2, h2.1⟩ r

/-- READ_ACK reads seven bytes and compares them (R168). -/
theorem readAckOp_sat (s : State) : (readAckOp s).Sat
    (fun _ t => WireReady s ∧ Exchanged s (s.cfg.dr :: List.replicate 6 0x00) t ∧
      drawnBytes s.order s.world s.world.misoIx 7 = ackBytes)
    (fun e t => WireReady s ∧ Exchanged s (s.cfg.dr :: List.replicate 6 0x00) t ∧ e = .ackMismatch ∧
      drawnBytes s.order s.world s.world.misoIx 7 ≠ ackBytes)
    (¬ WireReady s) := by
  rw [readAckOp, dataReadOp_eq (by decide)]
  refine Res.Sat.bind (Res.Sat.imp (wireExchange_sat _ s) (fun v t h => h) (fun _ _ h => h.elim) ?_) ?_
  · intro h r; exact h ⟨r, by simp [ackBytes, bufMax]; omega, .inr (by simp [ackBytes])⟩
  · rintro v t ⟨rfl, x, r, -⟩
    split
    · next h => exact ⟨r, x, h⟩
    · next h => exact ⟨r, x, rfl, h⟩

end Sys2Proof.Machine
end

