-- ==== Sys2Proof/Laws/Command.lean ====
section
/-! SUPPORT. The sequencer and the composites: how a SEND_COMMAND goes, given the draws, and what the composites make
of it. -/

namespace Sys2Proof.Machine

/-! ### Draws seen from a later state -/

theorem Steady.misoAt {s t : State} (h : Steady s t) : t.world.misoAt = s.world.misoAt := World.misoAt_congr h.miso

theorem Steady.drawn {s t : State} (h : Steady s t) (ix n : Nat) :
    drawnBytes t.order t.world ix n = drawnBytes s.order s.world ix n := by
  rw [drawnBytes_congr h.miso, h.conf.2.2.1]

theorem Steady.pollAt {s t : State} (h : Steady s t) (ix k : Nat) : pollAt t ix k = pollAt s ix k := by
  simp only [Machine.pollAt, h.misoAt, h.conf.2.2.1]

theorem Steady.pollsTo {s t : State} (h : Steady s t) {tmo ix k : Nat} {v : Bool} (p : PollsTo t tmo ix k v) :
    PollsTo s tmo ix k v :=
  ⟨p.atLeast, p.atMost, fun i hi => by rw [← h.pollAt, ← h.cfg]; exact p.earlier i hi,
    by rw [← h.pollAt, ← h.cfg]; exact p.last⟩

theorem Waited.pollsTo {t0 tmo k : Nat} {s t : State} {v : Bool} (h : Waited t0 tmo s k v t) (h1 : 1 ≤ k)
    (h2 : k ≤ tmo / 10 + 2) : PollsTo s tmo s.world.misoIx k v := ⟨h1, h2, h.earlier, h.last⟩

/-- A wait that finds READY at its first poll polls once. -/
theorem PollsTo.at_once {s : State} {tmo ix k : Nat} {v : Bool} (h : PollsTo s tmo ix k v)
    (h0 : Machine.pollAt s ix 0 = s.cfg.ready) : k = 1 ∧ v = true := by
  have hk : k = 1 := by
    by_contra hk
    exact h.earlier 0 (by have := h.atLeast; omega) h0
  subst hk; exact ⟨rfl, h.last.2 h0⟩

/-! ### What the pieces of SEND_COMMAND leave -/

/-- The pins rest: CS_N high, SCK at idle (R199). -/
abbrev PinsRest (s t : State) : Prop := t.csnQ = .high ∧ t.sckQ = idleLevel s.mode

@[simp] theorem settleFsm_fsm (f : Fsm) (s : State) : (s.settleFsm f).fsm = .idle := by simp [State.settleFsm]

theorem settleFsm_fsmLog {f : Fsm} {s : State} (h : s.fsm ≠ f) (h' : f ≠ .idle) :
    (s.settleFsm f).fsmLog = s.fsmLog ++ [f, .idle] := by
  simp [State.settleFsm, h, h']

theorem setFsm_fsmLog_ne {f : Fsm} {s : State} (h : s.fsm ≠ f) : (s.setFsm f).fsmLog = s.fsmLog ++ [f] := by simp [h]

theorem PinsRest.settle {s t : State} (h : PinsRest s t) (f : Fsm) : PinsRest s (t.settleFsm f) := by
  simpa [PinsRest, State.settleFsm] using h

theorem PinsRest.set {s t : State} (h : PinsRest s t) (f : Fsm) : PinsRest s (t.setFsm f) := by
  simpa [PinsRest] using h

theorem PinsRest.from {s t u : State} (h : PinsRest t u) (k : Steady s t) : PinsRest s u := by
  rw [PinsRest, ← k.conf.1]; exact h

/-- `t` is reached from `s` by a piece of SEND_COMMAND: `FSM` passed through `fs`, the events are `es`, and it took at
least `d` milliseconds. -/
structure Reaches (s t : State) (fs : List Fsm) (es : List Event) (d : Nat) : Prop where
  steady : Steady s t
  log : t.fsmLog = s.fsmLog ++ fs
  trace : TraceAdds s t es
  time : s.world.now + d ≤ t.world.now

theorem Reaches.trans {s t u : State} {fs gs : List Fsm} {es es' : List Event} {d d' : Nat} (h : Reaches s t fs es d)
    (k : Reaches t u gs es' d') : Reaches s u (fs ++ gs) (es ++ es') (d + d') :=
  ⟨h.steady.trans k.steady, by rw [k.log, h.log, List.append_assoc], by rw [TraceAdds, k.trace, h.trace, List.append_assoc],
    by have := h.time; have := k.time; omega⟩

theorem reaches_setFsm {f : Fsm} {s : State} (h : s.fsm ≠ f) : Reaches s (s.setFsm f) [f] [] 0 :=
  ⟨steady_setFsm f s, setFsm_fsmLog_ne h, by simp [TraceAdds], by simp⟩

theorem reaches_settleFsm {f : Fsm} {s : State} (h : s.fsm ≠ f) (h' : f ≠ .idle) :
    Reaches s (s.settleFsm f) [f, .idle] [] 0 :=
  ⟨steady_settleFsm f s, settleFsm_fsmLog h h', by simp [TraceAdds, State.settleFsm], by simp [State.settleFsm]⟩

theorem Wire.reaches {s t : State} {es : List Event} {d : Nat} (h : Wire s t) (tr : TraceAdds s t es)
    (ti : s.world.now + d ≤ t.world.now) : Reaches s t [] es d := ⟨h.steady, by simp [h.fsmLog], tr, ti⟩

/-- What the pieces of SEND_COMMAND come to: they reach the end of it, with the pins at rest and `FSM` at `Idle`. -/
structure Ends (s t : State) (fs : List Fsm) (es : List Event) (d : Nat) : Prop extends Reaches s t fs es d where
  pins : PinsRest s t
  fsm : t.fsm = .idle

theorem Reaches.ends {s t u : State} {fs gs : List Fsm} {es es' : List Event} {d d' : Nat} (h : Reaches s t fs es d)
    (k : Ends t u gs es' d') : Ends s u (fs ++ gs) (es ++ es') (d + d') :=
  ⟨h.trans k.toReaches, k.pins.from h.steady, k.fsm⟩

/-- A piece that leaves the pins at rest ends with `FSM` passing through `f` to `Idle`. -/
theorem Reaches.settle {s t : State} {fs : List Fsm} {es : List Event} {d : Nat} (h : Reaches s t fs es d)
    (p : PinsRest s t) {f : Fsm} (hf : t.fsm ≠ f) (h' : f ≠ .idle) : Ends s (t.settleFsm f) (fs ++ [f, .idle]) es d := by
  have := h.trans (reaches_settleFsm hf h')
  rw [List.append_nil, Nat.add_zero] at this
  exact ⟨this, p.settle f, by simp⟩

theorem responseData_ok {c : Config} {op : Byte} {p d : List Byte} (h : responseData c op p = .ok d) :
    p = c.d2h :: (op + 1) :: d := by
  unfold responseData at h
  split at h
  · split_ifs at h with hc
    cases h; rw [hc.1, hc.2]
  · cases h

theorem responseData_error {c : Config} {op : Byte} {p : List Byte} {e : Error} (h : responseData c op p = .error e) :
    e = .wrongCommandResponse ∧ ∀ d, p ≠ c.d2h :: (op + 1) :: d := by
  unfold responseData at h
  split at h
  · split_ifs at h with hc
    cases h
    refine ⟨rfl, ?_⟩
    rintro d hd; simp only [List.cons.injEq] at hd; exact hc ⟨hd.1, hd.2.1⟩
  · next hp => cases h; exact ⟨rfl, fun d hd => hp _ _ _ hd⟩

/-- Steps 6 to 8 (R190). -/
theorem receiveResponse_sat (op : Byte) (cap : Nat) (s : State) (hf : s.fsm = .awaitingResponse) :
    (receiveResponse op cap s).Sat
      (fun v t => ∃ d, v = some d ∧ d.length ≤ bufMax s.cfg ∧
        Ends s t [.responseParsed, .success, .idle] (dataReadEvents s (responseLength s cap) s.world.misoIx) 2 ∧
        parseFrame s.cfg (drawnBytes s.order s.world s.world.misoIx (responseLength s cap)) (cap + 2) =
          .ok (s.cfg.d2h :: (op + 1) :: d))
      (fun e t =>
        (Ends s t [.protocolError, .idle] (dataReadEvents s (responseLength s cap) s.world.misoIx) 2 ∧
          parseFrame s.cfg (drawnBytes s.order s.world s.world.misoIx (responseLength s cap)) (cap + 2) = .error e) ∨
        (Ends s t [.responseParsed, .protocolError, .idle] (dataReadEvents s (responseLength s cap) s.world.misoIx) 2 ∧
          e = .wrongCommandResponse ∧ ∃ p,
          parseFrame s.cfg (drawnBytes s.order s.world s.world.misoIx (responseLength s cap)) (cap + 2) = .ok p ∧
            ∀ d, p ≠ s.cfg.d2h :: (op + 1) :: d))
      (¬ CommandRuns s cap) := by
  have hl : rawLength s.cfg cap = responseLength s cap := rfl
  rw [receiveResponse, dataReadOp_eq (by rw [hl, responseLength]; omega)]
  have hlen : (s.cfg.dr :: List.replicate (rawLength s.cfg cap - 1) (0x00 : Byte)).length = responseLength s cap := by
    simp [hl, responseLength]; omega
  refine Res.Sat.bind (Res.Sat.imp (wireExchange_sat _ s) (fun v t h => h) (fun _ _ h => h.elim) ?_) ?_
  · rw [hlen]; exact id
  · rintro v t ⟨rfl, x, -, hb⟩
    rw [hlen] at hb
    have st := x.wire.steady
    have rc : Reaches s t [] (dataReadEvents s (responseLength s cap) s.world.misoIx) 2 := x.wire.reaches x.trace x.now
    have pr : PinsRest s t := ⟨x.csnQ, by simpa using x.sckQ⟩
    have tf : t.fsm = .awaitingResponse := x.wire.fsm.trans hf
    rw [hlen]
    refine Res.Sat.bind (Res.Sat.onRaise (Res.Sat.imp (parseResponseFrameOp_sat _ _ t) (fun v t h => h)
      (fun _ _ h => h) ?_) ?_) ?_
    · intro hn; exact absurd (by simpa [st.cfg] using hb) hn
    · rintro e t' ⟨rfl, hp⟩
      exact .inl ⟨rc.settle pr (by rw [tf]; decide) (by decide), by rw [st.cfg] at hp; exact hp⟩
    · rintro p t' ⟨rfl, hp, hpl⟩
      have r2 := rc.trans (reaches_setFsm (f := .responseParsed) (by rw [tf]; decide))
      rw [List.append_nil] at r2
      rw [st.cfg] at hp
      simp only [State.setFsm_cfg, st.cfg]
      cases hd : responseData s.cfg op p with
      | ok d =>
        have hpd := responseData_ok hd
        refine ⟨d, rfl, ?_, r2.settle (pr.set _) (by simp) (by decide), by rw [← hpd]; exact hp⟩
        rw [hpd, st.cfg] at hpl; simp at hpl; omega
      | error e =>
        obtain ⟨rfl, hh⟩ := responseData_error hd
        exact .inr ⟨r2.settle (pr.set _) (by simp) (by decide), rfl, p, hp, hh⟩

/-- An answer as a value of SEND_COMMAND. -/
abbrev Answer.ofValue : Option (List Byte) → Answer
  | some d => .data d
  | none => .noResponse

/-- Steps 3 to 5 (R190): they end without a response, by a wait or by the ACK, or they come to the response read. What
the response read is allowed to be plays no part. -/
theorem awaitAck_cases (op : Byte) (cap tmo : Nat) {s : State} (r : WireReady s) (hf : s.fsm = .frameSent) :
    (∃ t fs es d, awaitAck op cap tmo s = .ok none t ∧ Ends s t fs es d ∧
      Dialogue s op cap tmo s.world.misoIx .noResponse (.frameSent :: fs) es d) ∨
    (∃ t fs es d, awaitAck op cap tmo s = .raised .ackMismatch t ∧ Ends s t fs es d ∧
      Dialogue s op cap tmo s.world.misoIx (.error .ackMismatch) (.frameSent :: fs) es d) ∨
    (∃ b k₁ k₂, awaitAck op cap tmo s = receiveResponse op cap b ∧ Acknowledged s tmo s.world.misoIx k₁ ∧
      PollsTo s tmo (s.world.misoIx + 16 * k₁ + 56) k₂ true ∧ b.fsm = .awaitingResponse ∧
      b.world.misoIx = s.world.misoIx + 16 * k₁ + 56 + 16 * k₂ ∧
      Reaches s b [.awaitingAck, .ackVerified, .awaitingResponse] (answerWaitEvents s s.world.misoIx k₁ k₂)
        (waitTime tmo k₁ true + 2 + waitTime tmo k₂ true)) := by
  have r1 := reaches_setFsm (f := .awaitingAck) (s := s) (by rw [hf]; decide)
  obtain ⟨k, v, t, e, hk1, hk2, w⟩ := waitReadyOp_ok (timeout := tmo) (r1.steady.ready r)
  have st := r1.steady.trans w.wire.steady
  have p1 := r1.steady.pollsTo (w.pollsTo hk1 hk2)
  have rt := r1.trans (w.wire.reaches w.trace (w.time (wire_readClock _).now))
  have pr : PinsRest s t := ⟨w.csnQ, by simpa using w.sckQ⟩
  have ix : t.world.misoIx = s.world.misoIx + 16 * k := by simpa using w.misoIx
  have tf : t.fsm = .awaitingAck := by rw [w.wire.fsm]; simp
  have sc := r1.steady.conf
  rw [waitEvents_congr sc.1 sc.2.2.1 r1.steady.miso r1.steady.cfg] at rt
  simp only [State.setFsm_world, List.nil_append, List.append_nil, Nat.zero_add] at rt p1
  rw [awaitAck, e]
  simp only [Res.bind]
  cases v with
  | false =>
    exact .inl ⟨_, _, _, _, rfl, rt.settle pr (by rw [tf]; decide) (by decide), .noAck k p1⟩
  | true =>
    have ra : WireReady t := st.ready r
    obtain ⟨u, eu, x⟩ := wireExchange_ok (bs := t.cfg.dr :: List.replicate 6 0x00) ra
      (by simp [bufMax]; omega) (.inr (by simp))
    have su := st.trans x.wire.steady
    have ru := rt.trans (x.wire.reaches x.trace x.now)
    rw [exchangeEvents_congr st.conf.1 st.conf.2.2.1 st.miso st.cfg, st.cfg, ix] at ru
    have pu : PinsRest s u := ⟨x.csnQ, by simpa [st.conf.1] using x.sckQ⟩
    have fu : u.fsm = .awaitingAck := x.wire.fsm.trans tf
    have hack : readAckOp t = if drawnBytes s.order s.world (s.world.misoIx + 16 * k) 7 = ackBytes then .ok () u
        else .raised .ackMismatch u := by
      rw [readAckOp, dataReadOp_eq (by decide), show ackBytes.length - 1 = 6 from rfl, eu, ← ix, ← st.drawn]; rfl
    simp only [if_true]
    rw [hack]
    by_cases ha : drawnBytes s.order s.world (s.world.misoIx + 16 * k) 7 = ackBytes
    · rw [if_pos ha]
      obtain ⟨a, hadef⟩ : ∃ a, a = (u.setFsm .ackVerified).setFsm .awaitingResponse := ⟨_, rfl⟩
      have rb : Reaches s a _ _ _ := hadef ▸ (ru.trans (reaches_setFsm (f := .ackVerified) (by rw [fu]; decide))).trans
        (reaches_setFsm (f := .awaitingResponse) (by simp))
      have ia : a.world.misoIx = s.world.misoIx + 16 * k + 56 := by
        rw [hadef]; simp only [State.setFsm_world]; rw [x.misoIx, ix]; simp
      have fa : a.fsm = .awaitingResponse := by rw [hadef]; simp
      obtain ⟨k₂, v, b, e₂, hk3, hk4, w₂⟩ := waitReadyOp_ok (timeout := tmo) (rb.steady.ready r)
      have p2 := rb.steady.pollsTo (w₂.pollsTo hk3 hk4)
      have rc := rb.trans (w₂.wire.reaches w₂.trace (w₂.time (wire_readClock _).now))
      rw [waitEvents_congr rb.steady.conf.1 rb.steady.conf.2.2.1 rb.steady.miso rb.steady.cfg, ia] at rc
      rw [ia] at p2
      have fb := w₂.wire.fsm.trans fa
      have pb : PinsRest s b := ⟨w₂.csnQ, by rw [w₂.sckQ, rb.steady.conf.1]⟩
      simp only [List.nil_append, List.append_nil, List.cons_append, Nat.add_zero] at rc
      simp only [Res.protocolChecked, Res.onRaise, Res.bind, awaitResponse, ← hadef, e₂]
      cases v with
      | false =>
        exact .inl ⟨_, _, _, _, rfl, rc.settle pb (by rw [fb]; decide) (by decide), .noAnswer k k₂ ⟨p1, ha⟩ p2⟩
      | true =>
        exact .inr (.inr ⟨b, k, k₂, rfl, ⟨p1, ha⟩, p2, fb, by rw [w₂.misoIx, ia], rc⟩)
    · rw [if_neg ha]
      exact .inr (.inl ⟨_, _, _, _, rfl, ru.settle pu (by rw [fu]; decide) (by decide), .badAck k p1 ha⟩)

/-- Steps 3 to 8 (R190): the sequencer's ending is that of a dialogue the draws allow. -/
theorem awaitAck_sat (op : Byte) (cap tmo : Nat) {s : State} (r : WireReady s) (hf : s.fsm = .frameSent) :
    (awaitAck op cap tmo s).Sat
      (fun v t => (∀ d ∈ v, d.length ≤ bufMax s.cfg) ∧ ∃ fs es d, Ends s t fs es d ∧
        Dialogue s op cap tmo s.world.misoIx (Answer.ofValue v) (.frameSent :: fs) es d)
      (fun e t => ∃ fs es d, Ends s t fs es d ∧
        Dialogue s op cap tmo s.world.misoIx (.error e) (.frameSent :: fs) es d)
      (¬ CommandRuns s cap) := by
  rcases awaitAck_cases op cap tmo r hf with
    ⟨t, fs, es, d, e, en, dl⟩ | ⟨t, fs, es, d, e, en, dl⟩ | ⟨b, k₁, k₂, e, ha, p2, fb, ib, rb⟩
  · rw [e]; exact ⟨by simp, fs, es, d, en, dl⟩
  · rw [e]; exact ⟨fs, es, d, en, dl⟩
  · have sb := rb.steady
    have hl : responseLength b cap = responseLength s cap := by rw [responseLength, sb.cfg]
    have hx := dataReadEvents_congr sb.conf.1 sb.conf.2.2.1 sb.miso sb.cfg (responseLength s cap) b.world.misoIx
    rw [e]
    refine Res.Sat.imp (receiveResponse_sat op cap b fb) ?_ ?_ ?_
    · rintro v c ⟨d, rfl, hd, en, hp⟩
      rw [hl, sb.drawn, sb.cfg, ib] at hp
      rw [hl, hx, ib] at en
      exact ⟨by simpa [sb.cfg] using hd, _, _, _, rb.ends en, .answered k₁ k₂ d ha p2 hp⟩
    · rintro e c (⟨en, hp⟩ | ⟨en, rfl, p, hp, hh⟩)
      · rw [hl, sb.drawn, sb.cfg, ib] at hp
        rw [hl, hx, ib] at en
        exact ⟨_, _, _, rb.ends en, .badFrame k₁ k₂ e ha p2 hp⟩
      · rw [hl, sb.drawn, sb.cfg, ib] at hp
        rw [hl, hx, ib] at en
        rw [sb.cfg] at hh
        exact ⟨_, _, _, rb.ends en, .wrongCommand k₁ k₂ p ha p2 hp hh⟩
    · intro h r
      refine h ⟨sb.ready r.1, by rw [sb.cfg]; exact r.2.1, ?_⟩
      have := r.2.2; rwa [WriteIndexFits, ← sb.cfg] at this

/-- A dialogue depends on the configuration, the answers fixed in advance, and the parameters alone. -/
theorem Dialogue.congr {s t : State} (hm : t.mode = s.mode) (ho : t.order = s.order)
    (hw : t.world.miso = s.world.miso) (hc : t.cfg = s.cfg) {op : Byte} {cap tmo ix : Nat} {a : Answer}
    {fs : List Fsm} {es : List Event} {d : Nat} (dl : Dialogue t op cap tmo ix a fs es d) :
    Dialogue s op cap tmo ix a fs es d := by
  have hp : ∀ ix k, pollAt t ix k = pollAt s ix k := fun ix k => by simp only [pollAt, ho, World.misoAt_congr hw]
  have polls : ∀ {ix k v}, PollsTo t tmo ix k v → PollsTo s tmo ix k v := fun p =>
    ⟨p.atLeast, p.atMost, fun i hi => by rw [← hp, ← hc]; exact p.earlier i hi, by rw [← hp, ← hc]; exact p.last⟩
  have hd : ∀ ix n, drawnBytes t.order t.world ix n = drawnBytes s.order s.world ix n := fun ix n => by
    rw [ho, drawnBytes_congr hw]
  have acked : ∀ {ix k}, Acknowledged t tmo ix k → Acknowledged s tmo ix k := fun h =>
    ⟨polls h.wait, by rw [← hd]; exact h.ack⟩
  have hwe := waitEvents_congr hm ho hw hc
  have hde := dataReadEvents_congr hm ho hw hc
  have hl : responseLength t cap = responseLength s cap := by rw [responseLength, hc]
  cases dl with
  | noAck k h => rw [hwe]; exact .noAck k (polls h)
  | badAck k h ha => simp only [ackedEvents, hwe, hde]; exact .badAck k (polls h) (by rwa [hd] at ha)
  | noAnswer k₁ k₂ h h₂ =>
    simp only [answerWaitEvents, ackedEvents, hwe, hde]; exact .noAnswer k₁ k₂ (acked h) (polls h₂)
  | badFrame k₁ k₂ e h h₂ hq =>
    simp only [responseEvents, answerWaitEvents, ackedEvents, hwe, hde, hl]
    exact .badFrame k₁ k₂ e (acked h) (polls h₂) (by rwa [rawResponse, hl, hd, hc] at hq)
  | wrongCommand k₁ k₂ p h h₂ hq hh =>
    simp only [responseEvents, answerWaitEvents, ackedEvents, hwe, hde, hl]
    exact .wrongCommand k₁ k₂ p (acked h) (polls h₂) (by rwa [rawResponse, hl, hd, hc] at hq) (by rwa [hc] at hh)
  | answered k₁ k₂ d h h₂ hq =>
    simp only [responseEvents, answerWaitEvents, ackedEvents, hwe, hde, hl]
    exact .answered k₁ k₂ d (acked h) (polls h₂) (by rwa [rawResponse, hl, hd, hc] at hq)

/-- Step 2 (R190): the whole frame goes out in one select and deselect window. -/
theorem sendFrame_ok {f : List Byte} {s : State} (r : WireReady s) (h : f.length ≤ bufMax s.cfg) (hf : f ≠ []) :
    ∃ t, sendFrame f s = .ok () t ∧ Wire s t ∧ PinsRest s t ∧ t.world.misoIx = s.world.misoIx ∧
      TraceAdds s t (frameWriteEvents s f) ∧ s.world.now + 2 ≤ t.world.now ∧
      t.mosiQ = lastDriven (wireBitsOf s.order f) s.mosiQ := by
  obtain ⟨u, hu⟩ : ∃ u, u = ((s.hold f).pinOut .csn .low).delay tWake := ⟨_, rfl⟩
  have wu : Wire s u := hu ▸ ((wire_hold _ s).trans (wire_pinOut _ _ _)).trans (wire_delay _ _)
  have hx := writeEvents_runs f false false u
  refine ⟨(writeEvents f false false u).pinOut .csn .high, ?_, (wu.trans hx.1).trans (wire_pinOut _ _ _), ?_, ?_, ?_, ?_, ?_⟩
  · rw [sendFrame, selectOp, needStarted_ok (by simpa using r.1)]
    simp only [Res.bind, delayOp, ← hu]
    rw [writeOp_ok (wu.ready r) (by rw [wu.cfg]; exact h)]
    simp only [deselectOp]
    rw [needStarted_ok (hx.1.ready (wu.ready r)).1]
  · simp [PinsRest, hx.2.2.2.1, hf, wu.conf.1]
  · rw [pinOut_misoIx, hx.2.2.1, hu]; simp
  · have ht : u.trace = s.trace ++ [.out .csn .low, .wait 2] := by rw [hu]; simp [tWake]
    simp only [TraceAdds, pinOut_trace]
    rw [hx.2.1, ht, wu.conf.2.2.1, wu.setup]; simp [flagEvents, frameWriteEvents]
  · have n1 := delay_now tWake ((s.hold f).pinOut .csn .low)
    have n2 := (wire_pinOut .csn .low (s.hold f)).now
    have n3 := (hx.1.trans (wire_pinOut .csn .high _)).now
    rw [← hu] at n1
    simp only [tWake, State.hold_world] at n1 n2
    omega
  · have hm : u.mosiQ = s.mosiQ := by rw [hu]; simp
    simp [hx.2.2.2.2.1, wu.conf.2.2.1, hm]

/-- What SEND_COMMAND and the composites come to once the frame is out: the end of the operation, by a conversation
that comes to the answer `a`. -/
structure Talked (s t : State) (op : Byte) (params : List Byte) (cap tmo : Nat) (a : Answer) : Prop where
  steady : Steady s t
  pins : PinsRest s t
  fsm : t.fsm = .idle
  talk : Converses s t op params cap tmo a

/-- SEND_COMMAND up to step 2 (R190, R191): once the frame is out, the rest is a dialogue from a state that sees what
`s` sees. -/
theorem sendCommandOp_eq (op : Byte) {params : List Byte} (cap tmo : Nat) {s : State} (r : WireReady s)
    (hf : s.fsm = .idle) (hl : params.length ≤ 253) :
    ∃ u, sendCommandOp op params cap tmo s = awaitAck op cap tmo u ∧ u.fsm = .frameSent ∧
      u.world.misoIx = s.world.misoIx ∧
      Reaches s u [.frameSent] (frameWriteEvents s (frameOf s.cfg (commandPayload s.cfg op params))) 2 := by
  have hlen : (commandPayload s.cfg op params).length = params.length + 2 := by simp [commandPayload]
  have hfl : (frameOf s.cfg (commandPayload s.cfg op params)).length ≤ bufMax s.cfg := by
    rw [frameOf_length, hlen, bufMax]; omega
  obtain ⟨u, e, wu, pu, iu, tu, nu, -⟩ := sendFrame_ok r hfl (by simp [frameOf])
  have ru := (wu.reaches tu nu).trans (reaches_setFsm (f := .frameSent) (by rw [wu.fsm, hf]; decide))
  rw [List.append_nil] at ru
  refine ⟨u.setFsm .frameSent, ?_, by simp, by simpa using iu, ru⟩
  rw [sendCommandOp, needStarted_ok r.1, needConfigured_ok r.2.2 r.2.1, buildFrameOp, hlen,
    needFits_ok (by rw [bufMax]; omega), if_neg (by omega)]
  simp only [Res.protocolChecked, Res.onRaise, Res.bind, e]

theorem Reaches.talked {s u t : State} {op : Byte} {params : List Byte} {cap tmo : Nat} {a : Answer} {fs : List Fsm}
    {es : List Event} {d : Nat} (iu : u.world.misoIx = s.world.misoIx)
    (h : Reaches s u [.frameSent] (frameWriteEvents s (frameOf s.cfg (commandPayload s.cfg op params))) 2)
    (en : Ends u t fs es d) (dl : Dialogue u op cap tmo u.world.misoIx a (.frameSent :: fs) es d) :
    Talked s t op params cap tmo a := by
  have k := h.ends en
  rw [iu] at dl
  exact ⟨k.steady, k.pins, k.fsm, _, _, _,
    dl.congr h.steady.conf.1 h.steady.conf.2.2.1 h.steady.miso h.steady.cfg, k.log, k.trace,
    by have := k.time; omega⟩

/-- SEND_COMMAND, whole (R190, R191, R193): a payload too long ends it before any pin event; else the frame goes out
and the rest is a dialogue the draws allow. -/
theorem sendCommandOp_sat (op : Byte) (params : List Byte) (cap tmo : Nat) (s : State) (hf : s.fsm = .idle) :
    (sendCommandOp op params cap tmo s).Sat
      (fun v t => (∀ d ∈ v, d.length ≤ bufMax s.cfg) ∧ Talked s t op params cap tmo (Answer.ofValue v))
      (fun e t =>
        (253 < params.length ∧ e = .payloadTooLong (params.length + 2) ∧ Steady s t ∧ SameLatches s t ∧
          SameWire s t ∧ t.fsm = .idle ∧ t.fsmLog = s.fsmLog ++ [.protocolError, .idle]) ∨
        (params.length ≤ 253 ∧ Talked s t op params cap tmo (.error e)))
      (¬ (CommandRuns s cap ∧ params.length + 2 ≤ bufMax s.cfg)) := by
  by_cases r : WireReady s
  · by_cases hl : params.length ≤ 253
    · obtain ⟨u, e, fu, iu, ru⟩ := sendCommandOp_eq op cap tmo r hf hl
      rw [e]
      refine Res.Sat.imp (awaitAck_sat op cap tmo (ru.steady.ready r) fu) ?_ ?_ ?_
      · rintro v w ⟨hd, fs, es, d, en, dl⟩
        exact ⟨by rwa [ru.steady.cfg] at hd, ru.talked iu en dl⟩
      · rintro e w ⟨fs, es, d, en, dl⟩
        exact .inr ⟨hl, ru.talked iu en dl⟩
      · intro h k
        refine h ⟨ru.steady.ready r, by rw [ru.steady.cfg]; exact k.1.2.1, ?_⟩
        have := k.1.2.2; rwa [WriteIndexFits, ← ru.steady.cfg] at this
    · have hlen : (commandPayload s.cfg op params).length = params.length + 2 := by simp [commandPayload]
      rw [sendCommandOp, needStarted_ok r.1, needConfigured_ok r.2.2 r.2.1, buildFrameOp, hlen]
      unfold needFits
      split
      · rw [if_pos (by omega)]
        exact .inl ⟨by omega, rfl, steady_settleFsm _ _, by simp [SameLatches, State.settleFsm],
          by simp [SameWire, State.settleFsm], by simp, settleFsm_fsmLog (by rw [hf]; decide) (by decide)⟩
      · next hb => exact fun h => hb h.2
  · unfold sendCommandOp needStarted needConfigured
    split <;> try exact fun k => r k.1.1
    split <;> try exact fun k => r k.1.1
    next h1 h2 => simp only [Bool.and_eq_true] at h2; exact absurd ⟨h1, h2.2, h2.1⟩ r

/-! ### The composites -/

/-- GET_FIRMWARE_VERSION (R195): never `NoResponse`; non-empty data, or `DeviceNotDetected`, or an error of
SEND_COMMAND. -/
theorem getFirmwareVersionOp_sat (s : State) (hf : s.fsm = .idle) :
    (getFirmwareVersionOp s).Sat
      (fun v t => v ≠ [] ∧ v.length ≤ bufMax s.cfg ∧ Talked s t s.cfg.opcGfv [] 4 s.cfg.tCmdDefault (.data v))
      (fun e t => Talked s t s.cfg.opcGfv [] 4 s.cfg.tCmdDefault (.error e) ∨
        (e = .deviceNotDetected ∧ (Talked s t s.cfg.opcGfv [] 4 s.cfg.tCmdDefault .noResponse ∨
          Talked s t s.cfg.opcGfv [] 4 s.cfg.tCmdDefault (.data []))))
      (¬ CommandRuns s 4) := by
  have h2 := two_le_bufMax s.cfg
  refine Res.Sat.bind (Res.Sat.imp (sendCommandOp_sat _ [] gfvCap _ s hf) (fun v t h => h) ?_ ?_) ?_
  · rintro e t (⟨hl, -⟩ | ⟨-, tk⟩)
    · simp at hl
    · exact .inl tk
  · exact fun h k => h ⟨k, by simpa using h2⟩
  · rintro v t ⟨hd, tk⟩
    cases v with
    | none => exact .inr ⟨rfl, .inl tk⟩
    | some d =>
      simp only []
      split
      · next h0 => rw [List.length_eq_zero_iff.mp h0] at tk; exact .inr ⟨rfl, .inr tk⟩
      · next h0 => exact ⟨fun h => h0 (by rw [h]; rfl), hd d rfl, tk⟩

/-- USE_SAM_CONFIGURATION (R196): `Ok(())` for data and for no response. -/
theorem useSamConfigurationOp_sat (s : State) (hf : s.fsm = .idle) :
    (useSamConfigurationOp s).Sat
      (fun _ t => ∃ v, Talked s t s.cfg.opcSam s.cfg.samParams s.cfg.samCap s.cfg.tCmdDefault (Answer.ofValue v))
      (fun e t =>
        (253 < s.cfg.samParams.length ∧ e = .payloadTooLong (s.cfg.samParams.length + 2) ∧ Steady s t ∧
          SameLatches s t ∧ SameWire s t ∧ t.fsm = .idle ∧ t.fsmLog = s.fsmLog ++ [.protocolError, .idle]) ∨
        Talked s t s.cfg.opcSam s.cfg.samParams s.cfg.samCap s.cfg.tCmdDefault (.error e))
      (¬ (CommandRuns s s.cfg.samCap ∧ s.cfg.samParams.length + 2 ≤ bufMax s.cfg)) := by
  refine Res.Sat.bind (Res.Sat.imp (sendCommandOp_sat _ _ _ _ s hf) (fun v t h => h) ?_ id) ?_
  · rintro e t (h | ⟨-, tk⟩)
    · exact .inl h
    · exact .inr tk
  · rintro v t ⟨-, tk⟩
    exact ⟨v, tk⟩

theorem targetUid_length {d uid : List Byte} (h : targetUid d = .ok uid) : uid.length ≤ d.length := by
  unfold targetUid at h
  split_ifs at h with h1 h2 h3
  dsimp only at h
  split_ifs at h with h4 h5
  cases h; simp

/-- READ_PASSIVE_TARGET (R197): no response is `None`; data is `Some` of its UID or the error of its first failing
check. -/
theorem readPassiveTargetOp_sat (baud : Byte) (tmo : Nat) (s : State) (hf : s.fsm = .idle) :
    (readPassiveTargetOp baud tmo s).Sat
      (fun v t => (∀ u ∈ v, u.length ≤ bufMax s.cfg) ∧
        ((v = none ∧ Talked s t s.cfg.opcIlpt [s.cfg.ilptMaxTg, baud] 17 tmo .noResponse) ∨
          (∃ d uid, v = some uid ∧ targetUid d = .ok uid ∧
            Talked s t s.cfg.opcIlpt [s.cfg.ilptMaxTg, baud] 17 tmo (.data d))))
      (fun e t => Talked s t s.cfg.opcIlpt [s.cfg.ilptMaxTg, baud] 17 tmo (.error e) ∨
        (∃ d, targetUid d = .error e ∧ Talked s t s.cfg.opcIlpt [s.cfg.ilptMaxTg, baud] 17 tmo (.data d)))
      (¬ CommandRuns s 17) := by
  have h4 : 4 ≤ bufMax s.cfg := by simp [bufMax]; omega
  refine Res.Sat.bind (Res.Sat.imp (sendCommandOp_sat _ _ ilptCap _ s hf) (fun v t h => h) ?_ ?_) ?_
  · rintro e t (⟨hl, -⟩ | ⟨-, tk⟩)
    · simp at hl
    · exact .inl tk
  · exact fun h k => h ⟨k, by simpa using h4⟩
  · rintro v t ⟨hd, tk⟩
    cases v with
    | none => exact ⟨by simp, .inl ⟨rfl, tk⟩⟩
    | some d =>
      simp only []
      cases hu : targetUid d with
      | ok uid =>
        refine ⟨?_, .inr ⟨d, uid, rfl, hu, tk⟩⟩
        intro u hu'; cases hu'; exact (targetUid_length hu).trans (hd d rfl)
      | error e => exact .inr ⟨d, hu, tk⟩

/-- The state INITIALIZE queries the firmware version from: mode 0, LSB first, CS_N low for at least 1000 ms (R194). -/
abbrev bringUpState (s : State) : State :=
  (({ s with mode := 0, modeV := true, order := .lsbFirst, orderV := true } : State).pinOut .csn .low).delay tInitSettle

/-- INITIALIZE up to its query (R194). -/
theorem bringUpOp_eq {s : State} (hs : s.started = true) (hn : NoTransaction s) :
    bringUpOp s = (getFirmwareVersionOp (bringUpState s)).bind fun _ t => deselectOp t := by
  rw [bringUpOp, needStarted_ok hs, configureOp, needNoTransaction_ok hn]
  simp only [show readMode8 protocolMode = some 0 by decide, Res.bind]
  rw [configureBitOrderOp, needNoTransaction_ok (by exact hn)]
  simp only [show readOrder8 protocolOrder = some .lsbFirst by decide, selectOp]
  rw [needStarted_ok (by exact hs)]
  rfl

/-- INITIALIZE is refused, or it is the query from the brought-up state and a last deselect (R194, R198). -/
theorem bringUpOp_cases (s : State) :
    (∃ r, bringUpOp s = .refused r) ∨ (s.started = true ∧ NoTransaction s) := by
  by_cases hs : s.started = true
  · by_cases hn : NoTransaction s
    · exact .inr ⟨hs, hn⟩
    · left
      have hc : s.started = true ∧ s.csnQ = .low := not_not.mp hn
      exact ⟨_, by rw [bringUpOp, needStarted_ok hs, configureOp, needNoTransaction,
        if_pos (by simp [hc])]; rfl⟩
  · exact .inl ⟨_, by rw [bringUpOp, needStarted, if_neg hs]⟩

end Sys2Proof.Machine
end

