-- ==== Sys2Proof/Laws/Decode.lean ====
section
/-! SUPPORT. The two fields of a command word (30_encoding.md R81). -/

namespace Sys2Proof

/-- Bit `i` of a command word: `ARG` below bit 8, `OPC` from bit 8 on. -/
theorem getLsbD_wordOf (opc arg : Byte) (i : Nat) :
    (wordOf opc arg).getLsbD i = if i < 8 then arg.getLsbD i else opc.getLsbD (i - 8) :=
  BitVec.getLsbD_append

@[simp] theorem opcOf_wordOf (opc arg : Byte) : opcOf (wordOf opc arg) = opc := by
  refine BitVec.eq_of_getLsbD_eq fun i hi => ?_
  rw [opcOf, BitVec.getLsbD_extractLsb', getLsbD_wordOf]; simp [hi]

@[simp] theorem argOf_wordOf (opc arg : Byte) : argOf (wordOf opc arg) = arg := by
  refine BitVec.eq_of_getLsbD_eq fun i hi => ?_
  rw [argOf, BitVec.getLsbD_extractLsb', getLsbD_wordOf]; simp [hi]

theorem wordOf_fields (w : Word) : wordOf (opcOf w) (argOf w) = w := by
  refine BitVec.eq_of_getLsbD_eq fun i hi => ?_
  rw [getLsbD_wordOf, opcOf, argOf, BitVec.getLsbD_extractLsb', BitVec.getLsbD_extractLsb']
  split
  · next h => simp [h]
  · next h => simp [show i - 8 < 8 by omega, show 8 + (i - 8) = i by omega]

theorem wordOf_inj {a b c d : Byte} (h : wordOf a b = wordOf c d) : a = c ∧ b = d :=
  ⟨by simpa using congrArg opcOf h, by simpa using congrArg argOf h⟩

end Sys2Proof
end

