-- ==== Sys2Proof/Laws/Exec.lean ====
section
/-! SUPPORT. What any operation can do: one inversion lemma for exec, from which the invariants follow. -/

namespace Sys2Proof.Machine

/-- A next state is the end of an operation whose pieces kept what every piece keeps, with results that agree. -/
structure Ended (s t : State) : Prop where
  kept : Kept s t
  between : BetweenOps t
  results : ResultsAgree t.cfg t.res

theorem Ended.of_endOp {s u : State} {r : Results} (h : Kept s u) (hr : ResultsAgree s.cfg r) :
    Ended s (u.endOp r) := by
  refine ⟨h.trans (kept_endOp r u), betweenOps_endOp r u, ?_⟩
  simpa [h.inputs.2.2.2.1] using hr

theorem Ended.of_error {s u : State} (e : Error) (h : Kept s u) : Ended s (u.takeError e) :=
  Ended.of_endOp h (resultsAgree_ofError _ e)

theorem Exchanged.kept {s t : State} {bs : List Byte} (h : Exchanged s bs t) : Kept s t := h.wire.steady.kept

/-- Every operation that answers a next state from a state with `FSM` at `Idle` ends as `Ended` says. -/
theorem exec_ended {i : Instr} {s t : State} (hf : s.fsm = .idle) (h : exec i s = .next t) : Ended s t := by
  cases i with
  | configure m =>
    exact (configureOp_sat m s).conclude_next h (fun _ u hu => .of_endOp hu.1 (resultsAgree_ofUnit _))
      (fun e u hu => .of_error e (hu.1 ▸ (Steady.refl s).kept))
  | configureBitOrder o =>
    exact (configureBitOrderOp_sat o s).conclude_next h (fun _ u hu => .of_endOp hu.1 (resultsAgree_ofUnit _))
      (fun e u hu => .of_error e (hu.1 ▸ (Steady.refl s).kept))
  | start =>
    exact (startOp_sat s).conclude_next h (fun _ u hu => .of_endOp hu.1 (resultsAgree_ofUnit _))
      (fun _ _ hu => hu.elim)
  | select =>
    simp only [exec, execSelect, selectOp, needStarted] at h
    split at h <;> cases h
    exact .of_endOp (wire_pinOut _ _ s).steady.kept (resultsAgree_ofUnit _)
  | deselect =>
    simp only [exec, execDeselect, deselectOp, needStarted] at h
    split at h <;> cases h
    exact .of_endOp (wire_pinOut _ _ s).steady.kept (resultsAgree_ofUnit _)
  | write a b =>
    simp only [exec, execWrite] at h
    rcases writeOp_cases s.opr.txbuf a b s with ⟨r, hr⟩ | ⟨r, hl⟩
    · rw [hr] at h; cases h
    · rw [writeOp_ok r hl] at h; cases h
      exact .of_endOp (writeEvents_runs _ a b s).1.steady.kept (resultsAgree_ofUnit _)
  | read a b =>
    simp only [exec, execRead] at h
    rcases readOp_cases s.opr.len a b s with ⟨r, hr⟩ | ⟨r, hl⟩
    · rw [hr] at h; cases h
    · rw [readOp_ok r hl] at h; cases h
      exact .of_endOp ((readEvents_runs _ a s).1.trans (wire_chipSelectIf b _ _)).steady.kept
        (resultsAgree_ofBytes (by simpa using hl))
  | transfer a b =>
    simp only [exec, execTransfer] at h
    rcases transferOp_cases s.opr.txbuf a b s with ⟨r, hr⟩ | ⟨r, hl, hw⟩
    · rw [hr] at h; cases h
    · rw [transferOp_ok r hl hw] at h; cases h
      exact .of_endOp ((xferEvents_runs _ a s).1.trans (wire_chipSelectIf b _ _)).steady.kept
        (resultsAgree_ofBytes (by simpa using hl))
  | buildFrame =>
    refine (buildFrameOp_sat _ s).conclude_next h ?_ ?_
    · rintro v u ⟨rfl, rfl, -, hl⟩
      exact .of_endOp (Steady.refl _).kept (resultsAgree_ofBytes (by rw [frameOf_length, bufMax]; omega))
    · rintro e u ⟨rfl, -⟩; exact .of_error e (Steady.refl _).kept
  | parseResponseFrame =>
    refine (parseResponseFrameOp_sat _ _ s).conclude_next h ?_ ?_
    · rintro v u ⟨rfl, -, hl⟩; exact .of_endOp (Steady.refl _).kept (resultsAgree_ofBytes hl)
    · rintro e u ⟨rfl, -⟩; exact .of_error e (Steady.refl _).kept
  | statusRead =>
    refine (wireExchange_sat _ s).conclude_next h ?_ (fun _ _ hu => hu.elim)
    rintro v u ⟨rfl, x, -, hl⟩; exact .of_endOp x.kept (resultsAgree_ofBytes (by simpa using hl))
  | waitReady =>
    refine (waitReadyOp_sat _ s).conclude_next h ?_ (fun _ _ hu => hu.elim)
    rintro v u ⟨-, k, -, -, w⟩; exact .of_endOp w.wire.steady.kept (resultsAgree_ofFlag _ v)
  | dataRead =>
    simp only [exec, execDataRead, dataReadOp] at h
    split at h
    · cases h
    · refine (wireExchange_sat _ s).conclude_next h ?_ (fun _ _ hu => hu.elim)
      rintro v u ⟨rfl, x, -, hl⟩; exact .of_endOp x.kept (resultsAgree_ofBytes (by simpa using hl))
  | readAck =>
    refine (readAckOp_sat s).conclude_next h ?_ ?_
    · rintro v u ⟨-, x, -⟩; exact .of_endOp x.kept (resultsAgree_ofUnit _)
    · rintro e u ⟨-, x, -⟩; exact .of_error e x.kept
  | sendCommand op =>
    refine (sendCommandOp_sat op _ _ _ s hf).conclude_next h ?_ ?_
    · rintro v u ⟨hd, tk⟩; exact .of_endOp tk.steady.kept (resultsAgree_ofResponse hd)
    · rintro e u (⟨-, -, st, -⟩ | ⟨-, tk⟩)
      · exact .of_error e st.kept
      · exact .of_error e tk.steady.kept
  | initializeOp =>
    simp only [exec, execInitialize] at h
    rcases bringUpOp_cases s with ⟨r, hr⟩ | ⟨hs, hn⟩
    · rw [hr] at h; cases h
    · rw [bringUpOp_eq hs hn] at h
      obtain ⟨c, hc⟩ : ∃ c : State, c = { s with mode := 0, modeV := true, order := .lsbFirst, orderV := true } :=
        ⟨_, rfl⟩
      have kc : Kept s c := by
        rw [hc]
        exact ⟨id, fun _ => rfl, fun _ => rfl, fun _ _ => rfl, ⟨rfl, rfl, rfl, rfl, rfl, rfl⟩, le_rfl, le_rfl,
          ⟨[], .nil rfl ⟨rfl, rfl, rfl⟩⟩, id, [], by simp⟩
      have kb : Kept s (bringUpState s) := by
        rw [bringUpState, ← hc]; exact kc.trans ((wire_pinOut _ _ c).trans (wire_delay _ _)).steady.kept
      have fb : (bringUpState s).fsm = .idle := by simpa [State.delay, State.pinOut] using hf
      refine (Res.Sat.bind (P := fun _ u => Kept s u) (E := fun _ u => Kept s u) (R := True)
        ((getFirmwareVersionOp_sat _ fb).imp (P' := fun _ u => Kept s u) (R' := True)
          (fun v u hu => ?_) (fun e u hu => ?_) (fun _ => trivial)) ?_).conclude_next h
        (fun _ u hu => .of_endOp hu (resultsAgree_ofUnit _)) (fun e u hu => .of_error e hu)
      · exact kb.trans hu.2.2.steady.kept
      · rcases hu with tk | ⟨-, tk | tk⟩ <;> exact kb.trans tk.steady.kept
      · intro v u hu
        unfold deselectOp needStarted; split
        · exact hu.trans (wire_pinOut _ _ u).steady.kept
        · trivial
  | getFirmwareVersion =>
    refine (getFirmwareVersionOp_sat s hf).conclude_next h ?_ ?_
    · rintro v u ⟨-, hl, tk⟩; exact .of_endOp tk.steady.kept (resultsAgree_ofBytes hl)
    · rintro e u (tk | ⟨-, tk | tk⟩) <;> exact .of_error e tk.steady.kept
  | useSamConfiguration =>
    refine (useSamConfigurationOp_sat s hf).conclude_next h ?_ ?_
    · rintro _ u ⟨v, tk⟩; exact .of_endOp tk.steady.kept (resultsAgree_ofUnit _)
    · rintro e u (⟨-, -, st, -⟩ | tk)
      · exact .of_error e st.kept
      · exact .of_error e tk.steady.kept
  | readPassiveTarget b =>
    refine (readPassiveTargetOp_sat b _ s hf).conclude_next h ?_ ?_
    · rintro v u ⟨hl, ⟨-, tk⟩ | ⟨d, uid, -, -, tk⟩⟩ <;> exact .of_endOp tk.steady.kept (resultsAgree_ofTarget hl)
    · rintro e u (tk | ⟨d, -, tk⟩) <;> exact .of_error e tk.steady.kept

end Sys2Proof.Machine
end

