-- ==== Sys2Proof/Laws/PerInstr.lean ====
section
/-! SUPPORT. A fact of every instruction as syntax: the word the encoder gives it is accepted by the row of the
operation table that bears its mnemonic (30_encoding.md R84), and by that row only. -/

namespace Sys2Proof.Laws.LegalWord

/-- The row of `i`'s mnemonic accepts `i`'s word, and no other row does. -/
def Statement (i : Instr) : Prop :=
  ∃ r ∈ opTable, r.mnemonic = i.mnemonic ∧ r.accepts (encode i) = true ∧
    ∀ q ∈ opTable, q.accepts (encode i) = true → q = r

/-- What a row asks of a word, field by field. -/
theorem accepts_wordOf (r : Row) (opc arg : Byte) :
    r.accepts (wordOf opc arg) = true ↔ opc = r.opc ∧ arg &&& r.reading.reservedBits = 0x00 := by
  have h : wordOf opc arg &&& r.mask = wordOf opc (arg &&& r.reading.reservedBits) := by
    rw [wordOf, Row.mask, BitVec.and_append, wordOf]; congr 1; exact BitVec.and_allOnes
  rw [Row.accepts, beq_iff_eq, h]
  exact ⟨fun e => wordOf_inj e, fun ⟨e1, e2⟩ => by rw [e1, e2]; rfl⟩

/-- The operation codes of the table are distinct. -/
theorem opc_injective : ∀ q ∈ opTable, ∀ r ∈ opTable, q.opc = r.opc → q = r := by decide

theorem of_row (i : Instr) (r : Row) (arg : Byte) (hr : r ∈ opTable) (hm : r.mnemonic = i.mnemonic)
    (he : encode i = wordOf r.opc arg) (ha : arg &&& r.reading.reservedBits = 0x00) : Statement i := by
  refine ⟨r, hr, hm, ?_, fun q hq h => ?_⟩
  · rw [he, accepts_wordOf]; exact ⟨rfl, ha⟩
  · rw [he, accepts_wordOf] at h; exact opc_injective q hq r hr h.1.symm

theorem configure (m : Byte) : Statement (.configure m) :=
  of_row _ ⟨"CONFIGURE", 0x01, .mode8⟩ m (by decide) rfl rfl BitVec.and_zero
theorem configureBitOrder (o : Byte) : Statement (.configureBitOrder o) :=
  of_row _ ⟨"CONFIGURE_BIT_ORDER", 0x02, .order8⟩ o (by decide) rfl rfl BitVec.and_zero
theorem start : Statement .start := of_row _ ⟨"START", 0x03, .zero⟩ 0x00 (by decide) rfl rfl (by decide)
theorem select : Statement .select := of_row _ ⟨"SELECT", 0x04, .zero⟩ 0x00 (by decide) rfl rfl (by decide)
theorem deselect : Statement .deselect := of_row _ ⟨"DESELECT", 0x05, .zero⟩ 0x00 (by decide) rfl rfl (by decide)
theorem write (s d : Bool) : Statement (.write s d) :=
  of_row _ ⟨"WRITE", 0x08, .flags⟩ (flagsArg s d) (by decide) rfl rfl (by cases s <;> cases d <;> decide)
theorem read (s d : Bool) : Statement (.read s d) :=
  of_row _ ⟨"READ", 0x09, .flags⟩ (flagsArg s d) (by decide) rfl rfl (by cases s <;> cases d <;> decide)
theorem transfer (s d : Bool) : Statement (.transfer s d) :=
  of_row _ ⟨"TRANSFER", 0x0A, .flags⟩ (flagsArg s d) (by decide) rfl rfl (by cases s <;> cases d <;> decide)
theorem buildFrame : Statement .buildFrame :=
  of_row _ ⟨"BUILD_FRAME", 0x10, .zero⟩ 0x00 (by decide) rfl rfl (by decide)
theorem parseResponseFrame : Statement .parseResponseFrame :=
  of_row _ ⟨"PARSE_RESPONSE_FRAME", 0x11, .zero⟩ 0x00 (by decide) rfl rfl (by decide)
theorem statusRead : Statement .statusRead :=
  of_row _ ⟨"STATUS_READ", 0x12, .zero⟩ 0x00 (by decide) rfl rfl (by decide)
theorem waitReady : Statement .waitReady :=
  of_row _ ⟨"WAIT_READY", 0x13, .zero⟩ 0x00 (by decide) rfl rfl (by decide)
theorem dataRead : Statement .dataRead :=
  of_row _ ⟨"DATA_READ", 0x14, .zero⟩ 0x00 (by decide) rfl rfl (by decide)
theorem readAck : Statement .readAck := of_row _ ⟨"READ_ACK", 0x15, .zero⟩ 0x00 (by decide) rfl rfl (by decide)
theorem sendCommand (o : Byte) : Statement (.sendCommand o) :=
  of_row _ ⟨"SEND_COMMAND", 0x18, .opcode8⟩ o (by decide) rfl rfl BitVec.and_zero
theorem initializeOp : Statement .initializeOp :=
  of_row _ ⟨"INITIALIZE", 0x19, .zero⟩ 0x00 (by decide) rfl rfl (by decide)
theorem getFirmwareVersion : Statement .getFirmwareVersion :=
  of_row _ ⟨"GET_FIRMWARE_VERSION", 0x1A, .zero⟩ 0x00 (by decide) rfl rfl (by decide)
theorem useSamConfiguration : Statement .useSamConfiguration :=
  of_row _ ⟨"USE_SAM_CONFIGURATION", 0x1B, .zero⟩ 0x00 (by decide) rfl rfl (by decide)
theorem readPassiveTarget (b : Byte) : Statement (.readPassiveTarget b) :=
  of_row _ ⟨"READ_PASSIVE_TARGET", 0x1C, .baud8⟩ b (by decide) rfl rfl BitVec.and_zero

end Sys2Proof.Laws.LegalWord
end

