-- ==== Sys2Proof/Tests/Slice0.lean ====
section
/-! SUPPORT. The model's own tests. Expected results come from spec/95_test_vectors.md (the vector is named beside each
test) or from the rule named. Then one witness for the hypotheses of every statement that has some. -/

namespace Sys2Proof.Tests

open Sys2Proof.Machine

/-! ### Helpers -/

/-- The levels on MISO, in cell order, that an LSB-first reading turns into these bytes (20_memory.md R53). -/
def lsb (bs : List Byte) : List Level :=
  bs.flatMap fun b => (List.range 8).map fun j => if b.getLsbD j then .high else .low

/-- The block brought up in mode 0, LSB first, with `CSN_Q` high (70_reset_and_hazards.md R262). -/
def up : State :=
  { State.reset with modeV := true, order := .lsbFirst, orderV := true, started := true, csnQ := .high }

/-- `up` as START left it, with the events of START in its trace (R122). -/
def fresh : State := { up with trace := [.cfgOut .sck .low, .cfgOut .mosi .low, .cfgIn .miso, .cfgOut .csn .high] }

/-- `up` in another mode and order, with SCK at that mode's idle level. -/
def upIn (m : BitVec 2) (o : BitOrder) : State := { up with mode := m, order := o, sckQ := idleLevel m }

/-- `s` with a peripheral that answers these levels and a clock in which every step takes its minimum time. -/
def State.hears (levels : List Level) (s : State) : State :=
  { s with world := { s.world with miso := levels, lag := List.replicate 4000 0 } }

/-- `s` with a byte sequence operand. -/
def State.given (bs : List Byte) (s : State) : State := { s with opr := { s.opr with txbuf := bs } }

/-- `s` with a length operand. -/
def State.sized (n : Nat) (s : State) : State := { s with opr := { s.opr with len := n } }

/-- `s` with a capacity and a timeout. -/
def State.timed (cap tmo : Nat) (s : State) : State := { s with opr := { s.opr with cap := cap, tmo := tmo } }

/-- `s` with the write index by byte (41_transport_data.md R146). -/
def State.byByte (s : State) : State := { s with cfg := { s.cfg with xferWriteIndex := .byte } }

/-- The outcome is a next state that passes the test. -/
def ends (o : Host.Outcome State Fault Refusal) (p : State → Bool) : Bool :=
  match o with
  | .next t => p t
  | _ => false

/-- The outcome is this refusal. -/
def refuses (o : Host.Outcome State Fault Refusal) (r : Refusal) : Bool :=
  match o with
  | .refused q => q == r
  | _ => false

theorem ends_spec {o : Host.Outcome State Fault Refusal} {p : State → Bool} (h : ends o p = true) :
    ∃ t, o = .next t ∧ p t = true := by
  cases o with
  | next t => exact ⟨t, rfl, h⟩
  | fault r => cases h
  | refused r => cases h

/-- One bit cell of a WRITE in mode 0 (section 2.2: `M=x ^ v`). -/
def cell0 (x : Level) : List Event := [.out .mosi x, .out .sck .high, .out .sck .low]

/-! ### Decoding: words written out from 30_encoding.md R81, R84 -/

theorem test_decode_configure : decode 0b00000001_00000011#16 = .ok (.configure 3) := by decide
theorem test_decode_configureBitOrder : decode 0b00000010_00000001#16 = .ok (.configureBitOrder 1) := by decide
theorem test_decode_start : decode 0b00000011_00000000#16 = .ok .start := by decide
theorem test_decode_select : decode 0b00000100_00000000#16 = .ok .select := by decide
theorem test_decode_deselect : decode 0b00000101_00000000#16 = .ok .deselect := by decide
theorem test_decode_write : decode 0b00001000_00000010#16 = .ok (.write true false) := by decide
theorem test_decode_read : decode 0b00001001_00000001#16 = .ok (.read false true) := by decide
theorem test_decode_transfer : decode 0b00001010_00000011#16 = .ok (.transfer true true) := by decide
theorem test_decode_buildFrame : decode 0b00010000_00000000#16 = .ok .buildFrame := by decide
theorem test_decode_parseResponseFrame : decode 0b00010001_00000000#16 = .ok .parseResponseFrame := by decide
theorem test_decode_statusRead : decode 0b00010010_00000000#16 = .ok .statusRead := by decide
theorem test_decode_waitReady : decode 0b00010011_00000000#16 = .ok .waitReady := by decide
theorem test_decode_dataRead : decode 0b00010100_00000000#16 = .ok .dataRead := by decide
theorem test_decode_readAck : decode 0b00010101_00000000#16 = .ok .readAck := by decide
theorem test_decode_sendCommand : decode 0b00011000_01001010#16 = .ok (.sendCommand 0x4A) := by decide
theorem test_decode_initialize : decode 0b00011001_00000000#16 = .ok .initializeOp := by decide
theorem test_decode_getFirmwareVersion : decode 0b00011010_00000000#16 = .ok .getFirmwareVersion := by decide
theorem test_decode_useSamConfiguration : decode 0b00011011_00000000#16 = .ok .useSamConfiguration := by decide
theorem test_decode_readPassiveTarget : decode 0b00011100_00000101#16 = .ok (.readPassiveTarget 5) := by decide

/-- The table's bits go to the decoder as they stand; a word the table cannot give is none. -/
theorem test_decodeTableWord :
    decodeTableWord 16 0x0803 = some (.write true true) ∧ decodeTableWord 16 0x0600 = none ∧
      decodeTableWord 24 0x0803 = none := by decide

/-! ### Words that are not well-formed, one for each check of R85 (V-C14) -/

theorem test_illformed_opcode : Word.legal 0x0600#16 = false ∧ decode 0x0600#16 = .error (.opcode 0x06) := by decide
theorem test_illformed_zero : Word.legal 0x0301#16 = false ∧ decode 0x0301#16 = .error (.nonzeroArg 0x01) := by decide
theorem test_illformed_flags : Word.legal 0x0804#16 = false ∧ decode 0x0804#16 = .error (.flagBits 0x04) := by decide
theorem test_wellformed_word : Word.legal 0x0803#16 = true := by decide

/-! ### The step -/

/-- The next step runs the word placed, as the first instruction after reset (V-C2). -/
theorem test_step_first : ends (step (State.reset.withFetchWord 16 0x0103)) (fun t => t.mode == 3 && t.modeV) = true := by
  decide
/-- V-C14: a reserved word is refused. -/
theorem test_step_reserved :
    refuses (step (State.reset.withFetchWord 16 0x0301)) (.invalidCommand (.nonzeroArg 0x01)) = true := by decide

/-! ### Configuration and bring-up (section 2.1) -/

/-- V-C3. -/
theorem test_configure_range :
    ends (exec (.configure 4) { State.reset with mode := 1, modeV := true })
      (fun t => t.mode == 1 && t.res.outcome == .fatal && t.res.err == 0x01) = true := by decide
/-- V-C12. -/
theorem test_configure_transaction :
    refuses (exec (.configure 1) { up with csnQ := .low }) .configDuringTransaction = true := by decide
/-- V-C5. -/
theorem test_configureBitOrder :
    ends (exec (.configureBitOrder 1) State.reset) (fun t => t.order == .lsbFirst && t.orderV) = true := by decide
/-- V-C6. -/
theorem test_configureBitOrder_range :
    ends (exec (.configureBitOrder 2) up) (fun t => t.order == .lsbFirst && t.res.err == 0x02) = true := by decide
/-- V-C7. -/
theorem test_start_unconfigured : refuses (exec .start State.reset) .notConfigured = true := by decide
/-- V-C8. -/
theorem test_start_events :
    ends (exec .start { State.reset with mode := 2, modeV := true })
      (fun t => t.trace == [.cfgOut .sck .high, .cfgOut .mosi .low, .cfgIn .miso, .cfgOut .csn .high] &&
        t.started && t.sckQ == .high && t.csnQ == .high) = true := by decide
/-- V-C9. -/
theorem test_select_unstarted : refuses (exec .select { State.reset with modeV := true }) .notStarted = true := by decide
/-- V-C10. -/
theorem test_select : ends (exec .select up) (fun t => t.csnQ == .low && t.trace == [.out .csn .low]) = true := by decide
/-- V-C13. -/
theorem test_deselect :
    ends (exec .deselect { up with csnQ := .low }) (fun t => t.csnQ == .high && t.trace == [.out .csn .high]) = true := by
  decide

/-! ### Data operations (section 2.2) -/

/-- V-D1. -/
theorem test_write_msb :
    ends (exec (.write true true) (State.given [0xB0] (upIn 0 .msbFirst)))
      (fun t => t.trace == [.out .csn .low] ++ cell0 .high ++ cell0 .low ++ cell0 .high ++ cell0 .high ++ cell0 .low ++
        cell0 .low ++ cell0 .low ++ cell0 .low ++ [.out .csn .high] && t.mosiQ == .low) = true := by decide +kernel
/-- V-D14, with the second cell: the first SCK write changes no level, and is made. -/
theorem test_write_hazard :
    ends (exec (.write false false) (State.given [0x80] { upIn 0 .msbFirst with mode := 2 }))
      (fun t => t.trace.take 6 == [.out .mosi .high, .out .sck .low, .out .sck .high, .out .mosi .low, .out .sck .low,
        .out .sck .high]) = true := by decide +kernel
/-- V-D6: the sample follows the trailing edge in mode 1. -/
theorem test_read_trailing :
    ends (exec (.read false false) (State.hears [.high, .high, .low, .low, .low, .low, .high, .low]
      (State.sized 1 (upIn 1 .msbFirst))))
      (fun t => t.res.rxbuf == [0xC2] && t.trace.take 3 == [.out .sck .high, .out .sck .low, .sampled .high]) = true := by
  decide +kernel
/-- V-D4: the sample follows the leading edge in mode 0. -/
theorem test_read_leading :
    ends (exec (.read false false) (State.hears [.high, .low, .low, .low, .low, .low, .low, .low] (State.sized 1 up)))
      (fun t => t.res.rxbuf == [0x01] && t.trace.take 3 == [.out .sck .high, .sampled .high, .out .sck .low]) = true := by
  decide +kernel
/-- V-D9. -/
theorem test_transfer :
    ends (exec (.transfer true true) (State.hears [.high, .low, .low, .high, .high, .low, .high, .low]
      (State.given [0xA5] (upIn 3 .lsbFirst))))
      (fun t => t.res.rxbuf == [0x59] && t.mosiQ == .high && t.sckQ == .high &&
        t.trace.take 5 == [.out .csn .low, .out .mosi .high, .out .sck .low, .out .sck .high, .sampled .high]) = true := by
  decide +kernel
/-- R146: by byte, all cells of byte 1 of `[0x01, 0x02]` drive its bit 1, LSB first. -/
theorem test_transfer_byByte :
    ends (exec (.transfer false false) (State.hears (lsb [0x00, 0x00]) (State.byByte (State.given [0x01, 0x02] up))))
      (fun t => t.trace.countP (· == .out .mosi .high) == 16 && t.trace.countP (· == .out .mosi .low) == 0) = true := by
  decide +kernel

/-! ### Frames (sections 2.3, 2.4) -/

/-- V-B2. -/
theorem test_buildFrame :
    ends (exec .buildFrame (State.given [0xD4, 0x14, 0x01, 0x14, 0x01] State.reset))
      (fun t => t.res.rxbuf ==
        [0x01, 0x00, 0x00, 0xFF, 0x05, 0xFB, 0xD4, 0x14, 0x01, 0x14, 0x01, 0x02, 0x00]) = true := by decide +kernel
/-- V-B8. -/
theorem test_buildFrame_empty :
    ends (exec .buildFrame State.reset) (fun t => t.res.outcome == .fatal && t.res.err == 0x18) = true := by decide
/-- V-P2: one more zero, and V-P17: trailing bytes. -/
theorem test_parseResponseFrame :
    ends (exec .parseResponseFrame (State.given
      [0x01, 0x00, 0x00, 0x00, 0xFF, 0x06, 0xFA, 0xD5, 0x03, 0x32, 0x01, 0x06, 0x07, 0xE8, 0x55, 0x99] State.reset))
      (fun t => t.res.rxbuf == [0xD5, 0x03, 0x32, 0x01, 0x06, 0x07]) = true := by decide +kernel
/-- V-P16: the first failing check wins. -/
theorem test_parseResponseFrame_first :
    ends (exec .parseResponseFrame (State.given
      [0x01, 0x00, 0x00, 0xFF, 0x06, 0xFB, 0xD5, 0x03, 0x32, 0x01, 0x06, 0x07, 0xE9, 0x00] State.reset))
      (fun t => t.res.err == 0x14 && t.res.rxbuf == []) = true := by decide +kernel

/-! ### The SPI transactions, the ACK detector, the ready wait (section 2.5) -/

/-- V-A4. -/
theorem test_statusRead :
    ends (exec .statusRead (State.hears (lsb [0x00, 0x01]) up))
      (fun t => t.res.rxbuf == [0x00, 0x01] && t.trace.take 2 == [.out .csn .low, .wait 2] && t.csnQ == .high &&
        t.world.now == 2) = true := by decide +kernel
/-- V-W3. -/
theorem test_waitReady_never :
    ends (exec .waitReady (State.hears (lsb (List.replicate 6 0x00)) (State.timed 0 25 up)))
      (fun t => !t.res.flag && t.res.outcome == .ok && t.world.misoIx == 48 && t.world.now == 26) = true := by
  decide +kernel
/-- V-W2, with V-W5 as its first poll: only the second byte is tested. -/
theorem test_waitReady_second :
    ends (exec .waitReady (State.hears (lsb [0xFF, 0x00, 0x00, 0x01]) (State.timed 0 1000 up)))
      (fun t => t.res.flag && t.trace.count (.wait 10) == 1 && t.world.misoIx == 32) = true := by decide +kernel
/-- R167: `[DR] ++ [0x00] * (n-1)` goes out, `n` bytes come in. -/
theorem test_dataRead :
    ends (exec .dataRead (State.hears (lsb [0x12, 0x34]) (State.sized 2 up)))
      (fun t => t.res.rxbuf == [0x12, 0x34] && t.trace.count (.out .mosi .high) == 2) = true := by decide +kernel
/-- R167: no byte is no data read. -/
theorem test_dataRead_none : refuses (exec .dataRead up) .invalidLength = true := by decide
/-- V-A1. -/
theorem test_readAck :
    ends (exec .readAck (State.hears (lsb [0x01, 0x00, 0x00, 0xFF, 0x00, 0xFF, 0x00]) up))
      (fun t => t.res.outcome == .ok && t.csnQ == .high) = true := by decide +kernel
/-- V-A2: a permuted ACK, all seven bytes read. -/
theorem test_readAck_permuted :
    ends (exec .readAck (State.hears (lsb [0x01, 0x00, 0xFF, 0x00, 0x00, 0xFF, 0x00]) up))
      (fun t => t.res.err == 0x10 && t.world.misoIx == 56 && t.csnQ == .high) = true := by decide +kernel

/-! ### The sequencer and the composites (section 2.6) -/

/-- Ready, acknowledged, ready again (V-S1). -/
def shaken : List Byte := [0x00, 0x01, 0x01, 0x00, 0x00, 0xFF, 0x00, 0xFF, 0x00, 0x00, 0x01]
/-- The answer of V-S1. -/
def versionFrame : List Byte :=
  [0x01, 0x00, 0x00, 0xFF, 0x06, 0xFA, 0xD5, 0x03, 0x32, 0x01, 0x06, 0x07, 0xE8, 0x00]
/-- The answer of V-M1. -/
def samFrame : List Byte := [0x01, 0x00, 0x00, 0xFF, 0x02, 0xFE, 0xD5, 0x15, 0x16, 0x00]
/-- The answer of V-T1. -/
def targetFrame : List Byte :=
  [0x01, 0x00, 0x00, 0xFF, 0x0C, 0xF4, 0xD5, 0x4B, 0x01, 0x01, 0x00, 0x04, 0x08, 0x04, 0x12, 0x34, 0x56, 0x78, 0xBA,
   0x00, 0x00, 0x00, 0x00, 0x00, 0x00, 0x00, 0x00]

/-- V-S5: the marker is `D4`, with `DCS = E9`. -/
theorem test_sendCommand_marker :
    ends (exec (.sendCommand 0x02) (State.hears (lsb (shaken ++ [0x01, 0x00, 0x00, 0xFF, 0x06, 0xFA, 0xD4, 0x03, 0x32,
      0x01, 0x06, 0x07, 0xE9, 0x00])) (State.timed 4 1000 up)))
      (fun t => t.res.err == 0x16 && t.res.rxbuf == [] &&
        t.fsmLog == [.frameSent, .awaitingAck, .ackVerified, .awaitingResponse, .responseParsed, .protocolError, .idle])
      = true := by decide +kernel
/-- V-S6 with the timeout of V-W4: never ready, one poll. -/
theorem test_sendCommand_silent :
    ends (exec (.sendCommand 0x4A) (State.hears (lsb [0x00, 0x00]) (State.given [0x01, 0x00] (State.timed 17 0 up))))
      (fun t => t.res.outcome == .noResponse && t.fsmLog == [.frameSent, .awaitingAck, .noResponse, .idle]) = true := by
  decide +kernel
/-- P3, step 4. -/
theorem test_getFirmwareVersion :
    ends (exec .getFirmwareVersion (State.hears (lsb (shaken ++ versionFrame)) up))
      (fun t => t.res.rxbuf == [0x32, 0x01, 0x06, 0x07] && t.world.misoIx == 200 && t.mosiQ == .low &&
        t.fsmLog == [.frameSent, .awaitingAck, .ackVerified, .awaitingResponse, .responseParsed, .success, .idle])
      = true := by decide +kernel
/-- V-G3: a response with no data. -/
theorem test_getFirmwareVersion_empty :
    ends (exec .getFirmwareVersion (State.hears (lsb (shaken ++ [0x01, 0x00, 0x00, 0xFF, 0x02, 0xFE, 0xD5, 0x03, 0x28,
      0x00, 0x00, 0x00, 0x00, 0x00])) up)) (fun t => t.res.outcome == .fatal && t.res.err == 0x20) = true := by
  decide +kernel
/-- V-M1. -/
theorem test_useSamConfiguration :
    ends (exec .useSamConfiguration (State.hears (lsb (shaken ++ samFrame)) up))
      (fun t => t.res.outcome == .ok && t.world.misoIx == 8 * 21) = true := by decide +kernel
/-- V-T1. -/
theorem test_readPassiveTarget :
    ends (exec (.readPassiveTarget 0) (State.hears (lsb (shaken ++ targetFrame)) (State.timed 0 1000 up)))
      (fun t => t.res.flag && t.res.rxbuf == [0x12, 0x34, 0x56, 0x78]) = true := by decide +kernel
/-- V-T2 with the timeout of V-W4: no card, one poll. -/
theorem test_readPassiveTarget_none :
    ends (exec (.readPassiveTarget 0) (State.hears (lsb [0x00, 0x00]) (State.timed 0 0 up)))
      (fun t => !t.res.flag && t.res.outcome == .ok && t.res.rxbuf == [] && t.world.misoIx == 16) = true := by
  decide +kernel
/-- P7, step 4: the bring-up turns the order over and queries the firmware. -/
theorem test_initialize :
    ends (exec .initializeOp (State.hears (lsb (shaken ++ versionFrame)) (upIn 0 .msbFirst)))
      (fun t => t.res.outcome == .ok && t.order == .lsbFirst && t.csnQ == .high &&
        t.fsmLog.length == 7) = true := by decide +kernel
/-- P4, last sentence: a permuted ACK ends INITIALIZE with the same error. -/
theorem test_initialize_error :
    ends (exec .initializeOp (State.hears (lsb [0x00, 0x01, 0x01, 0x00, 0xFF, 0x00, 0x00, 0xFF, 0x00]) up))
      (fun t => t.res.err == 0x10 && t.csnQ == .high && t.sckQ == .low) = true := by decide +kernel

/-! ### Witnesses: for every statement with hypotheses, a state and operands that meet them all -/

/-- A peripheral that is ready at once, acknowledges, and answers with this raw response. -/
def answering (raw : List Byte) (s : State) : State := State.hears (lsb (shaken ++ raw)) s

/-- The raw response to READ_PASSIVE_TARGET with this data, 27 bytes (30_encoding.md R89, R108). -/
def targetRaw (d : List Byte) : List Byte := (frameOf defaultConfig ([0xD5, 0x4B] ++ d) ++ List.replicate 27 0x00).take 27

theorem witness_DecodeAcceptsExactlyTheTable : decode 0x0103#16 = .ok (.configure 3) := by decide
theorem witness_NoWordHasTwoRows :
    ⟨"WRITE", 0x08, .flags⟩ ∈ opTable ∧ Row.accepts ⟨"WRITE", 0x08, .flags⟩ 0x0803#16 = true := by decide
theorem witness_StepRunsTheDecodedCommand :
    ∃ c, (up.withFetchWord 16 0x0400).script = [c] ∧ decode c.cw = .ok .select ∧ State.reset.script = [] :=
  ⟨_, rfl, by decide, rfl⟩
theorem witness_ReservedWordIsRefused :
    ∃ c, (up.withFetchWord 16 0x0804).script = [c] ∧ Word.legal c.cw = false := ⟨_, rfl, by decide⟩
/-- Also for StepNeverUndoesBringUp and StepOnlyAddsToTheTrace. -/
theorem witness_StepKeepsTheInvariant :
    Inv (fresh.withFetchWord 16 0x0400) ∧ fresh.fsm = .idle ∧ fresh.started = true ∧ fresh.modeV = true ∧
      fresh.orderV = true ∧ ∃ t, step (fresh.withFetchWord 16 0x0400) = .next t :=
  ⟨by decide, rfl, rfl, rfl, rfl, _, rfl⟩
theorem witness_ConfigureSetsTheMode : (3 : Byte).toNat ≤ 3 ∧ (0 : Byte).toNat ≤ 3 ∧ NoTransaction up := by decide
theorem witness_ConfigureBitOrderSetsTheOrder :
    (0 : Byte).toNat ≤ 1 ∧ (1 : Byte).toNat ≤ 1 ∧ NoTransaction State.reset := by decide
theorem witness_OutOfRangeConfigurationIsFatal :
    NoTransaction up ∧ 3 < (4 : Byte).toNat ∧ 1 < (2 : Byte).toNat ∧ 3 < (255 : Byte).toNat := by decide
theorem witness_ConfigurationIsRefusedInATransaction :
    ({ up with csnQ := .low } : State).started = true ∧ ({ up with csnQ := .low } : State).csnQ = .low := by decide
theorem witness_StartProvisionsThePins : ({ State.reset with modeV := true } : State).modeV = true := rfl
theorem witness_StartNeedsAMode : State.reset.modeV = false := rfl
theorem witness_SelectAndDeselectDriveChipSelect : up.started = true := rfl
theorem witness_PinOperationsNeedStart :
    State.reset.started = false ∧ needsStart .select = true ∧ needsStart .dataRead = true ∧
      (State.sized 1 State.reset).opr.len ≠ 0 ∧ State.reset.opr.len = 0 := by decide
theorem witness_DataOperationsNeedTheOrder :
    ({ up with orderV := false } : State).started = true ∧ ({ up with orderV := false } : State).orderV = false ∧
      needsOrder .readAck = true ∧ needsOrder .dataRead = true ∧ (State.sized 1 up).opr.len ≠ 0 := by decide
/-- `up` with configuration parameters of `n` zeros. -/
def withSamParams (n : Nat) : State := { up with cfg := { up.cfg with samParams := List.replicate n 0x00 } }

theorem witness_LongOperandsAreRefused :
    WireReady (State.sized 264 (State.given (List.replicate 264 0x00) up)) ∧
      bufMax defaultConfig < (List.replicate 264 (0x00 : Byte)).length ∧ bufMax defaultConfig < 264 ∧
      bufMax defaultConfig < (List.replicate 262 (0x00 : Byte)).length + 2 := by decide +kernel
/-- Its last clause, with `SAM_PARAMS` of 262 bytes; also for SendCommandRejectsLongParameters, with 254. -/
theorem witness_LongParameters :
    WireReady (withSamParams 262) ∧ bufMax (withSamParams 262).cfg < (withSamParams 262).cfg.samParams.length + 2 ∧
      253 < (withSamParams 254).cfg.samParams.length ∧
      (withSamParams 254).cfg.samParams.length + 2 ≤ bufMax (withSamParams 254).cfg := by decide +kernel
/-- A capacity whose response is one byte above `BUFMAX`, and one above 8 bytes by byte. -/
theorem witness_SendCommandIsRefusedAtItsResponse :
    (State.timed 254 0 up).fsm = .idle ∧ WireReady (State.timed 254 0 up) ∧ up.opr.txbuf.length ≤ 253 ∧
      ¬ CommandRuns (State.timed 254 0 up) 254 ∧ ¬ CommandRuns (State.byByte up) 0 := by decide
theorem witness_ByteIndexRefusesLongTransfers :
    WireReady (State.byByte up) ∧ (State.byByte up).cfg.xferWriteIndex = .byte ∧
      8 < (List.replicate 9 (0x00 : Byte)).length ∧ 9 ≤ bufMax (State.byByte up).cfg := by decide
theorem witness_BitPositions : 0 < 8 ∧ 7 < 8 ∧ bitPos .msbFirst 7 = bitPos .msbFirst 7 := by decide
/-- Also for ReadReturnsTheSamples: `BUFMAX` bytes, and none. -/
theorem witness_WriteSendsEveryBit :
    WireReady (State.given (List.replicate 263 0x00) up) ∧
      (List.replicate 263 (0x00 : Byte)).length ≤ bufMax defaultConfig ∧
      ([] : List Byte).length ≤ bufMax defaultConfig ∧ 263 ≤ bufMax defaultConfig := by decide +kernel
theorem witness_TransferIsFullDuplex :
    WireReady (State.given [0xA5] up) ∧ [(0xA5 : Byte)].length ≤ bufMax up.cfg ∧ up.cfg.xferWriteIndex = .bit := by decide
theorem witness_TransferUnderTheByteIndex :
    WireReady (State.byByte (State.given [1, 2, 3, 4, 5, 6, 7, 8] up)) ∧
      [(1 : Byte), 2, 3, 4, 5, 6, 7, 8].length ≤ 8 ∧ (State.byByte up).cfg.xferWriteIndex = .byte := by decide
/-- S2: `[B0]`, both orders. -/
theorem witness_LoopbackReturnsTheBytes :
    (let s := State.hears (lsb [0xB0]) (State.given [0xB0] up)
     WireReady s ∧ drawnLevels s.world s.world.misoIx 8 = (wireBitsOf s.order [0xB0]).map levelOf) ∧
    (let s := State.hears (lsb [0x0D]) (State.given [0xB0] (upIn 0 .msbFirst))
     WireReady s ∧ drawnLevels s.world s.world.misoIx 8 = (wireBitsOf s.order [0xB0]).map levelOf) := by decide +kernel
theorem witness_EmptySequencesMakeNoClock : WireReady up ∧ up.opr.txbuf = [] ∧ up.opr.len = 0 := by decide
theorem witness_DataOperationsHaveNoError :
    ∃ t, exec (.write true true) up = .next t ∧ t.res.outcome == .ok := ends_spec (by decide)
theorem witness_BuildFrameLaysOutTheFrame :
    1 ≤ [(0x00 : Byte)].length ∧ 1 ≤ (List.replicate 255 (0xAA : Byte)).length ∧
      (List.replicate 255 (0xAA : Byte)).length ≤ 255 := by decide +kernel
/-- Lengths 0, 1, 255 and 256. -/
theorem witness_BuildFrameChangesOnlyTheResults :
    (State.given [] up).opr.txbuf.length = 0 ∧ 1 ≤ [(0x00 : Byte)].length ∧
      (List.replicate 255 (0xAA : Byte)).length ≤ 255 ∧ 255 < (List.replicate 256 (0x00 : Byte)).length ∧
      (List.replicate 256 (0x00 : Byte)).length ≤ bufMax defaultConfig := by decide +kernel
/-- V-P1, and V-P11 with no payload. -/
theorem witness_ParserReturnsExactlyTheCheckedFrames :
    ([0x01, 0x00, 0x00, 0xFF, 0x06, 0xFA, 0xD5, 0x03, 0x32, 0x01, 0x06, 0x07, 0xE8, 0x00] =
        inboundFrame defaultConfig 2 0x06 0xFA [0xD5, 0x03, 0x32, 0x01, 0x06, 0x07] 0xE8 [0x00] ∧
      InboundChecks 0x06 0xFA [0xD5, 0x03, 0x32, 0x01, 0x06, 0x07] 0xE8) ∧
    ([0x01, 0x00, 0x00, 0xFF, 0x00, 0x00, 0x00, 0x00] = inboundFrame defaultConfig 2 0x00 0x00 [] 0x00 [0x00] ∧
      InboundChecks 0x00 0x00 [] 0x00) := by decide
/-- V-P5, V-P14; V-P4, V-P13; V-P6; V-P10; V-P7; V-P9; V-P8, one for each clause. -/
theorem witness_ParserReportsTheFirstFailingCheck :
    ([0x00, 0x00] : List Byte).head? ≠ some defaultConfig.rdEcho ∧ ([] : List Byte).head? ≠ some defaultConfig.rdEcho ∧
    [0x01, 0x00, 0x00, 0x00, 0x00, 0x00] = defaultConfig.rdEcho :: List.replicate 5 0x00 ∧
    [0x01] = defaultConfig.rdEcho :: List.replicate 0 0x00 ∧
    [0x01, 0x00, 0x00, 0xAA, 0x06] = defaultConfig.rdEcho :: (List.replicate 2 0x00 ++ 0xAA :: [0x06]) ∧
    [0x01, 0x00, 0x00, 0xFF, 0x06] = defaultConfig.rdEcho :: (List.replicate 2 0x00 ++ 0xFF :: [0x06]) ∧
    ([0x01, 0x00, 0x00, 0xFF, 0x06, 0xFB, 0xD5] =
      defaultConfig.rdEcho :: (List.replicate 2 0x00 ++ 0xFF :: 0x06 :: 0xFB :: [0xD5]) ∧ (0x06 + 0xFB) % 256 ≠ 0) ∧
    ((0x06 + 0xFA) % 256 = 0 ∧ [(0xD5 : Byte), 0x03, 0x32].length < 0x06 + 1) ∧
    ((([0xD5, 0x03, 0x32, 0x01, 0x06, 0x07, 0xE9, 0x00] : List Byte).take 7).map BitVec.toNat).sum % 256 ≠ 0 := by decide
/-- V-B1 through the parser, with trailing bytes, and with no zero before the 0xFF. -/
theorem witness_BuiltFramesParseToTheirPayload :
    ∃ u, exec .buildFrame (State.given [0xD4, 0x02] up) = .next u ∧
      (([0x01, 0x00, 0x00, 0xFF, 0x02, 0xFE, 0xD4, 0x02, 0x2A, 0x00, 0x55] : List Byte) =
          up.cfg.rdEcho :: (u.res.rxbuf.drop 1 ++ [0x55]) ∧
        ([0x01, 0xFF, 0x02, 0xFE, 0xD4, 0x02, 0x2A, 0x00] : List Byte) =
          up.cfg.rdEcho :: (List.replicate 0 0x00 ++ u.res.rxbuf.drop 3 ++ [])) ∧ up.cfg.dw = up.cfg.rdEcho :=
  ⟨_, rfl, by decide +kernel, rfl⟩
theorem witness_AckIsNotAFrame : up.cfg.rdEcho = 0x01 := rfl
/-- Also for WaitReadyPollsUntilReadyOrTimeout. -/
theorem witness_StatusReadExchangesTwoBytes : WireReady up ∧ up.cfg.xferWriteIndex = .bit := by decide
theorem witness_DataReadExchangesItsLength :
    WireReady (State.sized 263 up) ∧ 1 ≤ (State.sized 1 up).opr.len ∧ (State.sized 263 up).opr.len ≤ bufMax up.cfg ∧
      WriteIndexFits (State.sized 263 up) 263 ∧ WriteIndexFits (State.byByte up) 8 := by decide
theorem witness_ReadAckComparesSevenBytes :
    nextBytes (State.hears (lsb ackBytes) up) 0 7 = [0x01, 0x00, 0x00, 0xFF, 0x00, 0xFF, 0x00] ∧
      nextBytes (State.hears (lsb [0x00, 0x00, 0x00, 0xFF, 0x00, 0xFF, 0x00]) up) 0 7 ≠
        [0x01, 0x00, 0x00, 0xFF, 0x00, 0xFF, 0x00] := by decide +kernel

/-- The premises of the statements on SEND_COMMAND, 253 parameters, and of those on 254. -/
theorem witness_SendCommandIsADialogue :
    (let s := State.given (List.replicate 253 0x00) (State.timed 4 1000 up)
     s.fsm = .idle ∧ CommandRuns s s.opr.cap ∧ s.opr.txbuf.length ≤ 253) ∧
    CommandRuns (State.timed 253 0 up) 253 := by decide +kernel
theorem witness_SendCommandRejectsLongParameters :
    (let s := State.given (List.replicate 254 0x00) up
     s.fsm = .idle ∧ WireReady s ∧ 253 < s.opr.txbuf.length ∧ s.opr.txbuf.length + 2 ≤ bufMax s.cfg) := by decide +kernel

/-- V-S1. -/
theorem answers_version : AnswersAtOnce (answering versionFrame up) 0x02 4 [0x32, 0x01, 0x06, 0x07] :=
  ⟨by decide +kernel, by decide +kernel, by decide +kernel, 2, 0x06, 0xFA, 0xE8, [0x00], by decide +kernel, by decide⟩
theorem witness_SendCommandReturnsTheAnswer :
    (let s := State.timed 4 1000 (answering versionFrame up)
     s.fsm = .idle ∧ CommandRuns s s.opr.cap ∧ s.opr.txbuf.length ≤ 253) ∧
      AnswersAtOnce (answering versionFrame up) 0x02 4 [0x32, 0x01, 0x06, 0x07] :=
  ⟨by decide +kernel, answers_version⟩
theorem witness_FirmwareVersionReturnsTheAnswer :
    (answering versionFrame up).fsm = .idle ∧ CommandRuns (answering versionFrame up) 4 ∧
      AnswersAtOnce (answering versionFrame up) defaultConfig.opcGfv 4 [0x32, 0x01, 0x06, 0x07] ∧
      ([0x32, 0x01, 0x06, 0x07] : List Byte) ≠ [] :=
  ⟨by decide, by decide, answers_version, by decide⟩
/-- V-M1; also for SamConfigurationSwallowsNoResponse. -/
theorem witness_SamConfigurationAccepted :
    (answering samFrame up).fsm = .idle ∧ CommandRuns (answering samFrame up) defaultConfig.samCap ∧
      defaultConfig.samParams.length ≤ 253 ∧ AnswersAtOnce (answering samFrame up) 0x14 0 [] :=
  ⟨by decide, by decide, by decide, by decide +kernel, by decide +kernel, by decide +kernel, 2, 0x02, 0xFE, 0x16, [0x00],
    by decide +kernel, by decide⟩
/-- V-T1. -/
theorem witness_PassiveTargetReturnsTheUid :
    (answering targetFrame up).fsm = .idle ∧ CommandRuns (answering targetFrame up) 17 ∧
      ([0x12, 0x34, 0x56, 0x78] : List Byte).length = (0x04 : Byte).toNat ∧
      AnswersAtOnce (answering targetFrame up) 0x4A 17
        (0x01 :: 0x01 :: 0x00 :: 0x04 :: 0x08 :: 0x04 :: ([0x12, 0x34, 0x56, 0x78] ++ [])) :=
  ⟨by decide, by decide, by decide, by decide +kernel, by decide +kernel, by decide +kernel, 2, 0x0C, 0xF4, 0xBA,
    List.replicate 8 0x00, by decide +kernel, by decide⟩
/-- P7; also for InitializeConfiguresAndQueries. -/
theorem witness_InitializeSucceeds :
    (answering versionFrame (upIn 0 .msbFirst)).fsm = .idle ∧ (answering versionFrame (upIn 0 .msbFirst)).started = true ∧
      NoTransaction (answering versionFrame (upIn 0 .msbFirst)) ∧
      4 + 2 + defaultConfig.frameOverhead ≤ bufMax defaultConfig ∧
      WriteIndexFits (answering versionFrame (upIn 0 .msbFirst)) (4 + 2 + defaultConfig.frameOverhead) ∧
      AnswersAtOnce (protocolView (answering versionFrame (upIn 0 .msbFirst))) 0x02 4
        [0x32, 0x01, 0x06, 0x07] :=
  ⟨by decide, by decide, by decide, by decide, by decide, answers_version⟩

/-! The clauses of the statements on dialogues: each answer comes of some draws. -/

/-- Draws that make an answered dialogue, each wait ready at its first poll. -/
abbrev Talks (s : State) (op : Byte) (cap : Nat) (d : List Byte) : Prop :=
  pollAt s 0 0 = s.cfg.ready ∧ drawnBytes s.order s.world 16 7 = ackBytes ∧ pollAt s 72 0 = s.cfg.ready ∧
    parseFrame s.cfg (drawnBytes s.order s.world 88 (cap + 2 + s.cfg.frameOverhead)) (cap + 2) =
      .ok (s.cfg.d2h :: (op + 1) :: d)

/-- A wait that is ready at its first poll, and one that is not. -/
theorem pollsTo_first {s : State} {tmo ix : Nat} {v : Bool} (h : v = true ↔ pollAt s ix 0 = s.cfg.ready) :
    PollsTo s tmo ix 1 v := ⟨le_rfl, by omega, fun i hi => by omega, h⟩

theorem dialogue_of_talks {s : State} {op : Byte} {cap : Nat} {d : List Byte} (tmo : Nat) (h : Talks s op cap d) :
    ∃ fs es n, Dialogue s op cap tmo 0 (.data d) fs es n :=
  ⟨_, _, _, .answered 1 1 d ⟨pollsTo_first (by simp [h.1]), h.2.1⟩ (pollsTo_first (by simp [h.2.2.1])) h.2.2.2⟩

/-- FirmwareVersionEscalatesNoResponse: data, and V-G3's empty data. -/
theorem witness_FirmwareVersionEscalatesNoResponse :
    (∃ fs es n, Dialogue (answering versionFrame up) 0x02 4 1000 0 (.data [0x32, 0x01, 0x06, 0x07]) fs es n) ∧
    (∃ fs es n, Dialogue
      (answering [0x01, 0x00, 0x00, 0xFF, 0x02, 0xFE, 0xD5, 0x03, 0x28, 0x00, 0x00, 0x00, 0x00, 0x00] up)
      0x02 4 1000 0 (.data []) fs es n) :=
  ⟨dialogue_of_talks _ (by decide +kernel), dialogue_of_talks _ (by decide +kernel)⟩
/-- V-S6 (no response), V-S3 (bad ACK) and V-S5 (wrong marker), for every statement on a dialogue. -/
theorem witness_Dialogue_others :
    (∃ fs es n, Dialogue (State.hears (lsb [0x00, 0x00]) up) 0x4A 17 0 0 .noResponse fs es n) ∧
    (∃ fs es n, Dialogue (State.hears (lsb [0x00, 0x01, 0x01, 0x00, 0xFF, 0x00, 0x00, 0xFF, 0x00]) up) 0x4A 17 0 0
      (.error .ackMismatch) fs es n) ∧
    (∃ fs es n, Dialogue
      (answering [0x01, 0x00, 0x00, 0xFF, 0x06, 0xFA, 0xD4, 0x03, 0x32, 0x01, 0x06, 0x07, 0xE9, 0x00] up)
      0x02 4 0 0 (.error .wrongCommandResponse) fs es n) := by
  refine ⟨⟨_, _, _, .noAck 1 (pollsTo_first (by decide +kernel))⟩,
    ⟨_, _, _, .badAck 1 (pollsTo_first (by decide +kernel)) (by decide +kernel)⟩,
    ⟨_, _, _, .wrongCommand 1 1 [0xD4, 0x03, 0x32, 0x01, 0x06, 0x07]
      ⟨pollsTo_first (by decide +kernel), by decide +kernel⟩ (pollsTo_first (by decide +kernel)) (by decide +kernel) ?_⟩⟩
  intro d h; injection h with h; exact absurd h (by decide)
/-- PassiveTargetJudgesTheResponse, its clauses in order: no data, V-T9, V-T8, V-T5, V-T7, V-T1, and a UID of 7. -/
theorem witness_PassiveTargetJudgesTheResponse :
    ∀ d ∈ ([[], [0x02, 0x01, 0x00], [0x01, 0x01, 0x00], [0x01, 0x01, 0x00, 0x04, 0x08, 0x08, 1, 2, 3, 4, 5, 6, 7, 8],
        [0x01, 0x01, 0x00, 0x04, 0x08, 0x04, 0x12, 0x34], [0x01, 0x01, 0x00, 0x04, 0x08, 0x04, 0x12, 0x34, 0x56, 0x78],
        [0x01, 0x01, 0x00, 0x04, 0x08, 0x07, 1, 2, 3, 4, 5, 6, 7]] : List (List Byte)),
      ∃ fs es n, Dialogue (answering (targetRaw d) up) 0x4A 17 1000 0 (.data d) fs es n := by
  intro d hd
  refine dialogue_of_talks _ ?_
  revert d; decide +kernel

/-! The whole-machine rules. -/

/-- Also for LatchesAreWrittenByTheirOperationsOnly (its three clauses) and ClockStaysAtIdle. -/
theorem witness_OnlyConfigurationWritesModeAndOrder :
    configures .select = false ∧ up.fsm = .idle ∧ up.sckQ = idleLevel up.mode ∧
      (∃ t, exec .select up = .next t) ∧ (∃ t, exec (.configureBitOrder 0) up = .next t) ∧
      (∃ t, exec .buildFrame up = .next t) ∧ (∃ t, exec (.read true true) up = .next t) :=
  ⟨rfl, rfl, rfl, ⟨_, rfl⟩, ⟨_, rfl⟩, ⟨_, rfl⟩, ⟨_, rfl⟩⟩
/-- R16: the redundant first write of V-D14 is not observed, the second is. -/
theorem witness_RedundantWritesAreNotObserved :
    (Latches.unset.seeAll [.out .sck .low]).level .sck = some .low ∧
      (Latches.unset.seeAll [.out .sck .low]).level .sck ≠ some .high ∧
      observed Latches.unset [.out .sck .low, .out .sck .low, .out .sck .high] = [.out .sck .low, .out .sck .high] ∧
      { up with csnQ := Level.low }.started = true ∧ up.started = true ∧ up.csnQ = .high := by decide
/-- A SEND_COMMAND of 254 parameters, from CS_N low, for the second clause. -/
theorem witness_UnitPLeavesThePeripheralDeselected_long :
    unitPWire (.sendCommand 0) = true ∧
      ∃ t, exec (.sendCommand 0) (State.given (List.replicate 254 0x00) { up with csnQ := .low }) = .next t ∧
        (t.res.err == 0x18 && t.csnQ == .low) = true :=
  ⟨rfl, ends_spec (p := fun t => t.res.err == 0x18 && t.csnQ == .low) (by decide +kernel)⟩
theorem witness_UnitPLeavesThePeripheralDeselected :
    unitPWire .statusRead = true ∧ ∃ t, exec .statusRead (State.hears (lsb [0x00, 0x01]) up) = .next t ∧
      (t.res.err != 0x18) = true :=
  ⟨rfl, ends_spec (p := fun t => t.res.err != 0x18) (by decide +kernel)⟩
theorem witness_FatalReturnsNoData : ∃ t, exec (.configure 4) up = .next t ∧ (t.res.outcome == .fatal) = true :=
  ends_spec (p := fun t => t.res.outcome == .fatal) (by decide)
theorem witness_OnlySendCommandEndsNoResponse :
    ∃ t, exec (.sendCommand 0x4A) (State.hears (lsb [0x00, 0x00]) (State.timed 17 0 up)) = .next t ∧
      (t.res.outcome == .noResponse) = true :=
  ends_spec (p := fun t => t.res.outcome == .noResponse) (by decide +kernel)

end Sys2Proof.Tests
end

section
/-! Proofs for 10_state.md: the values derived from `MODE` (R22). -/

namespace Sys2Proof.Machine

/-- Settles O12: each of the four rows of the table of R22 is a closed fact about the two bits of its mode. -/
theorem modeTable : Obligations.ModeTable := by
  unfold Obligations.ModeTable
  decide

end Sys2Proof.Machine
end

section
/-! Proofs for 30_encoding.md: the bytes of an outbound frame (R89). -/

namespace Sys2Proof.Machine

/-- A length of at most 255 survives in the one-byte length field (R90), so `LCS` is a function of the length itself. -/
theorem lengthChecksum_ofNat {n : Nat} (h : n ≤ 255) :
    lengthChecksum (BitVec.ofNat 8 n) = BitVec.ofNat 8 ((0x100 - n) % 256) := by
  apply BitVec.eq_of_toNat_eq
  have hn : n % 256 = n := Nat.mod_eq_of_lt (by omega)
  simp [lengthChecksum, hn]

theorem payloadChecksum_eq_ofNat (p : List Byte) :
    payloadChecksum p = BitVec.ofNat 8 ((0x100 - (p.map BitVec.toNat).sum % 256) % 256) := by
  apply BitVec.eq_of_toNat_eq
  simp [payloadChecksum, byteSum_toNat]

/-- The frame is the table of R89 byte for byte, while the length fits its field. -/
theorem frameOf_eq_table (c : Config) {p : List Byte} (h : p.length ≤ 255) :
    frameOf c p = [c.dw, 0x00, 0x00, 0xFF, BitVec.ofNat 8 p.length, BitVec.ofNat 8 ((0x100 - p.length) % 256)] ++ p ++
      [BitVec.ofNat 8 ((0x100 - (p.map BitVec.toNat).sum % 256) % 256), 0x00] := by
  rw [frameOf, lengthChecksum_ofNat h, payloadChecksum_eq_ofNat]
  rfl

/-- R160: a payload whose length R90 allows always fits the buffer, and BUILD_FRAME ends with its frame. -/
theorem exec_buildFrame_next {s : State} (h1 : 1 ≤ s.opr.txbuf.length) (h2 : s.opr.txbuf.length ≤ 255) :
    exec .buildFrame s = .next (s.endOp (.ofBytes (frameOf s.cfg s.opr.txbuf))) := by
  have hfits : s.opr.txbuf.length ≤ bufMax s.cfg := by rw [bufMax]; omega
  rw [exec, execBuildFrame, buildFrameOp, needFits_ok hfits, if_neg (by omega)]
  rfl

/-- Settles O33: BUILD_FRAME ends with the payload's frame, and the frame is the table of R89. -/
theorem buildFrameLaysOutTheFrame : Obligations.BuildFrameLaysOutTheFrame := by
  intro s h1 h2
  have hres : (s.endOp (.ofBytes (frameOf s.cfg s.opr.txbuf))).res.rxbuf = frameOf s.cfg s.opr.txbuf := by
    rw [State.endOp_res, Results.ofBytes]
  refine ⟨_, exec_buildFrame_next h1 h2, ?_, ?_⟩
  · rw [hres, frameOf_length]
  · rw [hres, frameOf_eq_table _ h2]

end Sys2Proof.Machine
end

section
/-! Proofs for 41_transport_data.md: the data operations have no error outcome (R150). -/

namespace Sys2Proof.Machine

/-- `m` comes to a value or a `refuse`, never to a `raise` (R13). -/
def Res.NeverRaises {α : Type} (m : Res α) : Prop := m.Sat (fun _ _ => True) (fun _ _ => False) True

theorem writeOp_neverRaises (bs : List Byte) (sel desel : Bool) (s : State) : (writeOp bs sel desel s).NeverRaises := by
  rcases writeOp_cases bs sel desel s with ⟨r, hr⟩ | ⟨hw, hl⟩
  · rw [hr]; trivial
  · rw [writeOp_ok hw hl]; trivial

theorem readOp_neverRaises (n : Nat) (sel desel : Bool) (s : State) : (readOp n sel desel s).NeverRaises := by
  rcases readOp_cases n sel desel s with ⟨r, hr⟩ | ⟨hw, hl⟩
  · rw [hr]; trivial
  · rw [readOp_ok hw hl]; trivial

theorem transferOp_neverRaises (bs : List Byte) (sel desel : Bool) (s : State) :
    (transferOp bs sel desel s).NeverRaises := by
  rcases transferOp_cases bs sel desel s with ⟨r, hr⟩ | ⟨hw, hl, hx⟩
  · rw [hr]; trivial
  · rw [transferOp_ok hw hl hx]; trivial

/-- Without a `raise`, an operation that answers a next state ends with the outcome its results give a return. -/
theorem Res.NeverRaises.outcome_ok {α : Type} {m : Res α} {f : α → Results} {t : State} (h : m.NeverRaises)
    (hf : ∀ v, (f v).outcome = .ok) (hc : m.conclude f = .next t) : t.res.outcome = .ok :=
  Res.Sat.conclude_next h hc (G := fun u => u.res.outcome = .ok)
    (fun v u _ => by rw [State.endOp_res]; exact hf v) (fun _ _ himpossible => himpossible.elim)

/-- Settles O32: none of the three operations raises, and a return of theirs is `Ok`. -/
theorem dataOperationsHaveNoError : Obligations.DataOperationsHaveNoError := by
  rintro sel desel s t (hwrite | hread | htransfer)
  · exact (writeOp_neverRaises _ sel desel s).outcome_ok (fun _ => rfl) hwrite
  · exact (readOp_neverRaises _ sel desel s).outcome_ok (fun _ => rfl) hread
  · exact (transferOp_neverRaises _ sel desel s).outcome_ok (fun _ => rfl) htransfer

end Sys2Proof.Machine
end

section
/-! Proofs for 42_framer_primitives.md: what BUILD_FRAME builds, PARSE_RESPONSE_FRAME reads back (R165). -/

namespace Sys2Proof.Machine

/-- An inbound frame with its checks met parses to its payload, whatever its run of zeros and its tail (R91, R164). -/
theorem parseFrame_inboundFrame (c : Config) (k : Nat) {len lcs : Byte} {p : List Byte} {dcs : Byte} (tail : List Byte)
    (xmax : Nat) (h : InboundChecks len lcs p dcs) :
    parseFrame c (inboundFrame c k len lcs p dcs tail) xmax = .ok p := by
  obtain ⟨hlcs, hlen, hdcs⟩ := h
  have hbody : parseBody (len :: lcs :: (p ++ dcs :: tail)) = .ok p :=
    parseBody_frame ((byte_add_eq_zero_iff len lcs).2 hlcs) hlen ((byteSum_eq_zero_iff _).2 (by simpa using hdcs))
  rw [inboundFrame, parseFrame, if_pos rfl, List.append_assoc, List.append_assoc, parsePreamble_zeros]
  exact (parsePreamble_start _).trans hbody

/-- R162, R91: PARSE_RESPONSE_FRAME of an inbound frame with its checks met ends `Ok` with the payload. -/
theorem exec_parseResponseFrame_inboundFrame {s : State} {k : Nat} {len lcs : Byte} {p : List Byte} {dcs : Byte}
    {tail : List Byte} (hraw : s.opr.txbuf = inboundFrame s.cfg k len lcs p dcs tail)
    (hchecks : InboundChecks len lcs p dcs) (hfits : s.opr.txbuf.length ≤ bufMax s.cfg) :
    ∃ t, exec .parseResponseFrame s = .next t ∧ EndsOk t p false := by
  have hparse : parseFrame s.cfg s.opr.txbuf s.opr.xmax = .ok p := by
    rw [hraw]; exact parseFrame_inboundFrame s.cfg k tail s.opr.xmax hchecks
  refine ⟨s.endOp (.ofBytes p), ?_, State.endOp_res .., betweenOps_endOp ..⟩
  rw [exec, execParseResponseFrame, parseResponseFrameOp, needFits_ok hfits, hparse]
  rfl

/-- The length and checksum bytes a built frame carries meet the parser's checks, while the length fits its byte (R94,
R95). -/
theorem inboundChecks_built {p : List Byte} (h : p.length ≤ 255) :
    InboundChecks (BitVec.ofNat 8 p.length) (lengthChecksum (BitVec.ofNat 8 p.length)) p (payloadChecksum p) := by
  refine ⟨(byte_add_eq_zero_iff _ _).1 (add_lengthChecksum _), ?_, ?_⟩
  · rw [BitVec.toNat_ofNat]; omega
  · have hsum : byteSum (p ++ [payloadChecksum p]) = 0 := by
      rw [byteSum_append]; simpa [byteSum] using byteSum_add_payloadChecksum p
    simpa using (byteSum_eq_zero_iff _).1 hsum

/-- Between its first byte and the 0xFF a built frame has two zeros, the preamble and half the start code (R89). -/
theorem frameOf_drop_one (c : Config) (p : List Byte) :
    (frameOf c p).drop 1 = List.replicate 2 0x00 ++ (frameOf c p).drop 3 := rfl

/-- From its 0xFF on, a built frame is what an inbound frame shows after the echo marker and its zeros (R89, R91). -/
theorem echo_cons_zeros_frameOf_drop_three (c d : Config) (k : Nat) (p tail : List Byte) :
    d.rdEcho :: (List.replicate k 0x00 ++ (frameOf c p).drop 3 ++ tail) =
      inboundFrame d k (BitVec.ofNat 8 p.length) (lengthChecksum (BitVec.ofNat 8 p.length)) p (payloadChecksum p)
        (postamble :: tail) := by
  simp [frameOf, inboundFrame, startCode]

/-- Settles O37: either buffer is an inbound frame, of two or of `k` zeros, whose checks hold: it parses to the
payload. -/
theorem builtFramesParseToTheirPayload : Obligations.BuiltFramesParseToTheirPayload := by
  rintro b s p tail k h1 h2 rfl hcfg
  refine ⟨_, exec_buildFrame_next h1 h2, ?_, ?_⟩ <;> rw [State.endOp_res, Results.ofBytes]
  · rintro (hraw | hraw) hfits
    · rw [frameOf_drop_one, echo_cons_zeros_frameOf_drop_three] at hraw
      exact exec_parseResponseFrame_inboundFrame hraw (inboundChecks_built h2) hfits
    · rw [echo_cons_zeros_frameOf_drop_three] at hraw
      exact exec_parseResponseFrame_inboundFrame hraw (inboundChecks_built h2) hfits
  · intro hdw
    rw [← hdw, ← hcfg]
    rfl

end Sys2Proof.Machine
end

section
/-! How operations leave the block: the terms in which the proofs below say it (R35, R149, R194, R199). -/

namespace Sys2Proof.Machine

/-- How an operation of unit P that touches the wire leaves the block, INITIALIZE aside: configured as before, and with
the pins at rest, or with `PayloadTooLong` and the latches as before (R199, R161, R237). -/
structure UnitPEnds (s t : State) : Prop where
  conf : SameConfiguration s t
  pins : (PinsRest s t ∧ t.res.err ≠ 0x18) ∨ (SameLatches s t ∧ t.res.err = 0x18)

/-- How an operation leaves the block that stays within unit T or touches no pin, and neither configures nor provisions:
configured as before, with SCK where it was or at idle (R35, R149). -/
structure ClockRests (s t : State) : Prop where
  conf : SameConfiguration s t
  sckQ : t.sckQ = s.sckQ ∨ t.sckQ = idleLevel s.mode

/-- What INITIALIZE leaves once its query has come to the answer `a`, with the events `last` after those of the query
(R194, R199). -/
structure Queried (s t : State) (a : Answer) (last : List Event) : Prop where
  mode : t.mode = 0
  modeV : t.modeV = true
  order : t.order = .lsbFirst
  orderV : t.orderV = true
  started : t.started = true
  csnQ : t.csnQ = .high
  sckQ : t.sckQ = .low
  inputs : SameInputs s t
  fsm : t.fsm = .idle
  dialogue : ∃ fs es d, Dialogue (protocolView s) s.cfg.opcGfv 4 s.cfg.tCmdDefault s.world.misoIx a fs es d ∧
    t.fsmLog = s.fsmLog ++ fs ∧ s.world.now + 1002 + d ≤ t.world.now ∧
    TraceAdds s t ([.out .csn .low, .wait 1000] ++
      frameWriteEvents (protocolView s) (frameOf s.cfg [s.cfg.h2d, s.cfg.opcGfv]) ++ es ++ last)

end Sys2Proof.Machine
end

section
/-! Proofs for 30_encoding.md: the decoder reads what the encoder writes, and accepts the rows of the operation table
and no other word (R81, R82, R84, R85). -/

namespace Sys2Proof

/-! ### The readings of `ARG` -/

theorem readFlags_flagsArg (mk : Bool → Bool → Instr) (sel desel : Bool) :
    readFlags (flagsArg sel desel) mk = .ok (mk sel desel) := by
  cases sel <;> cases desel <;> rfl

/-- A flags byte with bits 7:2 clear is made of its bits 1 and 0 (R82(c)). -/
theorem flagsArg_getLsbD {arg : Byte} (h : arg &&& 0xFC = 0x00) : flagsArg (arg.getLsbD 1) (arg.getLsbD 0) = arg := by
  revert h; revert arg; decide

theorem readZero_eq_ok {arg : Byte} {i j : Instr} (h : readZero arg j = .ok i) : arg = 0x00 ∧ i = j := by
  unfold readZero at h
  split at h
  · next harg => cases h; exact ⟨harg, rfl⟩
  · cases h

theorem readFlags_eq_ok {arg : Byte} {i : Instr} {mk : Bool → Bool → Instr} (h : readFlags arg mk = .ok i) :
    ∃ sel desel, arg = flagsArg sel desel ∧ i = mk sel desel := by
  unfold readFlags at h
  split at h
  · next harg => cases h; exact ⟨_, _, (flagsArg_getLsbD harg).symm, rfl⟩
  · cases h

/-! ### Decode and encode -/

/-- R84, row by row: the row the encoder wrote is the row the decoder selects, and it reads the operand back. -/
theorem decode_encode (i : Instr) : decode (encode i) = .ok i := by
  cases i <;> simp [encode, decode, readZero, readFlags_flagsArg]

/-- Settles O1, one row of R84 after the other. -/
theorem decodeReadsWhatEncodeWrites : Obligations.DecodeReadsWhatEncodeWrites := decode_encode

theorem wordOf_eq_of_fields {w : Word} {opc arg : Byte} (ho : (opcOf w).toNat = opc.toNat) (ha : argOf w = arg) :
    wordOf opc arg = w := by
  rw [← BitVec.eq_of_toNat_eq ho, ← ha, wordOf_fields]

/-- Whatever row the decoder selects (R84), the word is the one the encoder gives the operation. -/
theorem encode_of_decode {w : Word} {i : Instr} (h : decode w = .ok i) : encode i = w := by
  unfold decode at h
  dsimp only at h
  split at h
  -- the rows that take any `ARG`, then those of two flags, then the codes of no row, then those of a zero `ARG`
  case h_1 hopc | h_2 hopc | h_15 hopc | h_19 hopc => cases h; exact wordOf_eq_of_fields hopc rfl
  case h_6 hopc | h_7 hopc | h_8 hopc =>
    obtain ⟨sel, desel, harg, rfl⟩ := readFlags_eq_ok h
    exact wordOf_eq_of_fields hopc harg
  case h_20 => cases h
  all_goals
    next hopc =>
      obtain ⟨harg, rfl⟩ := readZero_eq_ok h
      exact wordOf_eq_of_fields hopc harg

/-! ### The rows of the operation table -/

/-- Every operation has its row, and its word is accepted by that row alone (R84). -/
theorem legalWord_statement (i : Instr) : Laws.LegalWord.Statement i := by
  cases i with
  | configure m => exact Laws.LegalWord.configure m
  | configureBitOrder o => exact Laws.LegalWord.configureBitOrder o
  | start => exact Laws.LegalWord.start
  | select => exact Laws.LegalWord.select
  | deselect => exact Laws.LegalWord.deselect
  | write sel desel => exact Laws.LegalWord.write sel desel
  | read sel desel => exact Laws.LegalWord.read sel desel
  | transfer sel desel => exact Laws.LegalWord.transfer sel desel
  | buildFrame => exact Laws.LegalWord.buildFrame
  | parseResponseFrame => exact Laws.LegalWord.parseResponseFrame
  | statusRead => exact Laws.LegalWord.statusRead
  | waitReady => exact Laws.LegalWord.waitReady
  | dataRead => exact Laws.LegalWord.dataRead
  | readAck => exact Laws.LegalWord.readAck
  | sendCommand o => exact Laws.LegalWord.sendCommand o
  | initializeOp => exact Laws.LegalWord.initializeOp
  | getFirmwareVersion => exact Laws.LegalWord.getFirmwareVersion
  | useSamConfiguration => exact Laws.LegalWord.useSamConfiguration
  | readPassiveTarget b => exact Laws.LegalWord.readPassiveTarget b

theorem legal_iff (w : Word) : Word.legal w = true ↔ ∃ r ∈ opTable, r.accepts w = true := List.any_eq_true

theorem legal_encode (i : Instr) : Word.legal (encode i) = true := by
  obtain ⟨r, hr, -, haccepts, -⟩ := legalWord_statement i
  exact (legal_iff _).2 ⟨r, hr, haccepts⟩

/-- A row accepts a word by its two fields (R81, R84). -/
theorem accepts_iff (r : Row) (w : Word) :
    r.accepts w = true ↔ opcOf w = r.opc ∧ argOf w &&& r.reading.reservedBits = 0x00 := by
  rw [← Laws.LegalWord.accepts_wordOf, wordOf_fields]

/-- Whatever `ARG` a row of R84 allows, an operation is encoded so. -/
theorem exists_encode_of_row {r : Row} (hr : r ∈ opTable) {arg : Byte} (ha : arg &&& r.reading.reservedBits = 0x00) :
    ∃ i, encode i = wordOf r.opc arg := by
  have hzero : ∀ opc, arg &&& 0xFF = 0x00 → wordOf opc 0x00 = wordOf opc arg := fun opc h => by
    rw [← h]; exact congrArg (wordOf opc) BitVec.and_allOnes
  have hflags : ∀ opc, arg &&& 0xFC = 0x00 → wordOf opc (flagsArg (arg.getLsbD 1) (arg.getLsbD 0)) = wordOf opc arg :=
    fun opc h => congrArg (wordOf opc) (flagsArg_getLsbD h)
  simp only [opTable, tableT, tableP, List.cons_append, List.nil_append, List.mem_cons, List.not_mem_nil,
    or_false] at hr
  rcases hr with rfl | rfl | rfl | rfl | rfl | rfl | rfl | rfl | rfl | rfl | rfl | rfl | rfl | rfl | rfl | rfl | rfl |
    rfl | rfl
  · exact ⟨.configure arg, rfl⟩
  · exact ⟨.configureBitOrder arg, rfl⟩
  · exact ⟨.start, hzero _ ha⟩
  · exact ⟨.select, hzero _ ha⟩
  · exact ⟨.deselect, hzero _ ha⟩
  · exact ⟨.write (arg.getLsbD 1) (arg.getLsbD 0), hflags _ ha⟩
  · exact ⟨.read (arg.getLsbD 1) (arg.getLsbD 0), hflags _ ha⟩
  · exact ⟨.transfer (arg.getLsbD 1) (arg.getLsbD 0), hflags _ ha⟩
  · exact ⟨.buildFrame, hzero _ ha⟩
  · exact ⟨.parseResponseFrame, hzero _ ha⟩
  · exact ⟨.statusRead, hzero _ ha⟩
  · exact ⟨.waitReady, hzero _ ha⟩
  · exact ⟨.dataRead, hzero _ ha⟩
  · exact ⟨.readAck, hzero _ ha⟩
  · exact ⟨.sendCommand arg, rfl⟩
  · exact ⟨.initializeOp, hzero _ ha⟩
  · exact ⟨.getFirmwareVersion, hzero _ ha⟩
  · exact ⟨.useSamConfiguration, hzero _ ha⟩
  · exact ⟨.readPassiveTarget arg, rfl⟩

theorem exists_encode_of_legal {w : Word} (h : Word.legal w = true) : ∃ i, encode i = w := by
  obtain ⟨r, hr, haccepts⟩ := (legal_iff w).1 h
  obtain ⟨hopc, harg⟩ := (accepts_iff r w).1 haccepts
  rw [← wordOf_fields w, hopc]
  exact exists_encode_of_row hr harg

/-- Settles O2: a word that decodes is the word of an operation, which its row accepts; a word a row accepts is the
word of an operation, which decodes. -/
theorem decodeAcceptsExactlyTheTable : Obligations.DecodeAcceptsExactlyTheTable := by
  refine fun w => ⟨⟨?_, fun hlegal => ?_⟩, fun i => encode_of_decode⟩
  · rintro ⟨i, hi⟩
    rw [← encode_of_decode hi]
    exact legal_encode i
  · obtain ⟨i, rfl⟩ := exists_encode_of_legal hlegal
    exact ⟨i, decode_encode i⟩

/-- Settles O3: two rows that accept a word have its `OPC`, and no two rows share one. -/
theorem noWordHasTwoRows : Obligations.NoWordHasTwoRows := by
  intro w r hr q hq hraccepts hqaccepts
  have hopc : r.opc = q.opc := ((accepts_iff r w).1 hraccepts).1.symm.trans ((accepts_iff q w).1 hqaccepts).1
  exact Laws.LegalWord.opc_injective r hr q hq hopc

/-- Settles O4: each word is decoded as it stands. -/
theorem sampleWordsDecode : Obligations.SampleWordsDecode := by
  unfold Obligations.SampleWordsDecode
  decide

end Sys2Proof

namespace Sys2Proof.Machine

/-! ### The step (R80, R85) -/

theorem step_of_decode_ok {s : State} {c : Command} {rest : List Command} {i : Instr} (hs : s.script = c :: rest)
    (hi : decode c.cw = .ok i) : step s = exec i (s.present c rest) := by
  simp only [step, hs, hi]

theorem step_of_decode_error {s : State} {c : Command} {rest : List Command} {why : Reserved}
    (hs : s.script = c :: rest) (hw : decode c.cw = .error why) : step s = .refused (.invalidCommand why) := by
  simp only [step, hs, hw]

theorem step_of_script_nil {s : State} (hs : s.script = []) : step s = .next s := by
  simp only [step, hs]

/-- What a step that answers a next state did: nothing, or the operation of the next command (R80, R249). -/
theorem step_next_cases {s t : State} (h : step s = .next t) :
    t = s ∨ ∃ c rest i, exec i (s.present c rest) = .next t := by
  cases hs : s.script with
  | nil => rw [step_of_script_nil hs] at h; cases h; exact .inl rfl
  | cons c rest =>
    cases hc : decode c.cw with
    | error why => rw [step_of_decode_error hs hc] at h; cases h
    | ok i => rw [step_of_decode_ok hs hc] at h; exact .inr ⟨c, rest, i, h⟩

/-- Settles O5: presenting a command is the update the statement writes out. -/
theorem stepRunsTheDecodedCommand : Obligations.StepRunsTheDecodedCommand :=
  ⟨fun _ _ _ _ hs hi => step_of_decode_ok hs hi, fun _ => step_of_script_nil⟩

/-- Settles O6: a word that decoded would be the word of an operation, and so legal. -/
theorem reservedWordIsRefused : Obligations.ReservedWordIsRefused := by
  intro s c rest hs hreserved
  cases hc : decode c.cw with
  | ok i =>
    rw [← encode_of_decode hc, legal_encode] at hreserved
    cases hreserved
  | error why => exact ⟨why, step_of_decode_error hs hc⟩

end Sys2Proof.Machine
end

section
/-! Proofs for 10_state.md and 60_exceptions.md: what every step keeps, and how every operation ends. -/

namespace Sys2Proof.Machine

/-! ### What a step keeps (R21, R23, R24, R14, R61) -/

/-- A step that answers a next state did nothing, or it is an operation that ended as `Ended` says, from the state with
the next command presented. -/
theorem step_next_ended {s t : State} (hf : s.fsm = .idle) (h : step s = .next t) :
    t = s ∨ ∃ c rest, Ended (s.present c rest) t := by
  rcases step_next_cases h with hidle | ⟨c, rest, i, hexec⟩
  · exact .inl hidle
  · exact .inr ⟨c, rest, exec_ended hf hexec⟩

/-- Settles O7: the reset state has these values. -/
theorem resetState : Obligations.ResetState := by
  unfold Obligations.ResetState
  decide

/-- Settles O8: the reset state is not started, so that its latches owe the trace nothing. -/
theorem resetMeetsTheInvariant : Obligations.ResetMeetsTheInvariant := by
  unfold Obligations.ResetMeetsTheInvariant
  decide

/-- Settles O9: every piece of an operation keeps the latches with the trace and `STARTED` with `MODE_V`, and the end of
the operation leaves nothing transient and results that agree. -/
theorem stepKeepsTheInvariant : Obligations.StepKeepsTheInvariant := by
  rintro s t ⟨hmode, hbetween, hres, htells⟩ hstep
  rcases step_next_ended hbetween.1 hstep with rfl | ⟨c, rest, hended⟩
  · exact ⟨hmode, hbetween, hres, htells⟩
  · exact ⟨hended.kept.startedMode hmode, hended.between, hended.results, hended.kept.tells htells⟩

/-- Settles O10: no piece of an operation clears a valid bit or writes a parameter. -/
theorem stepNeverUndoesBringUp : Obligations.StepNeverUndoesBringUp := by
  intro s t hf hstep
  rcases step_next_ended hf hstep with rfl | ⟨c, rest, hended⟩
  · exact ⟨id, id, id, rfl⟩
  · obtain ⟨-, -, -, hcfg, -, -⟩ := hended.kept.inputs
    exact ⟨hended.kept.started, hended.kept.modeV, hended.kept.orderV, hcfg⟩

/-- Settles O11: presenting a command leaves the world and the trace alone, and the pieces of an operation only add. -/
theorem stepOnlyAddsToTheTrace : Obligations.StepOnlyAddsToTheTrace := by
  intro s t hf hstep
  rcases step_next_ended hf hstep with rfl | ⟨c, rest, hended⟩
  · exact ⟨le_rfl, le_rfl, ⟨[], (List.append_nil _).symm⟩, rfl, rfl⟩
  · obtain ⟨-, -, -, -, hmiso, hlag⟩ := hended.kept.inputs
    obtain ⟨es, htrace, -⟩ := hended.kept.trace
    exact ⟨hended.kept.now, hended.kept.draws, ⟨es, htrace⟩, hmiso, hlag⟩

/-! ### The outcomes (R15, R236, R200) -/

/-- Settles O59: the results of every ending agree, and an ending is between operations. -/
theorem fatalReturnsNoData : Obligations.FatalReturnsNoData := by
  intro i s t hf hexec hfatal
  have hended := exec_ended hf hexec
  obtain ⟨-, hres, -, -⟩ := hended.results
  obtain ⟨herr, hrx, hflag⟩ := hres hfatal
  exact ⟨hrx, hflag, herr, hended.between.1⟩

/-- An ending is `Fatal`, or it has the outcome the operation's results give a return. -/
theorem outcome_of_conclude {α : Type} {m : Res α} {f : α → Results} {t : State} (h : m.conclude f = .next t) :
    t.res.outcome = .fatal ∨ ∃ v, t.res.outcome = (f v).outcome := by
  cases m with
  | ok v u => cases h; exact .inr ⟨v, by rw [State.endOp_res]⟩
  | raised e u => cases h; exact .inl (by rw [takeError_eq, State.endOp_res]; rfl)
  | refused r => cases h

/-- Where a return is `Ok`, the operation does not end `NoResponse`. -/
theorem not_noResponse_of_conclude {α : Type} {m : Res α} {f : α → Results} {t : State} (hf : ∀ v, (f v).outcome = .ok)
    (h : m.conclude f = .next t) : t.res.outcome ≠ .noResponse := by
  rcases outcome_of_conclude h with hfatal | ⟨v, hv⟩
  · rw [hfatal]; decide
  · rw [hv, hf]; decide

theorem ofTarget_outcome (r : Option (List Byte)) : (Results.ofTarget r).outcome = .ok := by cases r <;> rfl

/-- Settles O60: SEND_COMMAND aside, every operation's results are `Ok` on a return. -/
theorem onlySendCommandEndsNoResponse : Obligations.OnlySendCommandEndsNoResponse := by
  intro i s t _ hexec hnone
  cases i with
  | sendCommand op => exact ⟨op, rfl⟩
  | readPassiveTarget baud => exact absurd hnone (not_noResponse_of_conclude ofTarget_outcome hexec)
  | _ => exact absurd hnone (not_noResponse_of_conclude (fun _ => rfl) hexec)

end Sys2Proof.Machine
end

section
/-! Proofs for 40_transport_control.md: configuration, bring-up and chip-select (R120 to R128). -/

namespace Sys2Proof.Machine

/-! ### What the end of an operation leaves (R33, R236) -/

/-- The end of an operation writes the results and takes time, no more. -/
theorem endOp_quiet (r : Results) (s : State) :
    SameConfiguration s (s.endOp r) ∧ SameLatches s (s.endOp r) ∧ SameInputs s (s.endOp r) ∧ SameWire s (s.endOp r) ∧
      SameLog s (s.endOp r) := by
  refine ⟨?_, ?_, ?_, ?_, fun hf => ?_⟩
  · simp [SameConfiguration]
  · simp [SameLatches]
  · simp [SameInputs]
  · simp [SameWire]
  · simp [hf]

theorem endsOk_endOp (bs : List Byte) (s : State) : EndsOk (s.endOp (.ofBytes bs)) bs false :=
  ⟨State.endOp_res .., betweenOps_endOp ..⟩

theorem endsOk_endOp_ofUnit (s : State) : EndsOk (s.endOp .ofUnit) [] false :=
  ⟨State.endOp_res .., betweenOps_endOp ..⟩

theorem endsOk_endOp_ofFlag (b : Bool) (s : State) : EndsOk (s.endOp (.ofFlag b)) [] b :=
  ⟨State.endOp_res .., betweenOps_endOp ..⟩

theorem endsFatal_takeError (e : Error) (s : State) : EndsFatal (s.takeError e) e.code e.info :=
  ⟨State.endOp_res .., betweenOps_endOp ..⟩

/-- After pin activity alone, the end of the operation finds the configuration, the inputs and `FSM` as they were. -/
theorem Wire.endOp_keeps {s t : State} (h : Wire s t) (r : Results) :
    SameConfiguration s (t.endOp r) ∧ SameInputs s (t.endOp r) ∧ SameLog s (t.endOp r) := by
  refine ⟨by simpa [SameConfiguration] using h.conf, by simpa [SameInputs] using h.inputs, fun hf => ?_⟩
  rw [State.endOp_fsmLog, if_pos (h.fsm.trans hf), h.fsmLog]

/-! ### CONFIGURE and CONFIGURE_BIT_ORDER -/

theorem readMode8_of_le {m : Byte} (h : m.toNat ≤ 3) : readMode8 m = some (m.extractLsb' 0 2) := if_neg (by omega)

theorem readMode8_of_gt {m : Byte} (h : 3 < m.toNat) : readMode8 m = none := if_pos h

theorem readOrder8_of_gt {o : Byte} (h : 1 < o.toNat) : readOrder8 o = none := if_pos h

theorem readOrder8_of_le {o : Byte} (h : o.toNat ≤ 1) :
    readOrder8 o = some (if o.toNat = 0 then .msbFirst else .lsbFirst) := by
  rw [readOrder8, if_neg (by omega)]
  congr 1
  rcases Nat.le_one_iff_eq_zero_or_eq_one.1 h with h0 | h1
  · rw [BitVec.eq_of_toNat_eq (y := 0x00) h0]; rfl
  · rw [BitVec.eq_of_toNat_eq (y := 0x01) h1]; rfl

/-- Settles O13: an `ARG` of 0 to 3 is read as the mode it numbers. -/
theorem configureSetsTheMode : Obligations.ConfigureSetsTheMode := by
  intro m s hm hn
  have hexec : exec (.configure m) s =
      .next (State.endOp .ofUnit { s with mode := m.extractLsb' 0 2, modeV := true }) := by
    rw [exec, execConfigure, configureOp, needNoTransaction_ok hn, readMode8_of_le hm]; rfl
  obtain ⟨⟨-, -, horder, horderV, hstarted⟩, hlatches, hin, hwire, hlog⟩ :=
    endOp_quiet .ofUnit { s with mode := m.extractLsb' 0 2, modeV := true }
  refine ⟨_, hexec, ?_, State.endOp_modeV .., horder, horderV, hstarted, hlatches, hin, hwire, endsOk_endOp_ofUnit _,
    hlog⟩
  rw [State.endOp_mode, BitVec.extractLsb'_toNat]
  omega

/-- Settles O14: an `ARG` of 0 or 1 is read as the order it numbers. -/
theorem configureBitOrderSetsTheOrder : Obligations.ConfigureBitOrderSetsTheOrder := by
  intro o s ho hn
  have hexec : exec (.configureBitOrder o) s = .next (State.endOp .ofUnit
      { s with order := if o.toNat = 0 then .msbFirst else .lsbFirst, orderV := true }) := by
    rw [exec, execConfigureBitOrder, configureBitOrderOp, needNoTransaction_ok hn, readOrder8_of_le ho]; rfl
  obtain ⟨⟨hmode, hmodeV, horder, -, hstarted⟩, hlatches, hin, hwire, hlog⟩ :=
    endOp_quiet .ofUnit { s with order := if o.toNat = 0 then .msbFirst else .lsbFirst, orderV := true }
  exact ⟨_, hexec, horder, State.endOp_orderV .., hmode, hmodeV, hstarted, hlatches, hin, hwire, endsOk_endOp_ofUnit _,
    hlog⟩

/-- Settles O15: the error is raised from the state as it stands. -/
theorem outOfRangeConfigurationIsFatal : Obligations.OutOfRangeConfigurationIsFatal := by
  intro a s hn
  have hquiet : ∀ e, SameConfiguration s (s.takeError e) ∧ SameLatches s (s.takeError e) ∧
      SameInputs s (s.takeError e) ∧ SameWire s (s.takeError e) ∧ SameLog s (s.takeError e) :=
    fun e => endOp_quiet (.ofError e) s
  refine ⟨fun ha => ⟨s.takeError (.invalidMode a), ?_, endsFatal_takeError _ s, hquiet _⟩,
    fun ha => ⟨s.takeError (.invalidOrder a), ?_, endsFatal_takeError _ s, hquiet _⟩⟩
  · rw [exec, execConfigure, configureOp, needNoTransaction_ok hn, readMode8_of_gt ha]; rfl
  · rw [exec, execConfigureBitOrder, configureBitOrderOp, needNoTransaction_ok hn, readOrder8_of_gt ha]; rfl

theorem needNoTransaction_refused {α : Type} {s : State} (hs : s.started = true) (hcs : s.csnQ = .low) (k : Res α) :
    needNoTransaction s k = .refused .configDuringTransaction := by
  rw [needNoTransaction, if_pos (by simp [hs, hcs])]

/-- Settles O16: the guard of R126 is the first statement of both operations, and INITIALIZE begins with one of them. -/
theorem configurationIsRefusedInATransaction : Obligations.ConfigurationIsRefusedInATransaction := by
  intro a s hs hcs
  refine ⟨?_, ?_, ?_⟩
  · rw [exec, execConfigure, configureOp, needNoTransaction_refused hs hcs]; rfl
  · rw [exec, execConfigureBitOrder, configureBitOrderOp, needNoTransaction_refused hs hcs]; rfl
  · rw [exec, execInitialize, bringUpOp, needStarted_ok hs, configureOp, needNoTransaction_refused hs hcs]; rfl

/-! ### START, SELECT, DESELECT -/

/-- Settles O17: the four provisioning events lead from `s` to the state START ends in. -/
theorem startProvisionsThePins : Obligations.StartProvisionsThePins := by
  intro s hmode
  have hexec : exec .start s = .next (State.endOp .ofUnit { provisionPins s with started := true }) := by
    rw [exec, execStart, startOp, if_pos hmode]; rfl
  have hlog : SameLog s (State.endOp .ofUnit { provisionPins s with started := true }) := fun hf => by
    simp [provisionPins, State.pinCfgOut, State.pinCfgIn, hf]
  refine ⟨_, hexec, ?_, ?_, ?_, ?_, State.endOp_started .., ?_, ?_, ?_, ?_, ?_, ?_, endsOk_endOp_ofUnit _, hlog⟩ <;>
    simp [provisionPins, State.pinCfgOut, State.pinCfgIn, TraceAdds, SameInputs]

/-- Settles O18: START tests `MODE_V` before its first event. -/
theorem startNeedsAMode : Obligations.StartNeedsAMode := by
  intro s hmode
  rw [exec, execStart, startOp, hmode]
  rfl

theorem exec_select {s : State} (hs : s.started = true) :
    exec .select s = .next ((s.pinOut .csn .low).endOp .ofUnit) := by
  rw [exec, execSelect, selectOp, needStarted_ok hs]; rfl

theorem exec_deselect {s : State} (hs : s.started = true) :
    exec .deselect s = .next ((s.pinOut .csn .high).endOp .ofUnit) := by
  rw [exec, execDeselect, deselectOp, needStarted_ok hs]; rfl

/-- What driving CS_N, as the whole of an operation, does (R123, R124, R128). -/
theorem endOp_pinOut_csn (v : Level) (s : State) :
    ((s.pinOut .csn v).endOp .ofUnit).csnQ = v ∧ TraceAdds s ((s.pinOut .csn v).endOp .ofUnit) [.out .csn v] ∧
      ((s.pinOut .csn v).endOp .ofUnit).sckQ = s.sckQ ∧ ((s.pinOut .csn v).endOp .ofUnit).mosiQ = s.mosiQ ∧
      SameConfiguration s ((s.pinOut .csn v).endOp .ofUnit) ∧ SameInputs s ((s.pinOut .csn v).endOp .ofUnit) ∧
      ((s.pinOut .csn v).endOp .ofUnit).world.misoIx = s.world.misoIx ∧
      EndsOk ((s.pinOut .csn v).endOp .ofUnit) [] false ∧ SameLog s ((s.pinOut .csn v).endOp .ofUnit) := by
  obtain ⟨hconf, hin, hlog⟩ := (wire_pinOut .csn v s).endOp_keeps .ofUnit
  exact ⟨by simp, by simp [TraceAdds], by simp, by simp, hconf, hin, by simp, endsOk_endOp_ofUnit _, hlog⟩

/-- Settles O19: each is one `PinOut` on CS_N. -/
theorem selectAndDeselectDriveChipSelect : Obligations.SelectAndDeselectDriveChipSelect :=
  fun s hs => ⟨⟨_, exec_select hs, endOp_pinOut_csn .low s⟩, ⟨_, exec_deselect hs, endOp_pinOut_csn .high s⟩⟩

/-- Settles O56: a redundant event leaves the latches as they are, so that the rest is observed as without it; the one
event of a redundant SELECT or DESELECT is such an event. -/
theorem redundantWritesAreNotObserved : Obligations.RedundantWritesAreNotObserved := by
  have hdrop : ∀ (l : Latches) (es es' : List Event) (p : Pin) (v : Level), (l.seeAll es).level p = some v →
      observed l (es ++ .out p v :: es') = observed l (es ++ es') := by
    intro l es es' p v hlevel
    have hredundant : (Event.out p v).redundant (l.seeAll es) = true := by simp [Event.redundant, hlevel]
    rw [observed_append, observed_append, observed, if_pos hredundant]
  have hquiet : ∀ (s : State) (v : Level), s.csnQ = v →
      observation s ((s.pinOut .csn v).endOp .ofUnit) = ([], .ofUnit) := by
    intro s v hv
    have hobs : observed s.latches [.out .csn v] = [] := hdrop s.latches [] [] .csn v (by rw [← hv]; rfl)
    simp [observation, hobs]
  refine ⟨hdrop, ?_, fun s hs => ⟨fun hcs => ⟨_, exec_select hs, hquiet s .low hcs⟩,
    fun hcs => ⟨_, exec_deselect hs, hquiet s .high hcs⟩⟩⟩
  intro l es es' e hchanges
  have hobserved : e.redundant (l.seeAll es) = false := by
    cases e with
    | out p v => simpa [Event.redundant] using hchanges p v rfl
    | _ => rfl
  rw [observed_append, observed, hobserved]
  rfl

end Sys2Proof.Machine
end

section
/-! Proofs for 60_exceptions.md, refusals: which operation is refused by which guard (R60, R127, R146, R222). -/

namespace Sys2Proof.Machine

/-! ### The guards, when they refuse -/

theorem needStarted_refused {α : Type} {s : State} (h : s.started = false) (k : Res α) :
    needStarted s k = .refused .notStarted := by simp [needStarted, h]

theorem needConfigured_refused {α : Type} {s : State} (h : s.orderV = false) (k : Res α) :
    needConfigured s k = .refused .notConfigured := by simp [needConfigured, h]

theorem needFits_refused {α : Type} {n : Nat} {s : State} (h : bufMax s.cfg < n) (k : Res α) :
    needFits n s k = .refused .tooLong := if_neg (by omega)

theorem needWriteIndex_refused {α : Type} {n : Nat} {s : State} (h : s.cfg.xferWriteIndex = .byte) (hn : 8 < n)
    (k : Res α) : needWriteIndex n s k = .refused .writeIndexBeyondByte := if_pos ⟨h, hn⟩

/-! ### TRANSFER, and the exchange that is made of it -/

theorem transferOp_notConfigured {s : State} (hs : s.started = true) (ho : s.orderV = false) (bs : List Byte)
    (sel desel : Bool) : transferOp bs sel desel s = .refused .notConfigured := by
  rw [transferOp, needStarted_ok hs, needConfigured_refused ho]

theorem transferOp_tooLong {s : State} (hr : WireReady s) {bs : List Byte} (h : bufMax s.cfg < bs.length)
    (sel desel : Bool) : transferOp bs sel desel s = .refused .tooLong := by
  rw [transferOp, needStarted_ok hr.1, needConfigured_ok hr.2.2 hr.2.1, needFits_refused h]

theorem transferOp_byteIndex {s : State} (hr : WireReady s) {bs : List Byte} (hx : s.cfg.xferWriteIndex = .byte)
    (h8 : 8 < bs.length) (hfits : bs.length ≤ bufMax s.cfg) (sel desel : Bool) :
    transferOp bs sel desel s = .refused .writeIndexBeyondByte := by
  rw [transferOp, needStarted_ok hr.1, needConfigured_ok hr.2.2 hr.2.1, needFits_ok hfits,
    needWriteIndex_refused hx h8]

/-- The state an exchange transfers its bytes from: CS_N low for at least 2 ms (R166, R167). -/
abbrev selectedState (s : State) : State := (s.pinOut .csn .low).delay tWake

theorem wire_selectedState (s : State) : Wire s (selectedState s) := (wire_pinOut _ _ s).trans (wire_delay _ _)

theorem wireExchange_notStarted {s : State} (hs : s.started = false) (bs : List Byte) :
    wireExchange bs s = .refused .notStarted := by
  rw [wireExchange, selectOp, needStarted_refused hs]; rfl

/-- What refuses the transfer inside an exchange refuses the exchange (R200). -/
theorem wireExchange_refused {s : State} (hs : s.started = true) {bs : List Byte} {r : Refusal}
    (h : transferOp bs false false (selectedState s) = .refused r) : wireExchange bs s = .refused r := by
  rw [wireExchange, selectOp, needStarted_ok hs]
  simp only [Res.bind, delayOp]
  rw [h]

theorem wireExchange_notConfigured {s : State} (hs : s.started = true) (ho : s.orderV = false) (bs : List Byte) :
    wireExchange bs s = .refused .notConfigured := by
  obtain ⟨-, -, -, horderV, hstarted⟩ := (wire_selectedState s).conf
  exact wireExchange_refused hs (transferOp_notConfigured (hstarted.trans hs) (horderV.trans ho) ..)

/-- An exchange longer than `BUFMAX` is refused for that, and one that fits for its write index (log 12). -/
theorem wireExchange_unfit {s : State} (hr : WireReady s) {bs : List Byte}
    (h : ¬ (bs.length ≤ bufMax s.cfg ∧ WriteIndexFits s bs.length)) :
    wireExchange bs s = .refused (if bufMax s.cfg < bs.length then .tooLong else .writeIndexBeyondByte) := by
  have hw := wire_selectedState s
  refine wireExchange_refused hr.1 ?_
  split
  · next hlong => exact transferOp_tooLong (hw.ready hr) (by rwa [hw.cfg]) ..
  · next hfits =>
    have hunfit : ¬ WriteIndexFits s bs.length := fun hx => h ⟨by omega, hx⟩
    have hbyte : s.cfg.xferWriteIndex = .byte := by
      cases hx : s.cfg.xferWriteIndex with
      | bit => exact absurd (.inl hx) hunfit
      | byte => rfl
    have h8 : 8 < bs.length := by by_contra hle; exact hunfit (.inr (by omega))
    exact transferOp_byteIndex (hw.ready hr) (by rw [hw.cfg]; exact hbyte) h8 (by rw [hw.cfg]; omega) ..

theorem dataRead_length {n : Nat} (h : 1 ≤ n) (b : Byte) : (b :: List.replicate (n - 1) (0x00 : Byte)).length = n := by
  simp; omega

/-- A data read that does not fit is refused by its length or by its write index. -/
theorem dataReadOp_unfit {s : State} (hr : WireReady s) {n : Nat} (hn : 1 ≤ n)
    (h : ¬ (n ≤ bufMax s.cfg ∧ WriteIndexFits s n)) :
    dataReadOp n s = .refused (if bufMax s.cfg < n then .tooLong else .writeIndexBeyondByte) := by
  rw [dataReadOp_eq hn, wireExchange_unfit hr (by rwa [dataRead_length hn]), dataRead_length hn]

/-! ### SEND_COMMAND -/

theorem sendCommandOp_notStarted {s : State} (hs : s.started = false) (op : Byte) (params : List Byte) (cap tmo : Nat) :
    sendCommandOp op params cap tmo s = .refused .notStarted := by
  rw [sendCommandOp, needStarted_refused hs]

theorem sendCommandOp_notConfigured {s : State} (hs : s.started = true) (ho : s.orderV = false) (op : Byte)
    (params : List Byte) (cap tmo : Nat) : sendCommandOp op params cap tmo s = .refused .notConfigured := by
  rw [sendCommandOp, needStarted_ok hs, needConfigured_refused ho]

theorem sendCommandOp_tooLong {s : State} (hr : WireReady s) {params : List Byte} (h : bufMax s.cfg < params.length + 2)
    (op : Byte) (cap tmo : Nat) : sendCommandOp op params cap tmo s = .refused .tooLong := by
  rw [sendCommandOp, needStarted_ok hr.1, needConfigured_ok hr.2.2 hr.2.1, buildFrameOp,
    needFits_refused (n := (commandPayload s.cfg op params).length) h]
  rfl

/-! ### The obligations -/

/-- Settles O20: each of the 14 operations begins with the guard of R127, its own or that of the operation it calls
first; only DATA_READ tests its length before. -/
theorem pinOperationsNeedStart : Obligations.PinOperationsNeedStart := by
  refine ⟨fun i s hs hi hlen => ?_, fun s hlen => ?_⟩
  · cases i with
    | configure _ | configureBitOrder _ | start | buildFrame | parseResponseFrame => cases hi
    | select => rw [exec, execSelect, selectOp, needStarted_refused hs]; rfl
    | deselect => rw [exec, execDeselect, deselectOp, needStarted_refused hs]; rfl
    | write sel desel => rw [exec, execWrite, writeOp, needStarted_refused hs]; rfl
    | read sel desel => rw [exec, execRead, readOp, needStarted_refused hs]; rfl
    | transfer sel desel => rw [exec, execTransfer, transferOp, needStarted_refused hs]; rfl
    | statusRead => rw [exec, execStatusRead, statusReadOp, wireExchange_notStarted hs]; rfl
    | waitReady => rw [exec, execWaitReady, waitReadyOp, needStarted_refused hs]; rfl
    | dataRead =>
      rw [exec, execDataRead, dataReadOp_eq (Nat.one_le_iff_ne_zero.2 (hlen rfl)), wireExchange_notStarted hs]; rfl
    | readAck => rw [exec, execReadAck, readAckOp, dataReadOp_eq (by decide), wireExchange_notStarted hs]; rfl
    | sendCommand op => rw [exec, execSendCommand, sendCommandOp_notStarted hs]; rfl
    | initializeOp => rw [exec, execInitialize, bringUpOp, needStarted_refused hs]; rfl
    | getFirmwareVersion =>
      rw [exec, execGetFirmwareVersion, getFirmwareVersionOp, sendCommandOp_notStarted hs]; rfl
    | useSamConfiguration =>
      rw [exec, execUseSamConfiguration, useSamConfigurationOp, sendCommandOp_notStarted hs]; rfl
    | readPassiveTarget baud =>
      rw [exec, execReadPassiveTarget, readPassiveTargetOp, sendCommandOp_notStarted hs]; rfl
  · rw [exec, execDataRead, dataReadOp, if_pos (by omega)]
    rfl

/-- Settles O21: the guard that follows the one of O20, in the operation itself or in the one it calls. -/
theorem dataOperationsNeedTheOrder : Obligations.DataOperationsNeedTheOrder := by
  intro i s hs ho hi hlen
  cases i with
  | select | deselect | initializeOp => cases hi
  | configure _ | configureBitOrder _ | start | buildFrame | parseResponseFrame => cases hi
  | write sel desel => rw [exec, execWrite, writeOp, needStarted_ok hs, needConfigured_refused ho]; rfl
  | read sel desel => rw [exec, execRead, readOp, needStarted_ok hs, needConfigured_refused ho]; rfl
  | transfer sel desel => rw [exec, execTransfer, transferOp_notConfigured hs ho]; rfl
  | statusRead => rw [exec, execStatusRead, statusReadOp, wireExchange_notConfigured hs ho]; rfl
  | waitReady => rw [exec, execWaitReady, waitReadyOp, needStarted_ok hs, needConfigured_refused ho]; rfl
  | dataRead =>
    rw [exec, execDataRead, dataReadOp_eq (Nat.one_le_iff_ne_zero.2 (hlen rfl)), wireExchange_notConfigured hs ho]; rfl
  | readAck => rw [exec, execReadAck, readAckOp, dataReadOp_eq (by decide), wireExchange_notConfigured hs ho]; rfl
  | sendCommand op => rw [exec, execSendCommand, sendCommandOp_notConfigured hs ho]; rfl
  | getFirmwareVersion =>
    rw [exec, execGetFirmwareVersion, getFirmwareVersionOp, sendCommandOp_notConfigured hs ho]; rfl
  | useSamConfiguration =>
    rw [exec, execUseSamConfiguration, useSamConfigurationOp, sendCommandOp_notConfigured hs ho]; rfl
  | readPassiveTarget baud =>
    rw [exec, execReadPassiveTarget, readPassiveTargetOp, sendCommandOp_notConfigured hs ho]; rfl

/-- Settles O22: the guard of R60 stands after those of R127 wherever a byte sequence or a length is taken. -/
theorem longOperandsAreRefused : Obligations.LongOperandsAreRefused := by
  intro s sel desel op
  refine ⟨fun h => ⟨?_, ?_, fun hr => ⟨?_, ?_⟩⟩, fun h hr => ⟨?_, ?_⟩, fun h hr => ?_, fun h hr => ?_⟩
  · rw [exec, execBuildFrame, buildFrameOp, needFits_refused h]; rfl
  · rw [exec, execParseResponseFrame, parseResponseFrameOp, needFits_refused h]; rfl
  · rw [exec, execWrite, writeOp, needStarted_ok hr.1, needConfigured_ok hr.2.2 hr.2.1, needFits_refused h]; rfl
  · rw [exec, execTransfer, transferOp_tooLong hr h]; rfl
  · rw [exec, execRead, readOp, needStarted_ok hr.1, needConfigured_ok hr.2.2 hr.2.1, needFits_refused h]; rfl
  · rw [exec, execDataRead, dataReadOp_unfit hr (by omega) (by omega), if_pos h]; rfl
  · rw [exec, execSendCommand, sendCommandOp_tooLong hr h]; rfl
  · rw [exec, execUseSamConfiguration, useSamConfigurationOp, sendCommandOp_tooLong hr h]; rfl

/-- Settles O24: TRANSFER meets the guard of R146 last, and DATA_READ through it. -/
theorem byteIndexRefusesLongTransfers : Obligations.ByteIndexRefusesLongTransfers := by
  intro s sel desel hr hx
  refine ⟨fun h8 hfits => ?_, fun h8 hfits => ?_⟩
  · rw [exec, execTransfer, transferOp_byteIndex hr hx h8 hfits]; rfl
  · have hunfit : ¬ (s.opr.len ≤ bufMax s.cfg ∧ WriteIndexFits s s.opr.len) := by
      rintro ⟨-, hbit | hle⟩
      · rw [hbit] at hx; cases hx
      · omega
    rw [exec, execDataRead, dataReadOp_unfit hr (by omega) hunfit, if_neg (by omega)]; rfl

end Sys2Proof.Machine
end

section
/-! Proofs for 20_memory.md and 41_transport_data.md: WRITE, READ and TRANSFER (R52 to R63, R140 to R151). -/

namespace Sys2Proof.Machine

/-! ### Bit positions (R52) -/

theorem bitPos_inj {o : BitOrder} {i j : Nat} (hi : i < 8) (hj : j < 8) (h : bitPos o i = bitPos o j) : i = j := by
  rw [← bitPos_bitPos o hi, h, bitPos_bitPos o hj]

/-- Settles O25: the position function is its own inverse on 0 to 7. -/
theorem bitPositions : Obligations.BitPositions :=
  fun _ hj => ⟨rfl, rfl, fun o => ⟨bitPos_lt o hj, fun _ hi => bitPos_inj hi hj⟩⟩

/-! ### The three operations, run to their end -/

theorem exec_write {s : State} (hr : WireReady s) (hfits : s.opr.txbuf.length ≤ bufMax s.cfg) (sel desel : Bool) :
    exec (.write sel desel) s = .next ((writeEvents s.opr.txbuf sel desel s).endOp .ofUnit) := by
  rw [exec, execWrite, writeOp_ok hr hfits]; rfl

theorem exec_read {s : State} (hr : WireReady s) (hfits : s.opr.len ≤ bufMax s.cfg) (sel desel : Bool) :
    exec (.read sel desel) s =
      .next ((chipSelectIf desel .high (readEvents s.opr.len sel s)).endOp (.ofBytes (nextBytes s 0 s.opr.len))) := by
  rw [exec, execRead, readOp_ok hr hfits]; rfl

theorem exec_transfer {s : State} (hr : WireReady s) (hfits : s.opr.txbuf.length ≤ bufMax s.cfg)
    (hx : WriteIndexFits s s.opr.txbuf.length) (sel desel : Bool) :
    exec (.transfer sel desel) s = .next ((chipSelectIf desel .high (xferEvents s.opr.txbuf sel s)).endOp
      (.ofBytes (nextBytes s 0 s.opr.txbuf.length))) := by
  rw [exec, execTransfer, transferOp_ok hr hfits hx]; rfl

/-- Settles O26: the end of the operation adds nothing to the events of a WRITE. -/
theorem writeSendsEveryBit : Obligations.WriteSendsEveryBit := by
  intro sel desel s hr hfits
  obtain ⟨hwire, htrace, hix, hsck, hmosi, hcsn⟩ := writeEvents_runs s.opr.txbuf sel desel s
  obtain ⟨hconf, hin, hlog⟩ := hwire.endOp_keeps .ofUnit
  refine ⟨_, exec_write hr hfits sel desel, ?_, ?_, ?_, ?_, ?_, hconf, hin, endsOk_endOp_ofUnit _, hlog⟩
  · rw [TraceAdds, State.endOp_trace, htrace]
  · simp [hix]
  · rw [State.endOp_sckQ, hsck]
  · rw [State.endOp_mosiQ, hmosi]
  · rw [State.endOp_csnQ, hcsn]

/-- Settles O27: the deselect of its flag is all that comes after the cells of a READ. -/
theorem readReturnsTheSamples : Obligations.ReadReturnsTheSamples := by
  intro sel desel s hr hfits
  obtain ⟨hwire, htrace, hix, hsck, hmosi, hcsn, -⟩ := readEvents_runs s.opr.len sel s
  obtain ⟨hconf, hin, hlog⟩ := (hwire.trans (wire_chipSelectIf desel .high _)).endOp_keeps
    (.ofBytes (nextBytes s 0 s.opr.len))
  refine ⟨_, exec_read hr hfits sel desel, ?_, ?_, ?_, ?_, ?_, hconf, hin, endsOk_endOp .., hlog⟩
  · rw [TraceAdds, State.endOp_trace, chipSelectIf_trace, htrace, List.append_assoc]
  · simp [hix]
  · rw [State.endOp_sckQ, chipSelectIf_sckQ, hsck]
  · rw [State.endOp_mosiQ, chipSelectIf_mosiQ, hmosi]
  · rw [State.endOp_csnQ, chipSelectIf_csnQ, hcsn]

theorem transferBits_bit {s : State} (h : s.cfg.xferWriteIndex = .bit) (bs : List Byte) :
    transferBits s bs = wireBitsOf s.order bs := by simp only [transferBits, h]

theorem transferBits_byte {s : State} (h : s.cfg.xferWriteIndex = .byte) (bs : List Byte) :
    transferBits s bs = bs.zipIdx.flatMap fun c => List.replicate 8 (c.1.getLsbD (bitPos s.order c.2)) := by
  simp only [transferBits, h]

/-- A TRANSFER that has a meaning, under either write index: its cells drive the bits of R146 and sample once each. -/
theorem transfer_exchanges {s : State} (hr : WireReady s) (hfits : s.opr.txbuf.length ≤ bufMax s.cfg)
    (hx : WriteIndexFits s s.opr.txbuf.length) (sel desel : Bool) :
    ∃ t, exec (.transfer sel desel) s = .next t ∧
      TraceAdds s t (flagEvents sel .low ++ xferEventsOf s.setup (transferBits s s.opr.txbuf)
        (drawnLevels s.world s.world.misoIx (8 * s.opr.txbuf.length)) ++ flagEvents desel .high) ∧
      t.world.misoIx = s.world.misoIx + 8 * s.opr.txbuf.length ∧
      t.sckQ = (if s.opr.txbuf = [] then s.sckQ else idleLevel s.mode) ∧
      t.mosiQ = lastDriven (transferBits s s.opr.txbuf) s.mosiQ ∧
      t.csnQ = (if desel then .high else if sel then .low else s.csnQ) ∧
      SameConfiguration s t ∧ SameInputs s t ∧ EndsOk t (nextBytes s 0 s.opr.txbuf.length) false ∧ SameLog s t := by
  obtain ⟨hwire, htrace, hix, hsck, hmosi, hcsn, -⟩ := xferEvents_runs s.opr.txbuf sel s
  obtain ⟨hconf, hin, hlog⟩ := (hwire.trans (wire_chipSelectIf desel .high _)).endOp_keeps
    (.ofBytes (nextBytes s 0 s.opr.txbuf.length))
  refine ⟨_, exec_transfer hr hfits hx sel desel, ?_, ?_, ?_, ?_, ?_, hconf, hin, endsOk_endOp .., hlog⟩
  · rw [TraceAdds, State.endOp_trace, chipSelectIf_trace, htrace, drivenBitsFrom_zero, List.append_assoc]
  · simp [hix]
  · rw [State.endOp_sckQ, chipSelectIf_sckQ, hsck]
  · rw [State.endOp_mosiQ, chipSelectIf_mosiQ, hmosi, drivenBitsFrom_zero]
  · rw [State.endOp_csnQ, chipSelectIf_csnQ, hcsn]

/-- Settles O28: by bit index the bits driven are those of the sequence in wire order. -/
theorem transferIsFullDuplex : Obligations.TransferIsFullDuplex := by
  intro sel desel s hr hfits hbit
  rw [← transferBits_bit hbit]
  exact transfer_exchanges hr hfits (.inl hbit) sel desel

/-- Settles O29: by byte index every cell of a byte drives the bit its own index selects. -/
theorem transferUnderTheByteIndex : Obligations.TransferUnderTheByteIndex := by
  intro sel desel s hr h8 hbyte
  have hfits : s.opr.txbuf.length ≤ bufMax s.cfg := by rw [bufMax]; omega
  rw [← transferBits_byte hbyte]
  exact transfer_exchanges hr hfits (.inr h8) sel desel

/-- Settles O31: no byte, no cell. -/
theorem emptySequencesMakeNoClock : Obligations.EmptySequencesMakeNoClock := by
  intro sel desel s hr
  refine ⟨fun hnil => ⟨?_, ?_⟩, fun hzero => ?_⟩
  · obtain ⟨t, hexec, htrace, -⟩ := writeSendsEveryBit sel desel s hr (by simp [hnil])
    exact ⟨t, hexec, by simpa [hnil, wireBitsOf] using htrace⟩
  · obtain ⟨t, hexec, htrace, -, -, -, -, -, -, hends, -⟩ :=
      transfer_exchanges hr (by simp [hnil]) (.inr (by simp [hnil])) sel desel
    refine ⟨t, hexec, by simpa [hnil, nextBytes, drawnBytes] using hends, ?_⟩
    simpa [hnil, xferEventsOf, drawnLevels] using htrace
  · obtain ⟨t, hexec, htrace, -, -, -, -, -, -, hends, -⟩ := readReturnsTheSamples sel desel s hr (by simp [hzero])
    refine ⟨t, hexec, by simpa [hzero, nextBytes, drawnBytes] using hends, ?_⟩
    simpa [hzero, drawnLevels] using htrace

/-! ### Loopback (R151) -/

/-- What `n` samples set in a byte, bit by bit: cell `k` writes bit `pos(ORDER, k)` (R143). -/
theorem getLsbD_orSamples (o : BitOrder) (sample : Nat → Level) (b : Byte) {k n : Nat} (hk : k < 8) (hn : n ≤ 8) :
    (orSamples o sample n b).getLsbD (bitPos o k) =
      (b.getLsbD (bitPos o k) || (decide (k < n) && bitOf (sample k))) := by
  induction n with
  | zero => simp [orSamples]
  | succ n ih =>
    have hstep : orSamples o sample (n + 1) b = if bitOf (sample n)
        then orSamples o sample n b ||| BitVec.twoPow 8 (bitPos o n) else orSamples o sample n b := by
      simp [orSamples, List.range_succ]
    have hbit : (BitVec.twoPow 8 (bitPos o n)).getLsbD (bitPos o k) = decide (n = k) := by
      rw [BitVec.getLsbD_twoPow]
      simp [bitPos_lt o (show n < 8 by omega), show bitPos o n = bitPos o k ↔ n = k from ⟨bitPos_inj (by omega) hk,
        congrArg _⟩]
    rw [hstep]
    by_cases hnk : n = k
    · subst hnk
      cases bitOf (sample n) <;> simp [ih (by omega), hbit]
    · have hlt : k < n + 1 ↔ k < n := by omega
      cases bitOf (sample n) <;> simp [ih (by omega), hbit, hnk, hlt]

/-- Eight samples that repeat the bits a byte drives make the byte (R143, R151). -/
theorem assembleByte_levelOf_getLsbD (o : BitOrder) (b : Byte) {sample : Nat → Level}
    (h : ∀ j, j < 8 → sample j = levelOf (b.getLsbD (bitPos o j))) : assembleByte o sample = b := by
  rw [← orSamples_eq_assembleByte]
  refine BitVec.eq_of_getLsbD_eq fun i hi => ?_
  have hbit := getLsbD_orSamples o sample 0x00 (bitPos_lt o hi) le_rfl
  rw [bitPos_bitPos o hi, h _ (bitPos_lt o hi), bitPos_bitPos o hi] at hbit
  simpa [bitPos_lt o hi] using hbit

/-- Draws that repeat the bits a sequence drives make the sequence. -/
theorem drawnBytes_of_loopback (o : BitOrder) (w : World) (bs : List Byte) (ix : Nat)
    (h : drawnLevels w ix (8 * bs.length) = (wireBitsOf o bs).map levelOf) : drawnBytes o w ix bs.length = bs := by
  induction bs generalizing ix with
  | nil => rfl
  | cons b rest ih =>
    rw [List.length_cons, Nat.mul_succ, Nat.add_comm, drawnLevels_add, wireBitsOf, List.flatMap_cons,
      List.map_append] at h
    obtain ⟨hbyte, hrest⟩ := List.append_inj h (by simp)
    have hsample : ∀ j, j < 8 → w.misoAt (ix + j) = levelOf (b.getLsbD (bitPos o j)) := by
      intro j hj
      simpa [drawnLevels, wireBits, hj] using congrArg (·[j]?) hbyte
    rw [List.length_cons, drawnBytes_succ, assembleByte_levelOf_getLsbD o b hsample, ih (ix + 8) hrest]

/-- Settles O30: TRANSFER returns the bytes its draws make, and these are the bytes sent. -/
theorem loopbackReturnsTheBytes : Obligations.LoopbackReturnsTheBytes := by
  intro sel desel s hr hfits hbit hloop
  have hbytes : nextBytes s 0 s.opr.txbuf.length = s.opr.txbuf := drawnBytes_of_loopback _ _ _ _ hloop
  refine ⟨_, exec_transfer hr hfits (.inl hbit) sel desel, ?_⟩
  rw [hbytes]
  exact endsOk_endOp ..

end Sys2Proof.Machine
end

section
/-! Proofs for 42_framer_primitives.md, sections 1 and 2: BUILD_FRAME and PARSE_RESPONSE_FRAME (R160 to R164). -/

namespace Sys2Proof.Machine

/-! ### BUILD_FRAME -/

theorem exec_buildFrame_error {s : State} (hfits : s.opr.txbuf.length ≤ bufMax s.cfg)
    (h : s.opr.txbuf.length = 0 ∨ 255 < s.opr.txbuf.length) :
    exec .buildFrame s = .next (s.takeError (.payloadTooLong s.opr.txbuf.length)) := by
  rw [exec, execBuildFrame, buildFrameOp, needFits_ok hfits, if_pos (by omega)]; rfl

/-- Settles O34: the operation ends from the state as it stands, with the frame or with the error. -/
theorem buildFrameChangesOnlyTheResults : Obligations.BuildFrameChangesOnlyTheResults := by
  intro s hfits
  by_cases h : 1 ≤ s.opr.txbuf.length ∧ s.opr.txbuf.length ≤ 255
  · refine ⟨_, exec_buildFrame_next h.1 h.2, fun _ _ => ?_, fun hbad => by omega, endOp_quiet _ s⟩
    rw [State.endOp_res]
    exact endsOk_endOp _ s
  · exact ⟨_, exec_buildFrame_error hfits (by omega), fun h1 h2 => absurd ⟨h1, h2⟩ h,
      fun _ => endsFatal_takeError _ s, endOp_quiet _ s⟩

/-! ### PARSE_RESPONSE_FRAME -/

/-- The parser's answer is all that the operation writes, into the results. -/
theorem exec_parseResponseFrame {s : State} (hfits : s.opr.txbuf.length ≤ bufMax s.cfg) :
    ∃ r, exec .parseResponseFrame s = .next (s.endOp r) ∧
      (∀ p, parseFrame s.cfg s.opr.txbuf s.opr.xmax = .ok p → r = .ofBytes p) ∧
      (∀ e, parseFrame s.cfg s.opr.txbuf s.opr.xmax = .error e → r = .ofError e) := by
  rw [exec, execParseResponseFrame, parseResponseFrameOp, needFits_ok hfits]
  cases hparse : parseFrame s.cfg s.opr.txbuf s.opr.xmax with
  | ok p => exact ⟨.ofBytes p, rfl, fun _ h => (by cases h; rfl), nofun⟩
  | error e => exact ⟨.ofError e, rfl, nofun, fun _ h => (by cases h; rfl)⟩

/-- What the parser returns is the payload of an inbound frame whose checks pass (R91, R162). -/
theorem exists_inboundFrame_of_parseFrame {c : Config} {raw p : List Byte} {xmax : Nat}
    (h : parseFrame c raw xmax = .ok p) :
    ∃ k len lcs dcs tail, raw = inboundFrame c k len lcs p dcs tail ∧ InboundChecks len lcs p dcs := by
  obtain ⟨rest, rfl, hpreamble⟩ := parseFrame_ok h
  obtain ⟨k, body, rfl, hbody⟩ := parsePreamble_ok hpreamble
  obtain ⟨len, lcs, dcs, tail, rfl, hlcs, hlen, hdcs⟩ := parseBody_ok hbody
  refine ⟨k, len, lcs, dcs, tail, by simp [inboundFrame], (byte_add_eq_zero_iff len lcs).1 hlcs, hlen, ?_⟩
  simpa using (byteSum_eq_zero_iff _).1 hdcs

/-- Settles O35: an `Ok` with `p` is the parser's `p`, and the parser returns the payloads of checked frames alone. -/
theorem parserReturnsExactlyTheCheckedFrames : Obligations.ParserReturnsExactlyTheCheckedFrames := by
  intro s p hfits
  constructor
  · rintro ⟨t, hexec, hres, -⟩
    obtain ⟨r, hnext, hok, herror⟩ := exec_parseResponseFrame hfits
    rw [hnext] at hexec
    cases hexec
    rw [State.endOp_res] at hres
    cases hparse : parseFrame s.cfg s.opr.txbuf s.opr.xmax with
    | ok q =>
      have hqp : q = p := congrArg Results.rxbuf ((hok q hparse).symm.trans hres)
      exact exists_inboundFrame_of_parseFrame (hqp ▸ hparse)
    | error e => cases congrArg Results.outcome ((herror e hparse).symm.trans hres)
  · rintro ⟨k, len, lcs, dcs, tail, hraw, hchecks⟩
    exact exec_parseResponseFrame_inboundFrame hraw hchecks hfits

/-! ### The first failing check (R162, R163) -/

theorem parseFrame_frameStartBad {c : Config} {raw : List Byte} (xmax : Nat) (h : raw.head? ≠ some c.rdEcho) :
    parseFrame c raw xmax = .error .frameStartBad := by
  cases raw with
  | nil => rfl
  | cons echo rest => rw [parseFrame, if_neg (by simpa using h)]

/-- After the echo the parser passes over the run of zeros, whatever its length (R92, R162). -/
theorem parseFrame_zeros (c : Config) (k : Nat) (rest : List Byte) (xmax : Nat) :
    parseFrame c (c.rdEcho :: (List.replicate k 0x00 ++ rest)) xmax = parsePreamble rest := by
  rw [parseFrame, if_pos rfl, parsePreamble_zeros]

theorem parsePreamble_missingStartCode {b : Byte} (h0 : b ≠ 0x00) (hff : b ≠ 0xFF) (rest : List Byte) :
    parsePreamble (b :: rest) = .error .missingStartCode := by
  rw [parsePreamble, if_neg h0, startCode2, if_neg hff]

theorem parseBody_short {bs : List Byte} (h : bs.length < 2) : parseBody bs = .error .truncatedFrame := by
  match bs, h with
  | [], _ => rfl
  | [_], _ => rfl

theorem parseBody_lengthChecksum {len lcs : Byte} (h : (len.toNat + lcs.toNat) % 256 ≠ 0) (body : List Byte) :
    parseBody (len :: lcs :: body) = .error .lengthChecksumMismatch := by
  rw [parseBody, if_pos (fun hz => h ((byte_add_eq_zero_iff len lcs).1 hz))]

theorem parseBody_truncated {len lcs : Byte} (hlcs : (len.toNat + lcs.toNat) % 256 = 0) {body : List Byte}
    (h : body.length < len.toNat + 1) : parseBody (len :: lcs :: body) = .error .truncatedFrame := by
  rw [parseBody, if_neg (not_not.2 ((byte_add_eq_zero_iff len lcs).2 hlcs)), if_pos h]

theorem parseBody_payloadChecksum {len lcs : Byte} (hlcs : (len.toNat + lcs.toNat) % 256 = 0) {body : List Byte}
    (hlen : len.toNat + 1 ≤ body.length) (h : ((body.take (len.toNat + 1)).map BitVec.toNat).sum % 256 ≠ 0) :
    parseBody (len :: lcs :: body) = .error .payloadChecksumMismatch := by
  rw [parseBody, if_neg (not_not.2 ((byte_add_eq_zero_iff len lcs).2 hlcs)), if_neg (by omega),
    if_pos (fun hz => h ((byteSum_eq_zero_iff _).1 hz))]

/-- Settles O36: each case is the parser's answer on raw bytes of that shape. -/
theorem parserReportsTheFirstFailingCheck : Obligations.ParserReportsTheFirstFailingCheck := by
  intro s hfits
  obtain ⟨r, hexec, -, herror⟩ := exec_parseResponseFrame hfits
  obtain ⟨hconf, hlatches, hin, hwire, hlog⟩ := endOp_quiet r s
  have hfatal : ∀ e, parseFrame s.cfg s.opr.txbuf s.opr.xmax = .error e → EndsFatal (s.endOp r) e.code e.info :=
    fun e h => herror e h ▸ endsFatal_takeError e s
  have hstart : ∀ {k rest e}, s.opr.txbuf = s.cfg.rdEcho :: (List.replicate k 0x00 ++ 0xFF :: rest) →
      parseBody rest = .error e → EndsFatal (s.endOp r) e.code e.info := fun hraw hbody =>
    hfatal _ (by rw [hraw, parseFrame_zeros, parsePreamble_start, hbody])
  refine ⟨_, hexec, hconf, hlatches, hin, hwire, hlog, ?_, ?_, ?_, ?_, ?_⟩
  · exact fun h => hfatal .frameStartBad (parseFrame_frameStartBad _ h)
  · refine fun k hraw => hfatal .truncatedPreamble ?_
    rw [hraw, ← List.append_nil (List.replicate k 0x00), parseFrame_zeros]; rfl
  · refine fun k b rest hraw h0 hff => hfatal .missingStartCode ?_
    rw [hraw, parseFrame_zeros, parsePreamble_missingStartCode h0 hff]
  · exact fun k rest hraw hshort => hstart (e := .truncatedFrame) hraw (parseBody_short hshort)
  · intro k len lcs rest hraw
    exact ⟨fun h => hstart (e := .lengthChecksumMismatch) hraw (parseBody_lengthChecksum h rest),
      fun hlcs h => hstart (e := .truncatedFrame) hraw (parseBody_truncated hlcs h),
      fun hlcs hlen h => hstart (e := .payloadChecksumMismatch) hraw (parseBody_payloadChecksum hlcs hlen h)⟩

/-- Settles O38: after the echo and two zeros the ACK shows 0xFF, a length of 0 and the checksum 0xFF. -/
theorem ackIsNotAFrame : Obligations.AckIsNotAFrame := by
  intro s hecho hraw
  obtain ⟨t, hexec, -, -, -, -, -, -, -, -, -, hchecks⟩ :=
    parserReportsTheFirstFailingCheck s (by rw [hraw, bufMax]; simp; omega)
  have hshape : s.opr.txbuf = s.cfg.rdEcho :: (List.replicate 2 0x00 ++ 0xFF :: 0x00 :: 0xFF :: [0x00]) := by
    rw [hraw, hecho]; rfl
  exact ⟨t, hexec, (hchecks 2 0x00 0xFF [0x00] hshape).1 (by decide)⟩

end Sys2Proof.Machine
end

section
/-! Proofs for 42_framer_primitives.md, sections 3 to 5: the SPI transactions, the ACK detector, the ready wait (R166 to
R173). -/

namespace Sys2Proof.Machine

/-- What any piece of unit P that leaves the pins at rest makes of the end of the operation (R199). -/
theorem Steady.unitPKeeps_endOp {s t : State} (h : Steady s t) (hpins : PinsRest s t) (r : Results) :
    UnitPKeeps s (t.endOp r) := by
  refine ⟨?_, ?_, ?_, ?_⟩
  · simpa [SameConfiguration] using h.conf
  · simpa [SameInputs] using h.inputs
  · simpa using hpins.1
  · simpa using hpins.2

theorem Exchanged.pinsRest {s t : State} {bs : List Byte} (h : Exchanged s bs t) (hbs : bs ≠ []) : PinsRest s t :=
  ⟨h.csnQ, by rw [h.sckQ, if_neg hbs]⟩

/-- An operation that is one exchange, at its end (R166, R167, R199). -/
theorem Exchanged.endOp {s t : State} {bs : List Byte} (h : Exchanged s bs t) (hbs : bs ≠ []) (r : Results) :
    UnitPKeeps s (t.endOp r) ∧ (t.endOp r).mosiQ = lastDriven (transferBits s bs) s.mosiQ ∧
      (t.endOp r).world.misoIx = s.world.misoIx + 8 * bs.length ∧ s.world.now + 2 ≤ (t.endOp r).world.now ∧
      SameLog s (t.endOp r) ∧ TraceAdds s (t.endOp r) (exchangeEvents s bs s.world.misoIx) := by
  obtain ⟨-, -, hlog⟩ := h.wire.endOp_keeps r
  refine ⟨h.wire.steady.unitPKeeps_endOp (h.pinsRest hbs) r, ?_, ?_, h.now.trans (kept_endOp r t).now, hlog, ?_⟩
  · rw [State.endOp_mosiQ, h.mosiQ]
  · rw [State.endOp_world, h.misoIx]
  · rw [TraceAdds, State.endOp_trace, h.trace]

/-- Settles O39: STATUS_READ is the exchange of `[SR, 0x00]`. -/
theorem statusReadExchangesTwoBytes : Obligations.StatusReadExchangesTwoBytes := by
  intro s hr
  obtain ⟨u, hop, hx⟩ := statusReadOp_ok hr
  have hexec : exec .statusRead s = .next (u.endOp (.ofBytes (nextBytes s 0 2))) := by
    rw [exec, execStatusRead, hop]; rfl
  exact ⟨_, hexec, endsOk_endOp _ u, hx.endOp (by simp) _⟩

/-- Settles O40: DATA_READ is the exchange of `[DR]` and zeros. -/
theorem dataReadExchangesItsLength : Obligations.DataReadExchangesItsLength := by
  intro s hr hlen hfits hx
  have hlength := dataRead_length hlen s.cfg.dr
  obtain ⟨u, hop, hu⟩ := wireExchange_ok (bs := s.cfg.dr :: List.replicate (s.opr.len - 1) 0x00) hr
    (by rwa [hlength]) (by rwa [hlength])
  rw [hlength] at hop
  have hexec : exec .dataRead s = .next (u.endOp (.ofBytes (nextBytes s 0 s.opr.len))) := by
    rw [exec, execDataRead, dataReadOp_eq hlen, hop]; rfl
  have hends := hu.endOp (by simp) (.ofBytes (nextBytes s 0 s.opr.len))
  rw [hlength] at hends
  exact ⟨_, hexec, endsOk_endOp _ u, hends⟩

/-- Settles O41: the seven bytes of the exchange are compared when all of them have been read. -/
theorem readAckComparesSevenBytes : Obligations.ReadAckComparesSevenBytes := by
  intro s hr
  have hsat := (readAckOp_sat s).imp (R' := False) (fun _ _ h => h) (fun _ _ h => h) (fun hn => hn hr)
  refine hsat.conclude_exists ?_ ?_
  · rintro - u ⟨-, hx, hack⟩
    obtain ⟨hkeeps, -, hix, hnow, hlog, htrace⟩ := hx.endOp (by simp) .ofUnit
    exact ⟨hkeeps, hix, hlog, fun _ => endsOk_endOp_ofUnit u, fun hne => absurd hack hne, hnow, htrace⟩
  · rintro e u ⟨-, hx, rfl, hne⟩
    obtain ⟨hkeeps, -, hix, hnow, hlog, htrace⟩ := hx.endOp (by simp) (.ofError .ackMismatch)
    exact ⟨hkeeps, hix, hlog, fun hack => absurd hack hne, fun _ => endsFatal_takeError .ackMismatch u, hnow, htrace⟩

/-- Settles O42: the loop of R170 ends within its bound, and the clock test has passed when it ends false. -/
theorem waitReadyPollsUntilReadyOrTimeout : Obligations.WaitReadyPollsUntilReadyOrTimeout := by
  intro s hr
  obtain ⟨k, ready, u, hop, hk1, hk2, hw⟩ := waitReadyOp_ok (timeout := s.opr.tmo) hr
  have hexec : exec .waitReady s = .next (u.endOp (.ofFlag ready)) := by rw [exec, execWaitReady, hop]; rfl
  obtain ⟨-, -, hlog⟩ := hw.wire.endOp_keeps (.ofFlag ready)
  have hclock : s.world.now ≤ s.readClock.1 := (wire_readClock s).now
  have hend : u.world.now ≤ (u.endOp (.ofFlag ready)).world.now := (kept_endOp _ u).now
  refine ⟨_, k, ready, hexec, endsOk_endOp_ofFlag ready u,
    hw.wire.steady.unitPKeeps_endOp ⟨hw.csnQ, hw.sckQ⟩ _, hw.pollsTo hk1 hk2, ?_, ?_,
    (hw.time hclock).trans hend, fun hfalse => ?_, hlog⟩
  · rw [State.endOp_world, hw.misoIx]
  · rw [TraceAdds, State.endOp_trace, hw.trace]
  · have := hw.elapsed hfalse
    omega

end Sys2Proof.Machine
end

section
/-! Proofs for 43_pn532_commands.md, section 1: SEND_COMMAND (R190 to R193). -/

namespace Sys2Proof.Machine

/-! ### How a SEND_COMMAND ends -/

/-- The end of an operation that talked: the pins at rest, and the conversation as it was (R193, R199). -/
theorem Talked.endOp {s t : State} {op : Byte} {params : List Byte} {cap tmo : Nat} {a : Answer}
    (h : Talked s t op params cap tmo a) (r : Results) :
    UnitPKeeps s (t.endOp r) ∧ Converses s (t.endOp r) op params cap tmo a := by
  obtain ⟨fs, es, d, hdialogue, hlog, htrace, htime⟩ := h.talk
  refine ⟨h.steady.unitPKeeps_endOp h.pins r, fs, es, d, hdialogue, ?_, ?_, htime.trans (kept_endOp r t).now⟩
  · rw [State.endOp_fsmLog, if_pos h.fsm, hlog]
  · rw [TraceAdds, State.endOp_trace, htrace]

/-- An operation that may not refuse ends with the results of a return it allows or of a `raise` it allows. -/
theorem Res.Sat.exists_end {α : Type} {P : α → State → Prop} {E : Error → State → Prop} {m : Res α}
    (h : m.Sat P E False) (f : α → Results) :
    ∃ u r, m.conclude f = .next (u.endOp r) ∧ ((∃ v, P v u ∧ r = f v) ∨ ∃ e, E e u ∧ r = .ofError e) := by
  cases m with
  | ok v u => exact ⟨u, f v, rfl, .inl ⟨v, h, rfl⟩⟩
  | raised e u => exact ⟨u, .ofError e, rfl, .inr ⟨e, h, rfl⟩⟩
  | refused r => exact h.elim

/-- An operation that answered a next state ended so too. -/
theorem Res.Sat.of_next {α : Type} {P : α → State → Prop} {E : Error → State → Prop} {R : Prop} {m : Res α}
    {f : α → Results} {t : State} (h : m.Sat P E R) (hc : m.conclude f = .next t) :
    ∃ u r, t = u.endOp r ∧ ((∃ v, P v u ∧ r = f v) ∨ ∃ e, E e u ∧ r = .ofError e) := by
  cases m with
  | ok v u => cases hc; exact ⟨u, f v, rfl, .inl ⟨v, h, rfl⟩⟩
  | raised e u => cases hc; exact ⟨u, .ofError e, rfl, .inr ⟨e, h, rfl⟩⟩
  | refused r => cases hc

/-- Settles O43: once the frame is out the sequencer's ending is that of a dialogue, and the results are its answer. -/
theorem sendCommandIsADialogue : Obligations.SendCommandIsADialogue := by
  intro op s hf hruns hlen
  have hsat := (sendCommandOp_sat op s.opr.txbuf s.opr.cap s.opr.tmo s hf).imp (R' := False) (fun _ _ h => h)
    (fun _ _ h => h) (fun hn => hn ⟨hruns, by rw [bufMax]; omega⟩)
  obtain ⟨u, r, hexec, ⟨v, ⟨-, htalk⟩, rfl⟩ | ⟨e, ⟨hlong, -⟩ | ⟨-, htalk⟩, rfl⟩⟩ := hsat.exists_end .ofResponse
  · obtain ⟨hkeeps, hconverses⟩ := htalk.endOp (.ofResponse v)
    refine ⟨_, _, hexec, hkeeps, hconverses, ?_⟩
    cases v with
    | none => exact ⟨nofun, fun _ => ⟨State.endOp_res .., betweenOps_endOp ..⟩, nofun⟩
    | some d => exact ⟨fun _ h => (by cases h; exact endsOk_endOp d u), nofun, nofun⟩
  · omega
  · obtain ⟨hkeeps, hconverses⟩ := htalk.endOp (.ofError e)
    exact ⟨_, _, hexec, hkeeps, hconverses, nofun, nofun, fun _ h => (by cases h; exact endsFatal_takeError e u)⟩

/-! ### A peripheral that answers at once (V-S1) -/

/-- The dialogue with a peripheral that answers at once is one poll, the ACK, one poll, and the answer. -/
theorem Dialogue.at_once {s : State} {op : Byte} {cap tmo : Nat} {d : List Byte} {a : Answer} {fs : List Fsm}
    {es : List Event} {n : Nat} (hd : Dialogue s op cap tmo s.world.misoIx a fs es n)
    (h : AnswersAtOnce s op cap d) :
    a = .data d ∧ fs = [.frameSent, .awaitingAck, .ackVerified, .awaitingResponse, .responseParsed, .success, .idle] ∧
      es = responseEvents s cap s.world.misoIx 1 1 := by
  obtain ⟨hpoll₁, hack, hpoll₂, k, len, lcs, dcs, tail, hraw, hchecks⟩ := h
  have hfirst : ∀ {k v}, PollsTo s tmo s.world.misoIx k v → k = 1 ∧ v = true := fun p => p.at_once hpoll₁
  have hsecond : ∀ {k v}, PollsTo s tmo (s.world.misoIx + 16 * 1 + 56) k v → k = 1 ∧ v = true :=
    fun p => p.at_once hpoll₂
  have hparse : parseFrame s.cfg (rawResponse s cap s.world.misoIx 1 1) (cap + 2) =
      .ok (s.cfg.d2h :: (op + 1) :: d) := by
    rw [show rawResponse s cap s.world.misoIx 1 1 = _ from hraw]
    exact parseFrame_inboundFrame s.cfg k tail _ hchecks
  cases hd with
  | noAck k p => cases (hfirst p).2
  | badAck k p hne => obtain ⟨rfl, -⟩ := hfirst p; exact absurd hack hne
  | noAnswer k₁ k₂ hacked p =>
    obtain ⟨rfl, -⟩ := hfirst hacked.wait
    cases (hsecond p).2
  | badFrame k₁ k₂ e hacked p hbad =>
    obtain ⟨rfl, -⟩ := hfirst hacked.wait
    obtain ⟨rfl, -⟩ := hsecond p
    cases hparse.symm.trans hbad
  | wrongCommand k₁ k₂ q hacked p hok hwrong =>
    obtain ⟨rfl, -⟩ := hfirst hacked.wait
    obtain ⟨rfl, -⟩ := hsecond p
    cases hparse.symm.trans hok
    exact absurd rfl (hwrong d)
  | answered k₁ k₂ d' hacked p hok =>
    obtain ⟨rfl, -⟩ := hfirst hacked.wait
    obtain ⟨rfl, -⟩ := hsecond p
    cases hparse.symm.trans hok
    exact ⟨rfl, rfl, rfl⟩

/-- A conversation with a peripheral that answers at once comes to its answer. -/
theorem Converses.at_once {s t : State} {op : Byte} {params : List Byte} {cap tmo : Nat} {a : Answer} {d : List Byte}
    (hc : Converses s t op params cap tmo a) (h : AnswersAtOnce s op cap d) : a = .data d := by
  obtain ⟨fs, es, n, hdialogue, -⟩ := hc
  exact (hdialogue.at_once h).1

/-- Settles O44: of the dialogues of O43 only that one is left. -/
theorem sendCommandReturnsTheAnswer : Obligations.SendCommandReturnsTheAnswer := by
  intro op d s hf hruns hlen hanswers
  obtain ⟨t, a, hexec, hkeeps, ⟨fs, es, n, hdialogue, hlog, htrace, -⟩, hdata, -, -⟩ :=
    sendCommandIsADialogue op s hf hruns hlen
  obtain ⟨ha, rfl, rfl⟩ := hdialogue.at_once hanswers
  exact ⟨t, hexec, hdata d ha, hkeeps, htrace, hlog⟩

/-! ### Parameters that are too long (R161, R191) -/

theorem sendCommandOp_payloadTooLong {s : State} (hr : WireReady s) {params : List Byte} (hlen : 253 < params.length)
    (hfits : params.length + 2 ≤ bufMax s.cfg) (op : Byte) (cap tmo : Nat) :
    sendCommandOp op params cap tmo s =
      .raised (.payloadTooLong (params.length + 2)) (s.settleFsm .protocolError) := by
  have hpayload : (commandPayload s.cfg op params).length = params.length + 2 := rfl
  rw [sendCommandOp, needStarted_ok hr.1, needConfigured_ok hr.2.2 hr.2.1, buildFrameOp, hpayload, needFits_ok hfits,
    if_pos (by omega)]
  rfl

/-- A `raise` before any pin event leaves the block as it was, but for the results and the passage of `FSM`. -/
theorem takeError_settleFsm {s : State} (hf : s.fsm = .idle) (e : Error) :
    EndsFatal ((s.settleFsm .protocolError).takeError e) e.code e.info ∧
      SameConfiguration s ((s.settleFsm .protocolError).takeError e) ∧
      SameLatches s ((s.settleFsm .protocolError).takeError e) ∧
      SameInputs s ((s.settleFsm .protocolError).takeError e) ∧
      SameWire s ((s.settleFsm .protocolError).takeError e) ∧
      ((s.settleFsm .protocolError).takeError e).fsmLog = s.fsmLog ++ [.protocolError, .idle] := by
  have hlog := settleFsm_fsmLog (f := .protocolError) (s := s) (by rw [hf]; decide) (by decide)
  refine ⟨endsFatal_takeError _ _, ?_, ?_, ?_, ?_, ?_⟩
  · simp [takeError_eq, State.settleFsm, SameConfiguration]
  · simp [takeError_eq, State.settleFsm, SameLatches]
  · simp [takeError_eq, State.settleFsm, SameInputs]
  · simp [takeError_eq, State.settleFsm, SameWire]
  · rw [takeError_eq, State.endOp_fsmLog, if_pos (settleFsm_fsm ..), hlog]

/-- Settles O45: BUILD_FRAME raises inside SEND_COMMAND before the select. -/
theorem sendCommandRejectsLongParameters : Obligations.SendCommandRejectsLongParameters := by
  intro op s hf hr
  refine ⟨fun hlen hfits => ⟨_, ?_, takeError_settleFsm hf (.payloadTooLong (s.opr.txbuf.length + 2))⟩,
    fun hlen hfits => ⟨_, ?_, takeError_settleFsm hf (.payloadTooLong (s.cfg.samParams.length + 2))⟩⟩
  · rw [exec, execSendCommand, sendCommandOp_payloadTooLong hr hlen hfits]; rfl
  · rw [exec, execUseSamConfiguration, useSamConfigurationOp, sendCommandOp_payloadTooLong hr hlen hfits]; rfl

/-! ### A response read that does not fit (R60, R146) -/

theorem receiveResponse_refused {s : State} (hr : WireReady s) {cap : Nat} (h : ¬ CommandRuns s cap) (op : Byte) :
    receiveResponse op cap s =
      .refused (if bufMax s.cfg < responseLength s cap then .tooLong else .writeIndexBeyondByte) := by
  have hraw : rawLength s.cfg cap = responseLength s cap := rfl
  rw [receiveResponse, hraw, dataReadOp_unfit hr (n := responseLength s cap) (by rw [responseLength]; omega)
    (fun hfit => h ⟨hr, hfit⟩)]
  rfl

/-- Settles O23: what the response read may be plays no part in the dialogue until it is made. -/
theorem sendCommandIsRefusedAtItsResponse : Obligations.SendCommandIsRefusedAtItsResponse := by
  intro op s hf hr hlen hunfit
  obtain ⟨u, hop, hfu, hix, hreach⟩ := sendCommandOp_eq op s.opr.cap s.opr.tmo hr hf hlen
  have hexec : ∀ m, awaitAck op s.opr.cap s.opr.tmo u = m → exec (.sendCommand op) s = m.conclude .ofResponse :=
    fun m hm => by rw [exec, execSendCommand, hop, hm]
  rcases awaitAck_cases op s.opr.cap s.opr.tmo (hreach.steady.ready hr) hfu with
    ⟨t, fs, es, d, hend, hends, hdialogue⟩ | ⟨t, fs, es, d, hend, hends, hdialogue⟩ |
    ⟨b, k₁, k₂, hend, hacked, hpolls, -, -, hb⟩
  · obtain ⟨hkeeps, hconverses⟩ := (hreach.talked hix hends hdialogue).endOp (.ofResponse none)
    exact .inl ⟨_, hexec _ hend, hkeeps, .inl ⟨⟨State.endOp_res .., betweenOps_endOp ..⟩, hconverses⟩⟩
  · obtain ⟨hkeeps, hconverses⟩ := (hreach.talked hix hends hdialogue).endOp (.ofError .ackMismatch)
    exact .inl ⟨_, hexec _ hend, hkeeps, .inr ⟨endsFatal_takeError .ackMismatch t, hconverses⟩⟩
  · have hsb := hreach.steady.trans hb.steady
    have hcfg := hsb.cfg
    have hub : ¬ CommandRuns b s.opr.cap := fun hruns => hunfit
      ⟨hr, by rw [← hcfg]; exact hruns.2.1, by rw [WriteIndexFits, ← hcfg]; exact hruns.2.2⟩
    rw [receiveResponse_refused (hsb.ready hr) hub, responseLength, hcfg] at hend
    rw [hix] at hacked hpolls
    refine .inr ⟨hexec _ hend, k₁, k₂, ⟨hreach.steady.pollsTo hacked.wait, ?_⟩, hreach.steady.pollsTo hpolls⟩
    rw [← hreach.steady.drawn]
    exact hacked.ack

end Sys2Proof.Machine
end

section
/-! Proofs for 43_pn532_commands.md, section 2: the composites GET_FIRMWARE_VERSION, USE_SAM_CONFIGURATION and
READ_PASSIVE_TARGET (R195 to R197). -/

namespace Sys2Proof.Machine

/-! ### GET_FIRMWARE_VERSION -/

/-- Settles O46: the query's data when it has some, `DeviceNotDetected` for none or for no response, else the error of
its SEND_COMMAND. -/
theorem firmwareVersionEscalatesNoResponse : Obligations.FirmwareVersionEscalatesNoResponse := by
  intro s hf hruns
  have hsat := (getFirmwareVersionOp_sat s hf).imp (R' := False) (fun _ _ h => h) (fun _ _ h => h)
    (fun hn => hn hruns)
  obtain ⟨u, r, hexec, ⟨v, ⟨hne, -, htalk⟩, rfl⟩ | ⟨e, htalk | ⟨rfl, htalk | htalk⟩, rfl⟩⟩ := hsat.exists_end .ofBytes
    <;> obtain ⟨hkeeps, hconverses⟩ := htalk.endOp _ <;> refine ⟨_, _, hexec, hkeeps, hconverses, ?_⟩
  · exact ⟨fun d h _ => (by cases h; exact endsOk_endOp v u), fun h => (by simp [hne] at h), nofun⟩
  · exact ⟨nofun, nofun, fun _ h => (by cases h; exact endsFatal_takeError e u)⟩
  · exact ⟨nofun, fun _ => endsFatal_takeError .deviceNotDetected u, nofun⟩
  · exact ⟨fun d h hd => (by cases h; exact absurd rfl hd), fun _ => endsFatal_takeError .deviceNotDetected u, nofun⟩

/-- Settles O47: the answer at once is the answer of O46. -/
theorem firmwareVersionReturnsTheAnswer : Obligations.FirmwareVersionReturnsTheAnswer := by
  intro d s hf hruns hanswers hne
  obtain ⟨t, a, hexec, hkeeps, hconverses, hdata, -, -⟩ := firmwareVersionEscalatesNoResponse s hf hruns
  exact ⟨t, hexec, hdata d (hconverses.at_once hanswers) hne, hkeeps⟩

/-! ### USE_SAM_CONFIGURATION -/

/-- Settles O48: what SEND_COMMAND returned is not looked at. -/
theorem samConfigurationSwallowsNoResponse : Obligations.SamConfigurationSwallowsNoResponse := by
  intro s hf hruns hlen
  have hsat := (useSamConfigurationOp_sat s hf).imp (R' := False) (fun _ _ h => h) (fun _ _ h => h)
    (fun hn => hn ⟨hruns, by rw [bufMax]; omega⟩)
  obtain ⟨u, r, hexec, ⟨-, ⟨v, htalk⟩, rfl⟩ | ⟨e, ⟨hlong, -⟩ | htalk, rfl⟩⟩ := hsat.exists_end fun _ => .ofUnit
  · obtain ⟨hkeeps, hconverses⟩ := htalk.endOp .ofUnit
    refine ⟨_, _, hexec, hkeeps, hconverses, fun _ => endsOk_endOp_ofUnit u, ?_⟩
    cases v <;> exact nofun
  · omega
  · obtain ⟨hkeeps, hconverses⟩ := htalk.endOp (.ofError e)
    exact ⟨_, _, hexec, hkeeps, hconverses, nofun, fun _ h => (by cases h; exact endsFatal_takeError e u)⟩

/-- Settles O49: the answer at once is the answer of O48. -/
theorem samConfigurationAccepted : Obligations.SamConfigurationAccepted := by
  intro d s hf hruns hlen hanswers
  obtain ⟨t, a, hexec, hkeeps, hconverses, hok, -⟩ := samConfigurationSwallowsNoResponse s hf hruns hlen
  exact ⟨t, hexec, hok (.inl ⟨d, hconverses.at_once hanswers⟩), hkeeps⟩

/-! ### READ_PASSIVE_TARGET: the checks of R231 in order -/

theorem targetUid_nil : targetUid [] = .error .malformedTargetResponse := rfl

theorem targetUid_count {c : Byte} (h : c ≠ 0x01) (d : List Byte) : targetUid (c :: d) = .error .moreThanOneCard := by
  rw [targetUid, if_neg (by simp), if_pos (show (c :: d).getD 0 0x00 ≠ 1 from h)]

theorem targetUid_short {d : List Byte} (h : d.length < 5) :
    targetUid (0x01 :: d) = .error .malformedTargetResponse := by
  rw [targetUid, if_neg (by simp), if_neg (by simp), if_pos (by simp; omega)]

/-- With the count and the length byte there, the rest is the UID's length and the UID (R106, R231). -/
theorem targetUid_target (b₁ b₂ b₃ b₄ n : Byte) (rest : List Byte) :
    targetUid (0x01 :: b₁ :: b₂ :: b₃ :: b₄ :: n :: rest) =
      if 7 < n.toNat then .error .uidTooLong
      else if rest.length < n.toNat then .error .malformedTargetResponse else .ok (rest.take n.toNat) := by
  have hshort : ¬ (0x01 :: b₁ :: b₂ :: b₃ :: b₄ :: n :: rest).length < 6 := by simp
  have hcut : (0x01 :: b₁ :: b₂ :: b₃ :: b₄ :: n :: rest).length < 6 + n.toNat ↔ rest.length < n.toNat := by
    simp; omega
  rw [targetUid, if_neg (by simp), if_neg (by simp), if_neg hshort]
  simp only [List.getD_cons_succ, List.getD_cons_zero, hcut]
  rfl

theorem endsOk_endOp_ofTarget (uid : List Byte) (s : State) : EndsOk (s.endOp (.ofTarget (some uid))) uid true :=
  ⟨State.endOp_res .., betweenOps_endOp ..⟩

/-- READ_PASSIVE_TARGET always ends, by the answer of its conversation, and data is judged by `targetUid` (R197). -/
theorem readPassiveTarget_ends (baud : Byte) {s : State} (hf : s.fsm = .idle) (hruns : CommandRuns s 17) :
    ∃ t a, exec (.readPassiveTarget baud) s = .next t ∧ UnitPKeeps s t ∧
      Converses s t s.cfg.opcIlpt [s.cfg.ilptMaxTg, baud] 17 s.opr.tmo a ∧
      (a = .noResponse → EndsOk t [] false) ∧ (∀ e, a = .error e → EndsFatal t e.code e.info) ∧
      (∀ d uid, a = .data d → targetUid d = .ok uid → EndsOk t uid true) ∧
      (∀ d e, a = .data d → targetUid d = .error e → EndsFatal t e.code e.info) := by
  have hsat := (readPassiveTargetOp_sat baud s.opr.tmo s hf).imp (R' := False) (fun _ _ h => h) (fun _ _ h => h)
    (fun hn => hn hruns)
  obtain ⟨u, r, hexec, ⟨v, ⟨-, ⟨rfl, htalk⟩ | ⟨d, uid, rfl, huid, htalk⟩⟩, rfl⟩ |
    ⟨e, htalk | ⟨d, herror, htalk⟩, rfl⟩⟩ := hsat.exists_end .ofTarget
    <;> obtain ⟨hkeeps, hconverses⟩ := htalk.endOp _ <;> refine ⟨_, _, hexec, hkeeps, hconverses, ?_⟩
  · exact ⟨fun _ => ⟨State.endOp_res .., betweenOps_endOp ..⟩, nofun, nofun, nofun⟩
  · refine ⟨nofun, nofun, fun _ _ h huid' => ?_, fun _ _ h herror => ?_⟩ <;> cases h
    · cases huid.symm.trans huid'; exact endsOk_endOp_ofTarget uid u
    · cases huid.symm.trans herror
  · exact ⟨nofun, fun _ h => (by cases h; exact endsFatal_takeError e u), nofun, nofun⟩
  · refine ⟨nofun, nofun, fun _ _ h huid => ?_, fun _ _ h herror' => ?_⟩ <;> cases h
    · cases herror.symm.trans huid
    · cases herror.symm.trans herror'; exact endsFatal_takeError e u

/-- Settles O50: each clause is the value of `targetUid` on data of that shape. -/
theorem passiveTargetJudgesTheResponse : Obligations.PassiveTargetJudgesTheResponse := by
  intro baud s hf hruns
  obtain ⟨t, a, hexec, hkeeps, hconverses, hnone, herror, huid, hbad⟩ := readPassiveTarget_ends baud hf hruns
  refine ⟨t, a, hexec, hkeeps, hconverses, hnone, herror, ?_, ?_, ?_, fun b₁ b₂ b₃ b₄ n rest ha => ⟨?_, ?_, ?_⟩⟩
  · exact fun ha => hbad _ .malformedTargetResponse ha targetUid_nil
  · exact fun c d ha hc => hbad _ .moreThanOneCard ha (targetUid_count hc d)
  · exact fun d ha hshort => hbad _ .malformedTargetResponse ha (targetUid_short hshort)
  · refine fun hlong => hbad _ .uidTooLong ha ?_
    rw [targetUid_target, if_pos hlong]
  · refine fun hn hcut => hbad _ .malformedTargetResponse ha ?_
    rw [targetUid_target, if_neg (by omega), if_pos hcut]
  · refine fun hn hwhole => huid _ _ ha ?_
    rw [targetUid_target, if_neg (by omega), if_neg (by omega)]

/-- Settles O51: the answer at once is the answer of O50, and its UID is whole. -/
theorem passiveTargetReturnsTheUid : Obligations.PassiveTargetReturnsTheUid := by
  intro baud b₁ b₂ b₃ b₄ n uid rest s hf hruns hlen hn hanswers
  obtain ⟨t, a, hexec, hkeeps, hconverses, -, -, huid, -⟩ := readPassiveTarget_ends baud hf hruns
  refine ⟨t, hexec, huid _ uid (hconverses.at_once hanswers) ?_, hkeeps⟩
  rw [targetUid_target, if_neg (by omega), if_neg (by simp; omega), ← hlen, List.take_left]

end Sys2Proof.Machine
end

section
/-! Proofs for 43_pn532_commands.md, section 2: INITIALIZE (R194). -/

namespace Sys2Proof.Machine

/-! ### The state the firmware query is made from -/

/-- `s` once CONFIGURE and CONFIGURE_BIT_ORDER have written mode 0 and LSB first. -/
abbrev configuredState (s : State) : State := { s with mode := 0, modeV := true, order := .lsbFirst, orderV := true }

theorem wire_bringUpState (s : State) : Wire (configuredState s) (bringUpState s) :=
  (wire_pinOut .csn .low _).trans (wire_delay tInitSettle _)

theorem frameWriteEvents_congr {s t : State} (hm : t.mode = s.mode) (ho : t.order = s.order) (f : List Byte) :
    frameWriteEvents t f = frameWriteEvents s f := by simp only [frameWriteEvents, State.setup, hm, ho]

/-- The query, seen from the state INITIALIZE began in. -/
theorem Talked.queried {s t : State} (hs : s.started = true) {a : Answer}
    (h : Talked (bringUpState s) t s.cfg.opcGfv [] 4 s.cfg.tCmdDefault a) : Queried s t a [] := by
  have hw := wire_bringUpState s
  obtain ⟨(hmode : _ = 0), -, (horder : _ = BitOrder.lsbFirst), -, -⟩ := hw.conf
  have hcfg : (bringUpState s).cfg = s.cfg := hw.cfg
  have hnow : s.world.now + 1000 ≤ (bringUpState s).world.now :=
    (Nat.add_le_add_right (wire_pinOut .csn .low (configuredState s)).now 1000).trans (delay_now tInitSettle _)
  have htrace : (bringUpState s).trace = s.trace ++ [.out .csn .low, .wait 1000] := by simp [tInitSettle]
  have hst := hw.steady.trans h.steady
  obtain ⟨hm, hmV, ho, hoV, hstarted⟩ := hst.conf
  obtain ⟨fs, es, d, hdialogue, hlog, hadds, htime⟩ := h.talk
  refine ⟨hm, hmV, ho, hoV, hstarted.trans hs, h.pins.1, ?_, hst.inputs, h.fsm, fs, es, d, ?_, ?_, by omega, ?_⟩
  · rw [h.pins.2, hmode]; rfl
  · rw [show (bringUpState s).world.misoIx = s.world.misoIx by simp] at hdialogue
    exact Dialogue.congr (s := protocolView s) hmode horder hw.miso hcfg hdialogue
  · rw [hlog, hw.fsmLog]
  · rw [hcfg, frameWriteEvents_congr (s := protocolView s) hmode horder] at hadds
    rw [TraceAdds, hadds, htrace]
    simp

theorem Queried.endOp {s t : State} {a : Answer} {last : List Event} (h : Queried s t a last) (r : Results) :
    Queried s (t.endOp r) a last := by
  obtain ⟨fs, es, d, hdialogue, hlog, htime, htrace⟩ := h.dialogue
  refine ⟨by simp [h.mode], by simp [h.modeV], by simp [h.order], by simp [h.orderV], by simp [h.started],
    by simp [h.csnQ], by simp [h.sckQ], by simpa [SameInputs] using h.inputs, by simp, fs, es, d, hdialogue, ?_,
    htime.trans (kept_endOp r t).now, ?_⟩
  · rw [State.endOp_fsmLog, if_pos h.fsm, hlog]
  · rw [TraceAdds, State.endOp_trace, htrace]

/-- The last deselect finds CS_N high already; its `Out` is made all the same (R125; log 9). -/
theorem Queried.deselect {s t : State} {a : Answer} (h : Queried s t a []) :
    Queried s (t.pinOut .csn .high) a [.out .csn .high] := by
  have hw := wire_pinOut .csn .high t
  obtain ⟨hm, hmV, ho, hoV, hstarted⟩ := hw.conf
  obtain ⟨fs, es, d, hdialogue, hlog, htime, htrace⟩ := h.dialogue
  refine ⟨hm.trans h.mode, hmV.trans h.modeV, ho.trans h.order, hoV.trans h.orderV, hstarted.trans h.started, by simp,
    by simp [h.sckQ], by simpa [SameInputs, State.pinOut] using h.inputs, hw.fsm.trans h.fsm, fs, es, d, hdialogue,
    hw.fsmLog.trans hlog, htime.trans hw.now, ?_⟩
  rw [TraceAdds, pinOut_trace, htrace]
  simp

/-! ### INITIALIZE, whole -/

theorem commandRuns_bringUpState {s : State} (hs : s.started = true) {cap : Nat}
    (hfits : cap + 2 + s.cfg.frameOverhead ≤ bufMax s.cfg) (hx : WriteIndexFits s (cap + 2 + s.cfg.frameOverhead)) :
    CommandRuns (bringUpState s) cap := by
  have hcfg : (bringUpState s).cfg = s.cfg := (wire_bringUpState s).cfg
  refine ⟨(wire_bringUpState s).ready ⟨hs, rfl, rfl⟩, ?_, ?_⟩
  · rwa [hcfg]
  · rwa [WriteIndexFits, hcfg]

/-- The two pieces of INITIALIZE after its bring-up: the query, and on a return of it the last deselect (R194). -/
theorem bringUpOp_sat {s : State} (hf : s.fsm = .idle) (hs : s.started = true) (hn : NoTransaction s) :
    (bringUpOp s).Sat (fun _ t => ∃ v, v ≠ [] ∧ Queried s t (.data v) [.out .csn .high])
      (fun e t => ∃ a, Queried s t a [] ∧
        (a = .error e ∨ (e = .deviceNotDetected ∧ (a = .noResponse ∨ a = .data []))))
      (¬ CommandRuns (bringUpState s) 4) := by
  have hfb : (bringUpState s).fsm = .idle := (wire_bringUpState s).fsm.trans hf
  rw [bringUpOp_eq hs hn]
  refine Res.Sat.bind ((getFirmwareVersionOp_sat (bringUpState s) hfb).imp (fun _ _ h => h) ?_ id) ?_
  · rintro e t (htalk | ⟨he, htalk | htalk⟩)
    · exact ⟨_, htalk.queried hs, .inl rfl⟩
    · exact ⟨_, htalk.queried hs, .inr ⟨he, .inl rfl⟩⟩
    · exact ⟨_, htalk.queried hs, .inr ⟨he, .inr rfl⟩⟩
  · rintro v t ⟨hne, -, htalk⟩
    have hq := htalk.queried hs
    rw [deselectOp, needStarted_ok hq.started]
    exact ⟨v, hne, hq.deselect⟩

/-- Settles O52: the configuration and the pins are those the query leaves, and a last deselect is made on a return. -/
theorem initializeConfiguresAndQueries : Obligations.InitializeConfiguresAndQueries := by
  intro s hf hs hn hfits hx
  have hsat := (bringUpOp_sat hf hs hn).imp (R' := False) (fun _ _ h => h) (fun _ _ h => h)
    (fun hrefused => hrefused (commandRuns_bringUpState hs hfits hx))
  obtain ⟨u, r, hexec, ⟨-, ⟨v, hne, hq⟩, rfl⟩ | ⟨e, ⟨a, hq, ha⟩, rfl⟩⟩ := hsat.exists_end fun _ => .ofUnit
  · obtain ⟨hm, hmV, ho, hoV, hst, hcs, hsck, hin, -, fs, es, d, hdialogue, hlog, htime, htrace⟩ := hq.endOp .ofUnit
    refine ⟨_, _, fs, es, d, hexec, hm, hmV, ho, hoV, hst, hcs, hsck, hin, hdialogue, hlog, htime, ?_,
      fun _ _ _ => endsOk_endOp_ofUnit u, fun h => by simp [hne] at h, nofun⟩
    rw [State.endOp_res]
    exact htrace
  · obtain ⟨hm, hmV, ho, hoV, hst, hcs, hsck, hin, -, fs, es, d, hdialogue, hlog, htime, htrace⟩ :=
      hq.endOp (.ofError e)
    have hfatal := endsFatal_takeError e u
    refine ⟨_, _, fs, es, d, hexec, hm, hmV, ho, hoV, hst, hcs, hsck, hin, hdialogue, hlog, htime, ?_, ?_⟩
    · rw [State.endOp_res]
      exact htrace
    · rcases ha with rfl | ⟨rfl, rfl | rfl⟩
      · exact ⟨nofun, nofun, fun _ h => (by cases h; exact hfatal)⟩
      · exact ⟨nofun, fun _ => hfatal, nofun⟩
      · exact ⟨fun d h hd => (by cases h; exact absurd rfl hd), fun _ => hfatal, nofun⟩

/-- Settles O53: the answer at once is the answer of O52. -/
theorem initializeSucceeds : Obligations.InitializeSucceeds := by
  intro d s hf hs hn hfits hx hanswers hne
  obtain ⟨t, a, fs, es, n, hexec, hm, -, ho, -, -, hcs, -, -, hdialogue, -, -, -, hdata, -, -⟩ :=
    initializeConfiguresAndQueries s hf hs hn hfits hx
  exact ⟨t, hexec, hdata d (Dialogue.at_once (s := protocolView s) hdialogue hanswers).1 hne, hm, ho, hcs⟩

end Sys2Proof.Machine
end

section
/-! Proofs for 10_state.md, section 2, and 70_reset_and_hazards.md: who writes the configuration and the latches, and
how the pins are left (R21 to R25, R35, R149, R199). -/

namespace Sys2Proof.Machine

/-! ### No error but that of BUILD_FRAME has its code (R220) -/

theorem parseBody_error_code {bs : List Byte} {e : Error} (h : parseBody bs = .error e) : e.code ≠ 0x18 := by
  unfold parseBody at h
  split at h
  · split_ifs at h <;> cases h <;> decide
  · cases h; decide

theorem parsePreamble_error_code {bs : List Byte} {e : Error} (h : parsePreamble bs = .error e) : e.code ≠ 0x18 := by
  induction bs with
  | nil => cases h; decide
  | cons b rest ih =>
    rw [parsePreamble] at h
    split_ifs at h
    · exact ih h
    · exact parseBody_error_code h
    · cases h; decide

theorem parseFrame_error_code {c : Config} {raw : List Byte} {xmax : Nat} {e : Error}
    (h : parseFrame c raw xmax = .error e) : e.code ≠ 0x18 := by
  unfold parseFrame at h
  split at h
  · cases h; decide
  · split_ifs at h
    · exact parsePreamble_error_code h
    · cases h; decide

theorem targetUid_error_code {d : List Byte} {e : Error} (h : targetUid d = .error e) : e.code ≠ 0x18 := by
  unfold targetUid at h
  dsimp only at h
  split_ifs at h <;> cases h <;> decide

theorem Dialogue.error_code {s : State} {op : Byte} {cap tmo ix n : Nat} {e : Error} {fs : List Fsm} {es : List Event}
    (h : Dialogue s op cap tmo ix (.error e) fs es n) : e.code ≠ 0x18 := by
  cases h with
  | badAck => decide
  | badFrame _ _ _ _ _ hparse => exact parseFrame_error_code hparse
  | wrongCommand => decide

theorem Talked.error_code {s t : State} {op : Byte} {params : List Byte} {cap tmo : Nat} {e : Error}
    (h : Talked s t op params cap tmo (.error e)) : e.code ≠ 0x18 := by
  obtain ⟨fs, es, d, hdialogue, -⟩ := h.talk
  exact hdialogue.error_code

/-! ### The operations of unit P that touch the wire (R199, R161, R237) -/

theorem Steady.unitPEnds {s u : State} (h : Steady s u) (hpins : PinsRest s u) {r : Results} (hr : r.err ≠ 0x18) :
    UnitPEnds s (u.endOp r) := by
  obtain ⟨hconf, -, hcs, hsck⟩ := h.unitPKeeps_endOp hpins r
  exact ⟨hconf, .inl ⟨⟨hcs, hsck⟩, by rwa [State.endOp_res]⟩⟩

theorem Steady.unitPEnds_tooLong {s u : State} (h : Steady s u) (hlatches : SameLatches s u) (n : Nat) :
    UnitPEnds s (u.takeError (.payloadTooLong n)) := by
  refine ⟨by simpa [takeError_eq, SameConfiguration] using h.conf, .inr ⟨?_, ?_⟩⟩
  · simpa [takeError_eq, SameLatches] using hlatches
  · rw [takeError_eq, State.endOp_res]; rfl

theorem Talked.unitPEnds {s u : State} {op : Byte} {params : List Byte} {cap tmo : Nat} {a : Answer}
    (h : Talked s u op params cap tmo a) {r : Results} (hr : r.err ≠ 0x18) : UnitPEnds s (u.endOp r) :=
  h.steady.unitPEnds h.pins hr

theorem Exchanged.unitPEnds {s u : State} {bs : List Byte} (h : Exchanged s bs u) (hbs : bs ≠ []) {r : Results}
    (hr : r.err ≠ 0x18) : UnitPEnds s (u.endOp r) := h.wire.steady.unitPEnds (h.pinsRest hbs) hr

/-- The `ERR` of an `Ok` is not the code of `PayloadTooLong`. -/
theorem okErr_ne : (0x00 : Byte) ≠ 0x18 := by decide

theorem ofResponse_err (v : Option (List Byte)) : (Results.ofResponse v).err ≠ 0x18 := by
  cases v <;> simp [Results.ofResponse, Results.ofBytes]

theorem ofTarget_err (v : Option (List Byte)) : (Results.ofTarget v).err ≠ 0x18 := by
  cases v <;> simp [Results.ofTarget]

theorem exec_unitPEnds {i : Instr} {s t : State} (hf : s.fsm = .idle) (h : exec i s = .next t)
    (hi : unitPWire i = true) (hinit : i ≠ .initializeOp) : UnitPEnds s t := by
  cases i with
  | configure _ | configureBitOrder _ | start | select | deselect | write _ _ | read _ _ | transfer _ _ | buildFrame
  | parseResponseFrame => cases hi
  | initializeOp => exact absurd rfl hinit
  | statusRead =>
    refine (wireExchange_sat _ s).conclude_next h ?_ (fun _ _ hfalse => hfalse.elim)
    exact fun v u ⟨_, hx, _⟩ => hx.unitPEnds (by simp) okErr_ne
  | waitReady =>
    refine (waitReadyOp_sat _ s).conclude_next h ?_ (fun _ _ hfalse => hfalse.elim)
    exact fun v u ⟨_, k, _, _, hw⟩ => hw.wire.steady.unitPEnds ⟨hw.csnQ, hw.sckQ⟩ okErr_ne
  | dataRead =>
    rw [exec, execDataRead, dataReadOp] at h
    split at h
    · cases h
    · refine (wireExchange_sat _ s).conclude_next h ?_ (fun _ _ hfalse => hfalse.elim)
      exact fun v u ⟨_, hx, _⟩ => hx.unitPEnds (by simp) okErr_ne
  | readAck =>
    refine (readAckOp_sat s).conclude_next h ?_ ?_
    · exact fun v u ⟨_, hx, _⟩ => hx.unitPEnds (by simp) okErr_ne
    · rintro e u ⟨-, hx, rfl, -⟩
      exact hx.unitPEnds (by simp) (show (0x10 : Byte) ≠ 0x18 by decide)
  | sendCommand op =>
    refine (sendCommandOp_sat op _ _ _ s hf).conclude_next h ?_ ?_
    · exact fun v u ⟨_, htalk⟩ => htalk.unitPEnds (ofResponse_err v)
    · rintro e u (⟨-, rfl, hst, hlatches, -⟩ | ⟨-, htalk⟩)
      · exact hst.unitPEnds_tooLong hlatches _
      · exact htalk.unitPEnds htalk.error_code
  | getFirmwareVersion =>
    refine (getFirmwareVersionOp_sat s hf).conclude_next h ?_ ?_
    · exact fun v u ⟨_, _, htalk⟩ => htalk.unitPEnds okErr_ne
    · rintro e u (htalk | ⟨rfl, htalk | htalk⟩)
      · exact htalk.unitPEnds htalk.error_code
      all_goals exact htalk.unitPEnds (show (0x20 : Byte) ≠ 0x18 by decide)
  | useSamConfiguration =>
    refine (useSamConfigurationOp_sat s hf).conclude_next h ?_ ?_
    · exact fun _ u ⟨v, htalk⟩ => htalk.unitPEnds okErr_ne
    · rintro e u (⟨-, rfl, hst, hlatches, -⟩ | htalk)
      · exact hst.unitPEnds_tooLong hlatches _
      · exact htalk.unitPEnds htalk.error_code
  | readPassiveTarget baud =>
    refine (readPassiveTargetOp_sat baud _ s hf).conclude_next h ?_ ?_
    · rintro v u ⟨-, ⟨-, htalk⟩ | ⟨d, uid, -, -, htalk⟩⟩ <;> exact htalk.unitPEnds (ofTarget_err v)
    · rintro e u (htalk | ⟨d, herror, htalk⟩)
      · exact htalk.unitPEnds htalk.error_code
      · exact htalk.unitPEnds (targetUid_error_code herror)

/-- INITIALIZE that answers a next state found the block started, and leaves it as its query does, with another code
than that of `PayloadTooLong` (R194). -/
theorem exec_initializeOp_queried {s t : State} (hf : s.fsm = .idle) (h : exec .initializeOp s = .next t) :
    s.started = true ∧ (∃ a last, Queried s t a last) ∧ t.res.err ≠ 0x18 := by
  rcases bringUpOp_cases s with ⟨r, hr⟩ | ⟨hs, hn⟩
  · rw [exec, execInitialize, hr] at h; cases h
  · obtain ⟨u, r, rfl, ⟨-, ⟨v, -, hq⟩, rfl⟩ | ⟨e, ⟨a, hq, ha⟩, rfl⟩⟩ := (bringUpOp_sat hf hs hn).of_next h
      <;> refine ⟨hs, ⟨_, _, hq.endOp _⟩, ?_⟩ <;> rw [State.endOp_res]
    · exact okErr_ne
    · rcases ha with rfl | ⟨rfl, -⟩
      · obtain ⟨fs, es, d, hdialogue, -⟩ := hq.dialogue
        exact hdialogue.error_code
      · exact (show (0x20 : Byte) ≠ 0x18 by decide)

/-- Settles O58: the pins are at rest in the mode the operation found, or in the mode 0 INITIALIZE has written. -/
theorem unitPLeavesThePeripheralDeselected : Obligations.UnitPLeavesThePeripheralDeselected := by
  intro i s t hf hexec hi
  by_cases hinit : i = .initializeOp
  · subst hinit
    obtain ⟨-, ⟨a, last, hq⟩, herr⟩ := exec_initializeOp_queried hf hexec
    exact ⟨fun _ => ⟨hq.csnQ, by rw [hq.sckQ, hq.mode]; rfl⟩, fun h => absurd h herr⟩
  · obtain ⟨⟨hmode, -⟩, ⟨⟨hcs, hsck⟩, herr⟩ | ⟨hlatches, herr⟩⟩ := exec_unitPEnds hf hexec hi hinit
    · exact ⟨fun _ => ⟨hcs, by rw [hmode]; exact hsck⟩, fun h => absurd h herr⟩
    · exact ⟨fun h => absurd herr h, fun _ => hlatches⟩

/-! ### The operations that stay within unit T or touch no pin (R35, R149) -/

theorem Wire.clockRests {s u : State} (h : Wire s u) (hsck : u.sckQ = s.sckQ ∨ u.sckQ = idleLevel s.mode)
    (r : Results) : ClockRests s (u.endOp r) :=
  ⟨(h.endOp_keeps r).1, by rwa [State.endOp_sckQ]⟩

theorem exec_clockRests {i : Instr} {s t : State} (h : exec i s = .next t) (hi : unitPWire i = false)
    (hconf : configures i = false) (hstart : i ≠ .start) : ClockRests s t := by
  cases i with
  | statusRead | waitReady | dataRead | readAck | sendCommand _ | initializeOp | getFirmwareVersion
  | useSamConfiguration | readPassiveTarget _ => cases hi
  | configure _ | configureBitOrder _ => cases hconf
  | start => exact absurd rfl hstart
  | select =>
    rw [exec, execSelect, selectOp, needStarted] at h
    split at h <;> cases h
    exact (wire_pinOut .csn .low s).clockRests (.inl (by simp)) _
  | deselect =>
    rw [exec, execDeselect, deselectOp, needStarted] at h
    split at h <;> cases h
    exact (wire_pinOut .csn .high s).clockRests (.inl (by simp)) _
  | write sel desel =>
    rcases writeOp_cases s.opr.txbuf sel desel s with ⟨r, hr⟩ | ⟨hr, hfits⟩
    · rw [exec, execWrite, hr] at h; cases h
    · rw [exec_write hr hfits] at h; cases h
      obtain ⟨hwire, -, -, hsck, -⟩ := writeEvents_runs s.opr.txbuf sel desel s
      exact hwire.clockRests (by rw [hsck]; exact ite_eq_or_eq ..) _
  | read sel desel =>
    rcases readOp_cases s.opr.len sel desel s with ⟨r, hr⟩ | ⟨hr, hfits⟩
    · rw [exec, execRead, hr] at h; cases h
    · rw [exec_read hr hfits] at h; cases h
      obtain ⟨hwire, -, -, hsck, -⟩ := readEvents_runs s.opr.len sel s
      refine (hwire.trans (wire_chipSelectIf desel .high _)).clockRests ?_ _
      rw [chipSelectIf_sckQ, hsck]
      exact ite_eq_or_eq ..
  | transfer sel desel =>
    rcases transferOp_cases s.opr.txbuf sel desel s with ⟨r, hr⟩ | ⟨hr, hfits, hx⟩
    · rw [exec, execTransfer, hr] at h; cases h
    · rw [exec_transfer hr hfits hx] at h; cases h
      obtain ⟨hwire, -, -, hsck, -⟩ := xferEvents_runs s.opr.txbuf sel s
      refine (hwire.trans (wire_chipSelectIf desel .high _)).clockRests ?_ _
      rw [chipSelectIf_sckQ, hsck]
      exact ite_eq_or_eq ..
  | buildFrame =>
    refine (buildFrameOp_sat _ s).conclude_next h ?_ ?_
    · rintro v u ⟨rfl, -⟩; exact (Wire.refl _).clockRests (.inl rfl) _
    · rintro e u ⟨rfl, -⟩; exact (Wire.refl _).clockRests (.inl rfl) _
  | parseResponseFrame =>
    refine (parseResponseFrameOp_sat _ _ s).conclude_next h ?_ ?_
    · rintro v u ⟨rfl, -⟩; exact (Wire.refl _).clockRests (.inl rfl) _
    · rintro e u ⟨rfl, -⟩; exact (Wire.refl _).clockRests (.inl rfl) _

/-! ### START, CONFIGURE and CONFIGURE_BIT_ORDER, when they answer a next state -/

/-- START that answers a next state found a mode held; it sets SCK to that mode's idle level (R122). -/
theorem exec_start_next {s t : State} (h : exec .start s = .next t) :
    t.mode = s.mode ∧ t.modeV = s.modeV ∧ t.order = s.order ∧ t.orderV = s.orderV ∧ t.started = true ∧
      t.sckQ = idleLevel s.mode := by
  cases hmode : s.modeV with
  | false => rw [startNeedsAMode s hmode] at h; cases h
  | true =>
    obtain ⟨u, hexec, -, hsck, -, -, hs, hm, hmV, ho, hoV, -⟩ := startProvisionsThePins s hmode
    rw [hexec] at h
    cases h
    exact ⟨hm, hmV.trans hmode, ho, hoV, hs, hsck⟩

/-- CONFIGURE writes `MODE` and `MODE_V` alone, whatever its outcome (R120). -/
theorem exec_configure_next {m : Byte} {s t : State} (h : exec (.configure m) s = .next t) :
    t.started = s.started ∧ SameLatches s t ∧ SameWire s t := by
  obtain ⟨u, r, rfl, ⟨-, ⟨-, hu⟩, rfl⟩ | ⟨e, ⟨rfl, -⟩, rfl⟩⟩ := (configureOp_sat m s).of_next h
  · rw [hu]
    simp [SameLatches, SameWire]
  · simp [SameLatches, SameWire]

/-- CONFIGURE_BIT_ORDER writes `ORDER` and `ORDER_V` alone, whatever its outcome (R121). -/
theorem exec_configureBitOrder_next {o : Byte} {s t : State} (h : exec (.configureBitOrder o) s = .next t) :
    t.started = s.started ∧ t.mode = s.mode ∧ SameLatches s t ∧ SameWire s t := by
  obtain ⟨u, r, rfl, ⟨-, ⟨-, hu⟩, rfl⟩ | ⟨e, ⟨rfl, -⟩, rfl⟩⟩ := (configureBitOrderOp_sat o s).of_next h
  · rw [hu]
    simp [SameLatches, SameWire]
  · simp [SameLatches, SameWire]

/-! ### The obligations over every operation -/

/-- An operation that neither configures nor provisions the pins finds and leaves one configuration. -/
theorem exec_sameConfiguration {i : Instr} {s t : State} (hf : s.fsm = .idle) (h : exec i s = .next t)
    (hconf : configures i = false) (hstart : i ≠ .start) : SameConfiguration s t := by
  cases hi : unitPWire i with
  | false => exact (exec_clockRests h hi hconf hstart).conf
  | true => exact (exec_unitPEnds hf h hi (fun hinit => by rw [hinit] at hconf; cases hconf)).conf

/-- Settles O54: the operations that configure and START are those of the four lemmas above; no other writes these. -/
theorem onlyConfigurationWritesModeAndOrder : Obligations.OnlyConfigurationWritesModeAndOrder := by
  intro i s t hf hexec
  by_cases hstart : i = .start
  · subst hstart
    obtain ⟨hm, hmV, ho, hoV, hs, -⟩ := exec_start_next hexec
    exact ⟨fun _ => ⟨hm, hmV, ho, hoV⟩, fun h => absurd rfl h, fun _ => hs⟩
  · refine ⟨fun hconf => ?_, fun _ => ?_, fun h => absurd h hstart⟩
    · obtain ⟨hm, hmV, ho, hoV, -⟩ := exec_sameConfiguration hf hexec hconf hstart
      exact ⟨hm, hmV, ho, hoV⟩
    · cases i with
      | configure m => exact (exec_configure_next hexec).1
      | configureBitOrder o => exact (exec_configureBitOrder_next hexec).1
      | initializeOp =>
        obtain ⟨hs, ⟨a, last, hq⟩, -⟩ := exec_initializeOp_queried hf hexec
        exact hq.started.trans hs.symm
      | _ =>
        obtain ⟨-, -, -, -, hs⟩ := exec_sameConfiguration hf hexec rfl hstart
        exact hs

/-- Settles O55: the four operations without a pin end from the latches they found, SELECT and DESELECT set CS_N, and
the cells of a READ leave MOSI. -/
theorem latchesAreWrittenByTheirOperationsOnly : Obligations.LatchesAreWrittenByTheirOperationsOnly := by
  intro i s t hexec
  have hquiet : ∀ (u : State) (r : Results), SameLatches u (u.endOp r) ∧ SameWire u (u.endOp r) := fun u r =>
    have ⟨_, hlatches, _, hwire, _⟩ := endOp_quiet r u
    ⟨hlatches, hwire⟩
  refine ⟨?_, ?_, ?_⟩
  · rintro (⟨a, rfl | rfl⟩ | rfl | rfl)
    · exact (exec_configure_next hexec).2
    · exact (exec_configureBitOrder_next hexec).2.2
    · obtain ⟨u, r, rfl, ⟨-, ⟨rfl, -⟩, -⟩ | ⟨-, ⟨rfl, -⟩, -⟩⟩ := (buildFrameOp_sat _ s).of_next hexec
        <;> exact hquiet u r
    · obtain ⟨u, r, rfl, ⟨-, ⟨rfl, -⟩, -⟩ | ⟨-, ⟨rfl, -⟩, -⟩⟩ := (parseResponseFrameOp_sat _ _ s).of_next hexec
        <;> exact hquiet u r
  · rintro (rfl | rfl)
    · rw [exec, execSelect, selectOp, needStarted] at hexec
      split at hexec <;> cases hexec
      simp
    · rw [exec, execDeselect, deselectOp, needStarted] at hexec
      split at hexec <;> cases hexec
      simp
  · rintro sel desel rfl
    rcases readOp_cases s.opr.len sel desel s with ⟨r, hr⟩ | ⟨hr, hfits⟩
    · rw [exec, execRead, hr] at hexec; cases hexec
    · rw [exec_read hr hfits] at hexec; cases hexec
      obtain ⟨-, -, -, -, hmosi, -⟩ := readEvents_runs s.opr.len sel s
      simp [hmosi]

/-- Settles O57: an operation leaves SCK where it was, or at the idle level of the mode it leaves. -/
theorem clockStaysAtIdle : Obligations.ClockStaysAtIdle := by
  intro i s t hf hexec hnot hidle
  cases i with
  | configure m => exact absurd rfl (hnot m)
  | configureBitOrder o =>
    obtain ⟨-, hmode, ⟨hsck, -⟩, -⟩ := exec_configureBitOrder_next hexec
    rw [hsck, hidle, hmode]
  | start =>
    obtain ⟨hmode, -, -, -, -, hsck⟩ := exec_start_next hexec
    rw [hsck, hmode]
  | initializeOp =>
    obtain ⟨-, ⟨a, last, hq⟩, -⟩ := exec_initializeOp_queried hf hexec
    rw [hq.sckQ, hq.mode]
    rfl
  | select | deselect | write _ _ | read _ _ | transfer _ _ | buildFrame | parseResponseFrame =>
    obtain ⟨⟨hmode, -⟩, hsck | hsck⟩ := exec_clockRests hexec rfl rfl nofun
    · rw [hsck, hidle, hmode]
    · rw [hsck, hmode]
  | statusRead | waitReady | dataRead | readAck | sendCommand _ | getFirmwareVersion | useSamConfiguration
  | readPassiveTarget _ =>
    obtain ⟨⟨hmode, -⟩, ⟨⟨-, hsck⟩, -⟩ | ⟨⟨hsck, -⟩, -⟩⟩ := exec_unitPEnds hf hexec rfl nofun
    · rw [hsck, hmode]
    · rw [hsck, hidle, hmode]

end Sys2Proof.Machine
end
